-- ==== Sys2Proof/Word.lean ====
section
/-!
DEFINITION. The word types of CORE (00_scope.md R6, R9): names for the widths the spec treats as bits.
-/

namespace Sys2Proof

/-- `XLEN` = 32: an x register, `pc`, a CSR word, a virtual address, an instruction word (R6, R20, R25, R130). -/
abbrev Word := BitVec 32

/-- One byte of memory (R71). -/
abbrev Byte := BitVec 8

/-- The 5-bit number of an x or f register in an instruction word (R24, R131). -/
abbrev RegIdx := BitVec 5

/-- A 12-bit CSR address (R36). -/
abbrev CsrAddr := BitVec 12

/-- A physical address: `PALEN` = 34 bits (R6, R60, R93). -/
abbrev PAddr := BitVec 34

end Sys2Proof
end

