-- ==== Sys2Proof/Config.lean ====
section
/-!
DEFINITION. The parameters of CORE that are plain data (00_scope.md R6) and the dispatch keys of Instructions (30_encoding.md
R134 to R139). The configuration that collects every parameter, behaviours and `Translate` among them, is
`Machine.Configuration` (Machine/Cpu.lean).
-/

namespace Sys2Proof

/-- What a byte of memory that nothing has written reads as.
DESIGN CHOICE (unsafe, log entry 1): the bus is external (R72) and the spec gives no initial contents (U21);
the conventions of 95_test_vectors.md take "memory 0 elsewhere". -/
def Config.memFill : Byte := 0

/-- `RESET_VECTOR`'s default (R6). -/
def Config.defaultResetVector : Word := 0

/-- `FLEN`, the width of an f register: OPEN, 32 or 64 (R6, R30, D5). -/
inductive Flen where
  | f32
  | f64
deriving DecidableEq, Repr

/-- A stretch of physical addresses that exists on the host's bus. -/
structure Region where
  base : Nat
  size : Nat
deriving DecidableEq, Repr

/-- The host's address map: the data behind `PhysValid` (R6, R109). A byte exists when some region holds it. -/
abbrev PhysMap := List Region

/-- The default of R6: every `pa < 2^32` is valid. -/
def Config.defaultPhysMap : PhysMap := [{ base := 0, size := 4294967296 }]

/-- The encoding types of SVC §3 (R132, R134). -/
inductive Format where
  | r | i | s | b | u | j
deriving DecidableEq, Repr

/-- How far a descriptor's dispatch key reaches past the opcode and `funct3` (R135, R138). -/
inductive KeyTail where
  | none
  | funct7 (v : BitVec 7)
  | wholeWord (v : Word)
deriving DecidableEq, Repr

/-- An Instruction descriptor without its behaviour (R134): name, encoding type and dispatch key. -/
structure Descriptor where
  name : String
  format : Format
  opcode : BitVec 7
  funct3 : Option (BitVec 3)
  tail : KeyTail
deriving DecidableEq, Repr

/-- R139: the mask of a descriptor's flat form, by the shape of its key.
Two shapes R139 does not list (DESIGN CHOICE, log entry 13): a `funct7` without a `funct3` (R134 makes each optional) masks
the opcode and `funct7` only, and a whole word is its own key whatever opcode the descriptor names.
A descriptor under `SYSTEM` with `funct3` 000 and no whole word, which R138 (b) gives no key and R275 lets a module add, has the
key its fields make, as under any opcode (DESIGN CHOICE, log entry 13). -/
def Descriptor.mask (d : Descriptor) : Word :=
  match d.tail, d.funct3 with
  | .wholeWord _, _ => 0xFFFFFFFF
  | .funct7 _, some _ => 0xFE00707F
  | .funct7 _, Option.none => 0xFE00007F
  | .none, some _ => 0x0000707F
  | .none, Option.none => 0x0000007F

/-- R139: the match value of a descriptor's flat form; an absent field is 0, as it is in the mask. (For the shapes R139 does
not list, see `Descriptor.mask`: DESIGN CHOICE, log entry 13.) -/
def Descriptor.matchWord (d : Descriptor) : Word :=
  match d.tail with
  | .wholeWord v => v
  | .funct7 v => v ++ 0#10 ++ d.funct3.getD 0 ++ 0#5 ++ d.opcode
  | .none => 0#17 ++ d.funct3.getD 0 ++ 0#5 ++ d.opcode

/-- R139: `insn` selects the descriptor when `insn & mask = match`. -/
def Descriptor.selects (d : Descriptor) (insn : Word) : Bool := insn &&& d.mask == d.matchWord

/-- R136: two descriptors collide when some word is selected by both. -/
def Descriptor.collides (d e : Descriptor) : Bool :=
  (d.matchWord ^^^ e.matchWord) &&& (d.mask &&& e.mask) == 0

/-- R318: the CSRs that the trap path, `PendingInterrupt`, `MRET` and the MMU use by the raw path:
`mstatus`, `mepc`, `mcause`, `mtval`, `mtvec`, `mip`, `mie`, `satp`. -/
def Config.rawCsrs : List CsrAddr := [0x300, 0x341, 0x342, 0x343, 0x305, 0x344, 0x304, 0x180]

/-- No two members of a list collide. -/
def noCollision {α : Type} (collides : α → α → Bool) : List α → Bool
  | [] => true
  | a :: rest => rest.all (fun b => !collides a b) && noCollision collides rest

end Sys2Proof
end

