-- ==== Sys2Proof/Syntax.lean ====
section
/-!
DEFINITION. The instructions of the loaded configuration (30_encoding.md R140): one constructor for each row of the opcode
table, its fields the operand fields of the instruction word (R131, R133), unextended.
-/

namespace Sys2Proof

/-- One constructor per row of the opcode table.
An immediate is held as the bits the word encodes: 12 bits for I and S, 20 bits (`insn[31:12]`) for U,
13 bits for B and 21 bits for J, whose bit 0 the word does not hold and which is 0 in a well-formed instruction. -/
inductive Instr where
  /-- `LUI rd, imm` (R201). -/
  | lui (rd : RegIdx) (imm : BitVec 20)
  /-- `AUIPC rd, imm` (R202). -/
  | auipc (rd : RegIdx) (imm : BitVec 20)
  /-- `ADDI rd, rs1, imm` (R203). -/
  | addi (rd rs1 : RegIdx) (imm : BitVec 12)
  /-- `SLTI rd, rs1, imm` (R204). -/
  | slti (rd rs1 : RegIdx) (imm : BitVec 12)
  /-- `SLTIU rd, rs1, imm` (R205). -/
  | sltiu (rd rs1 : RegIdx) (imm : BitVec 12)
  /-- `XORI rd, rs1, imm` (R206). -/
  | xori (rd rs1 : RegIdx) (imm : BitVec 12)
  /-- `ORI rd, rs1, imm` (R207). -/
  | ori (rd rs1 : RegIdx) (imm : BitVec 12)
  /-- `ANDI rd, rs1, imm` (R208). -/
  | andi (rd rs1 : RegIdx) (imm : BitVec 12)
  /-- `SLLI rd, rs1, shamt` (R209). -/
  | slli (rd rs1 : RegIdx) (shamt : BitVec 5)
  /-- `SRLI rd, rs1, shamt` (R210). -/
  | srli (rd rs1 : RegIdx) (shamt : BitVec 5)
  /-- `SRAI rd, rs1, shamt` (R211). -/
  | srai (rd rs1 : RegIdx) (shamt : BitVec 5)
  /-- `ADD rd, rs1, rs2` (R212). -/
  | add (rd rs1 rs2 : RegIdx)
  /-- `SUB rd, rs1, rs2` (R213). -/
  | sub (rd rs1 rs2 : RegIdx)
  /-- `SLL rd, rs1, rs2` (R214). -/
  | sll (rd rs1 rs2 : RegIdx)
  /-- `SLT rd, rs1, rs2` (R215). -/
  | slt (rd rs1 rs2 : RegIdx)
  /-- `SLTU rd, rs1, rs2` (R216). -/
  | sltu (rd rs1 rs2 : RegIdx)
  /-- `XOR rd, rs1, rs2` (R217). -/
  | xor (rd rs1 rs2 : RegIdx)
  /-- `SRL rd, rs1, rs2` (R218). -/
  | srl (rd rs1 rs2 : RegIdx)
  /-- `SRA rd, rs1, rs2` (R219). -/
  | sra (rd rs1 rs2 : RegIdx)
  /-- `OR rd, rs1, rs2` (R220). -/
  | or (rd rs1 rs2 : RegIdx)
  /-- `AND rd, rs1, rs2` (R221). -/
  | and (rd rs1 rs2 : RegIdx)
  /-- `JAL rd, off` (R232). -/
  | jal (rd : RegIdx) (off : BitVec 21)
  /-- `JALR rd, imm(rs1)` (R233). -/
  | jalr (rd rs1 : RegIdx) (imm : BitVec 12)
  /-- `BEQ rs1, rs2, off` (R234). -/
  | beq (rs1 rs2 : RegIdx) (off : BitVec 13)
  /-- `BNE rs1, rs2, off` (R235). -/
  | bne (rs1 rs2 : RegIdx) (off : BitVec 13)
  /-- `BLT rs1, rs2, off` (R236). -/
  | blt (rs1 rs2 : RegIdx) (off : BitVec 13)
  /-- `BGE rs1, rs2, off` (R237). -/
  | bge (rs1 rs2 : RegIdx) (off : BitVec 13)
  /-- `BLTU rs1, rs2, off` (R238). -/
  | bltu (rs1 rs2 : RegIdx) (off : BitVec 13)
  /-- `BGEU rs1, rs2, off` (R239). -/
  | bgeu (rs1 rs2 : RegIdx) (off : BitVec 13)
  /-- `LB rd, imm(rs1)` (R251). -/
  | lb (rd rs1 : RegIdx) (imm : BitVec 12)
  /-- `LH rd, imm(rs1)` (R252). -/
  | lh (rd rs1 : RegIdx) (imm : BitVec 12)
  /-- `LW rd, imm(rs1)` (R253). -/
  | lw (rd rs1 : RegIdx) (imm : BitVec 12)
  /-- `LBU rd, imm(rs1)` (R254). -/
  | lbu (rd rs1 : RegIdx) (imm : BitVec 12)
  /-- `LHU rd, imm(rs1)` (R255). -/
  | lhu (rd rs1 : RegIdx) (imm : BitVec 12)
  /-- `SB rs2, imm(rs1)` (R256). -/
  | sb (rs1 rs2 : RegIdx) (imm : BitVec 12)
  /-- `SH rs2, imm(rs1)` (R257). -/
  | sh (rs1 rs2 : RegIdx) (imm : BitVec 12)
  /-- `SW rs2, imm(rs1)` (R258). -/
  | sw (rs1 rs2 : RegIdx) (imm : BitVec 12)
  /-- `FENCE pred, succ` (R270). -/
  | fence (fm pred succ : BitVec 4) (rs1 rd : RegIdx)
  /-- `ECALL` (R271). -/
  | ecall
  /-- `EBREAK` (R272). -/
  | ebreak
  /-- `MRET` (R274). -/
  | mret
  /-- `CSRRW rd, csr, rs1` (R281). -/
  | csrrw (rd : RegIdx) (csr : CsrAddr) (rs1 : RegIdx)
  /-- `CSRRS rd, csr, rs1` (R282). -/
  | csrrs (rd : RegIdx) (csr : CsrAddr) (rs1 : RegIdx)
  /-- `CSRRC rd, csr, rs1` (R283). -/
  | csrrc (rd : RegIdx) (csr : CsrAddr) (rs1 : RegIdx)
  /-- `CSRRWI rd, csr, uimm` (R284). -/
  | csrrwi (rd : RegIdx) (csr : CsrAddr) (uimm : BitVec 5)
  /-- `CSRRSI rd, csr, uimm` (R285). -/
  | csrrsi (rd : RegIdx) (csr : CsrAddr) (uimm : BitVec 5)
  /-- `CSRRCI rd, csr, uimm` (R286). -/
  | csrrci (rd : RegIdx) (csr : CsrAddr) (uimm : BitVec 5)
deriving DecidableEq, Repr

/-- Why a word has no entry in the Instruction Table, or bytes are no word (30_encoding.md R137, R138, R150).
Every one of them makes the sequencer raise `IllegalInstruction` (R174), but for `truncated`, which the sequencer
never meets: it always fetches four bytes (R80). -/
inductive DecodeError where
  /-- Fewer than four bytes. -/
  | truncated
  /-- `insn[6:0]` is absent from the opcode map. -/
  | unknownOpcode (op : BitVec 7)
  /-- The opcode is mapped and `funct3` has no entry under it. -/
  | unknownFunct3 (op : BitVec 7) (funct3 : BitVec 3)
  /-- The opcode and `funct3` have entries, and `insn[31:25]` matches none of them. -/
  | unknownFunct7 (op : BitVec 7) (funct3 : BitVec 3) (funct7 : BitVec 7)
  /-- `SYSTEM` with `funct3 = 000` and a word that is none of `ECALL`, `EBREAK`, `MRET`. -/
  | unknownSystemWord (insn : Word)
deriving DecidableEq, Repr

end Sys2Proof
end

