-- ==== Sys2Proof/WellFormed.lean ====
section
/-!
DEFINITION. When an instruction is well formed: its fields are ones some word encodes. Registers, shift amounts and CSR
addresses fill their fields; a branch or jump offset must be even, since bit 0 of `imm_B` and `imm_J` is a hard 0
(30_encoding.md R133, 42_control_transfer.md R230 f).
-/

namespace Sys2Proof

/-- A byte offset that the B or J format can encode: bit 0 is 0 (R133). -/
def evenOffset {n : Nat} (off : BitVec n) : Bool := !off.getLsbD 0

/-- The instruction is one that some word of R140 encodes. -/
def Instr.wellFormed : Instr → Bool
  | .lui _ _ => true
  | .auipc _ _ => true
  | .addi _ _ _ => true
  | .slti _ _ _ => true
  | .sltiu _ _ _ => true
  | .xori _ _ _ => true
  | .ori _ _ _ => true
  | .andi _ _ _ => true
  | .slli _ _ _ => true
  | .srli _ _ _ => true
  | .srai _ _ _ => true
  | .add _ _ _ => true
  | .sub _ _ _ => true
  | .sll _ _ _ => true
  | .slt _ _ _ => true
  | .sltu _ _ _ => true
  | .xor _ _ _ => true
  | .srl _ _ _ => true
  | .sra _ _ _ => true
  | .or _ _ _ => true
  | .and _ _ _ => true
  | .jal _ off => evenOffset off
  | .jalr _ _ _ => true
  | .beq _ _ off => evenOffset off
  | .bne _ _ off => evenOffset off
  | .blt _ _ off => evenOffset off
  | .bge _ _ off => evenOffset off
  | .bltu _ _ off => evenOffset off
  | .bgeu _ _ off => evenOffset off
  | .lb _ _ _ => true
  | .lh _ _ _ => true
  | .lw _ _ _ => true
  | .lbu _ _ _ => true
  | .lhu _ _ _ => true
  | .sb _ _ _ => true
  | .sh _ _ _ => true
  | .sw _ _ _ => true
  | .fence _ _ _ _ _ => true
  | .ecall => true
  | .ebreak => true
  | .mret => true
  | .csrrw _ _ _ => true
  | .csrrs _ _ _ => true
  | .csrrc _ _ _ => true
  | .csrrwi _ _ _ => true
  | .csrrsi _ _ _ => true
  | .csrrci _ _ _ => true

end Sys2Proof
end

