-- ==== Sys2Proof/Decode.lean ====
section
/-!
DEFINITION. The decoder and the encoder (30_encoding.md): the fields of a word, the Instruction Table's lookup as R137 nests it,
total on every word and every list of bytes and rejecting by name, and the encoder written from the same layouts. (The
table's rows, with their behaviours, are in Machine/Modules.lean.)
-/

namespace Sys2Proof

/-! ## Fields of the instruction word (R131) and the encoded bits of each immediate (R133) -/

/-- `insn[6:0]`. -/
def opcodeOf (w : Word) : BitVec 7 := w.extractLsb' 0 7

/-- `insn[11:7]`. -/
def rdOf (w : Word) : RegIdx := w.extractLsb' 7 5

/-- `insn[14:12]`. -/
def funct3Of (w : Word) : BitVec 3 := w.extractLsb' 12 3

/-- `insn[19:15]`. -/
def rs1Of (w : Word) : RegIdx := w.extractLsb' 15 5

/-- `insn[24:20]`. -/
def rs2Of (w : Word) : RegIdx := w.extractLsb' 20 5

/-- `insn[31:25]`. -/
def funct7Of (w : Word) : BitVec 7 := w.extractLsb' 25 7

/-- The 12 bits of `imm_I`: `insn[31:20]`. -/
def immIOf (w : Word) : BitVec 12 := w.extractLsb' 20 12

/-- The 12 bits of `imm_S`: `{insn[31:25], insn[11:7]}`. -/
def immSOf (w : Word) : BitVec 12 := w.extractLsb' 25 7 ++ w.extractLsb' 7 5

/-- The 13 bits of `imm_B`: `{insn[31], insn[7], insn[30:25], insn[11:8], 1'b0}`. -/
def immBOf (w : Word) : BitVec 13 :=
  w.extractLsb' 31 1 ++ w.extractLsb' 7 1 ++ w.extractLsb' 25 6 ++ w.extractLsb' 8 4 ++ 0#1

/-- The 20 bits of `imm_U` that a word holds: `insn[31:12]`. -/
def immUOf (w : Word) : BitVec 20 := w.extractLsb' 12 20

/-- The 21 bits of `imm_J`: `{insn[31], insn[19:12], insn[20], insn[30:21], 1'b0}`. -/
def immJOf (w : Word) : BitVec 21 :=
  w.extractLsb' 31 1 ++ w.extractLsb' 12 8 ++ w.extractLsb' 20 1 ++ w.extractLsb' 21 10 ++ 0#1

/-- `shamt = insn[24:20]`. -/
def shamtOf (w : Word) : BitVec 5 := w.extractLsb' 20 5

/-- `uimm`'s five bits: `insn[19:15]`. -/
def uimmOf (w : Word) : BitVec 5 := w.extractLsb' 15 5

/-- `csr = insn[31:20]`. -/
def csrOf (w : Word) : CsrAddr := w.extractLsb' 20 12

/-- `FENCE`'s `fm = insn[31:28]` (R270). -/
def fmOf (w : Word) : BitVec 4 := w.extractLsb' 28 4

/-- `FENCE`'s `pred = insn[27:24]` (R270). -/
def predOf (w : Word) : BitVec 4 := w.extractLsb' 24 4

/-- `FENCE`'s `succ = insn[23:20]` (R270). -/
def succOf (w : Word) : BitVec 4 := w.extractLsb' 20 4

/-! ## The lookup (R137, R138): opcode, then `funct3`, then `funct7` or the whole word -/

/-- `LOAD`, `0000011`. -/
def decodeLoad (w : Word) : Except DecodeError Instr :=
  match funct3Of w with
  | 0b000#3 => .ok (.lb (rdOf w) (rs1Of w) (immIOf w))
  | 0b001#3 => .ok (.lh (rdOf w) (rs1Of w) (immIOf w))
  | 0b010#3 => .ok (.lw (rdOf w) (rs1Of w) (immIOf w))
  | 0b100#3 => .ok (.lbu (rdOf w) (rs1Of w) (immIOf w))
  | 0b101#3 => .ok (.lhu (rdOf w) (rs1Of w) (immIOf w))
  | f => .error (.unknownFunct3 (opcodeOf w) f)

/-- `MISC-MEM`, `0001111`: `FENCE` only; every field but the opcode and `funct3` is free (R270). -/
def decodeMiscMem (w : Word) : Except DecodeError Instr :=
  match funct3Of w with
  | 0b000#3 => .ok (.fence (fmOf w) (predOf w) (succOf w) (rs1Of w) (rdOf w))
  | f => .error (.unknownFunct3 (opcodeOf w) f)

/-- `OP-IMM` with `funct3 = 001`: `SLLI` on all of `insn[31:25]` (R138 a). -/
def decodeShiftLeftImm (w : Word) : Except DecodeError Instr :=
  match funct7Of w with
  | 0b0000000#7 => .ok (.slli (rdOf w) (rs1Of w) (shamtOf w))
  | f => .error (.unknownFunct7 (opcodeOf w) (funct3Of w) f)

/-- `OP-IMM` with `funct3 = 101`: `SRLI` and `SRAI` on all of `insn[31:25]` (R138 a). -/
def decodeShiftRightImm (w : Word) : Except DecodeError Instr :=
  match funct7Of w with
  | 0b0000000#7 => .ok (.srli (rdOf w) (rs1Of w) (shamtOf w))
  | 0b0100000#7 => .ok (.srai (rdOf w) (rs1Of w) (shamtOf w))
  | f => .error (.unknownFunct7 (opcodeOf w) (funct3Of w) f)

/-- `OP-IMM`, `0010011`: the eight values of `funct3` all have entries. -/
def decodeOpImm (w : Word) : Except DecodeError Instr :=
  match funct3Of w with
  | 0b000#3 => .ok (.addi (rdOf w) (rs1Of w) (immIOf w))
  | 0b001#3 => decodeShiftLeftImm w
  | 0b010#3 => .ok (.slti (rdOf w) (rs1Of w) (immIOf w))
  | 0b011#3 => .ok (.sltiu (rdOf w) (rs1Of w) (immIOf w))
  | 0b100#3 => .ok (.xori (rdOf w) (rs1Of w) (immIOf w))
  | 0b101#3 => decodeShiftRightImm w
  | 0b110#3 => .ok (.ori (rdOf w) (rs1Of w) (immIOf w))
  | 0b111#3 => .ok (.andi (rdOf w) (rs1Of w) (immIOf w))

/-- `STORE`, `0100011`. -/
def decodeStore (w : Word) : Except DecodeError Instr :=
  match funct3Of w with
  | 0b000#3 => .ok (.sb (rs1Of w) (rs2Of w) (immSOf w))
  | 0b001#3 => .ok (.sh (rs1Of w) (rs2Of w) (immSOf w))
  | 0b010#3 => .ok (.sw (rs1Of w) (rs2Of w) (immSOf w))
  | f => .error (.unknownFunct3 (opcodeOf w) f)

/-- `OP`, `0110011`, with `funct7 = 0000000`: the eight values of `funct3` all have entries. -/
def decodeOpBase (w : Word) : Instr :=
  match funct3Of w with
  | 0b000#3 => .add (rdOf w) (rs1Of w) (rs2Of w)
  | 0b001#3 => .sll (rdOf w) (rs1Of w) (rs2Of w)
  | 0b010#3 => .slt (rdOf w) (rs1Of w) (rs2Of w)
  | 0b011#3 => .sltu (rdOf w) (rs1Of w) (rs2Of w)
  | 0b100#3 => .xor (rdOf w) (rs1Of w) (rs2Of w)
  | 0b101#3 => .srl (rdOf w) (rs1Of w) (rs2Of w)
  | 0b110#3 => .or (rdOf w) (rs1Of w) (rs2Of w)
  | 0b111#3 => .and (rdOf w) (rs1Of w) (rs2Of w)

/-- `OP` with `funct7 = 0100000`: `SUB` and `SRA`. -/
def decodeOpAlt (w : Word) : Except DecodeError Instr :=
  match funct3Of w with
  | 0b000#3 => .ok (.sub (rdOf w) (rs1Of w) (rs2Of w))
  | 0b101#3 => .ok (.sra (rdOf w) (rs1Of w) (rs2Of w))
  | f => .error (.unknownFunct3 (opcodeOf w) f)

/-- `OP`, `0110011`: `opcode -> funct7 -> funct3` (R135). -/
def decodeOp (w : Word) : Except DecodeError Instr :=
  match funct7Of w with
  | 0b0000000#7 => .ok (decodeOpBase w)
  | 0b0100000#7 => decodeOpAlt w
  | f => .error (.unknownFunct7 (opcodeOf w) (funct3Of w) f)

/-- `BRANCH`, `1100011`. -/
def decodeBranch (w : Word) : Except DecodeError Instr :=
  match funct3Of w with
  | 0b000#3 => .ok (.beq (rs1Of w) (rs2Of w) (immBOf w))
  | 0b001#3 => .ok (.bne (rs1Of w) (rs2Of w) (immBOf w))
  | 0b100#3 => .ok (.blt (rs1Of w) (rs2Of w) (immBOf w))
  | 0b101#3 => .ok (.bge (rs1Of w) (rs2Of w) (immBOf w))
  | 0b110#3 => .ok (.bltu (rs1Of w) (rs2Of w) (immBOf w))
  | 0b111#3 => .ok (.bgeu (rs1Of w) (rs2Of w) (immBOf w))
  | f => .error (.unknownFunct3 (opcodeOf w) f)

/-- `JALR`, `1100111`: `funct3` must be 000 (R233). -/
def decodeJalr (w : Word) : Except DecodeError Instr :=
  match funct3Of w with
  | 0b000#3 => .ok (.jalr (rdOf w) (rs1Of w) (immIOf w))
  | f => .error (.unknownFunct3 (opcodeOf w) f)

/-- `SYSTEM` with `funct3 = 000`: keyed by the whole word (R138 b, R273). -/
def decodeSystemWord (w : Word) : Except DecodeError Instr :=
  match w with
  | 0x00000073#32 => .ok .ecall
  | 0x00100073#32 => .ok .ebreak
  | 0x30200073#32 => .ok .mret
  | _ => .error (.unknownSystemWord w)

/-- `SYSTEM`, `1110011`: the six Zicsr rows, and the whole-word level under `funct3 = 000` (R273). -/
def decodeSystem (w : Word) : Except DecodeError Instr :=
  match funct3Of w with
  | 0b000#3 => decodeSystemWord w
  | 0b001#3 => .ok (.csrrw (rdOf w) (csrOf w) (rs1Of w))
  | 0b010#3 => .ok (.csrrs (rdOf w) (csrOf w) (rs1Of w))
  | 0b011#3 => .ok (.csrrc (rdOf w) (csrOf w) (rs1Of w))
  | 0b101#3 => .ok (.csrrwi (rdOf w) (csrOf w) (uimmOf w))
  | 0b110#3 => .ok (.csrrsi (rdOf w) (csrOf w) (uimmOf w))
  | 0b111#3 => .ok (.csrrci (rdOf w) (csrOf w) (uimmOf w))
  | f => .error (.unknownFunct3 (opcodeOf w) f)

/-- R137: the Instruction a word selects, with its operand fields, or the reason it selects none. -/
def decode (w : Word) : Except DecodeError Instr :=
  match opcodeOf w with
  | 0b0000011#7 => decodeLoad w
  | 0b0001111#7 => decodeMiscMem w
  | 0b0010011#7 => decodeOpImm w
  | 0b0010111#7 => .ok (.auipc (rdOf w) (immUOf w))
  | 0b0100011#7 => decodeStore w
  | 0b0110011#7 => decodeOp w
  | 0b0110111#7 => .ok (.lui (rdOf w) (immUOf w))
  | 0b1100011#7 => decodeBranch w
  | 0b1100111#7 => decodeJalr w
  | 0b1101111#7 => .ok (.jal (rdOf w) (immJOf w))
  | 0b1110011#7 => decodeSystem w
  | op => .error (.unknownOpcode op)

/-- R73, R74: four bytes as a word, the byte at the lowest address the least significant. -/
def wordOfBytes (b0 b1 b2 b3 : Byte) : Word := b3 ++ b2 ++ b1 ++ b0

/-- Byte `k` of a word, `k` = 0 the least significant (R74). -/
def byteOf (w : Word) (k : Nat) : Byte := w.extractLsb' (8 * k) 8

/-- The decoder on bytes in memory order (R130: the byte at `pc` holds `insn[7:0]`): one instruction and what follows it. -/
def decodeBytes : List Byte → Except DecodeError (Instr × List Byte)
  | b0 :: b1 :: b2 :: b3 :: rest =>
    match decode (wordOfBytes b0 b1 b2 b3) with
    | .ok i => .ok (i, rest)
    | .error e => .error e
  | _ => .error .truncated

/-- The decoder on an instruction numbered as the opcode table numbers it: laid out as four bytes, low byte first,
and given to `decodeBytes`. Every bit above `nbits` is 0. -/
def decodeTableWord (nbits w : Nat) : Option Instr :=
  let word : Word := BitVec.ofNat 32 (w % 2 ^ nbits)
  match decodeBytes [byteOf word 0, byteOf word 1, byteOf word 2, byteOf word 3] with
  | .ok (i, _) => some i
  | .error _ => none

/-! ## The encoder (R132, R140) -/

/-- R-type: `funct7 rs2 rs1 funct3 rd opcode`. -/
def encodeR (f7 : BitVec 7) (rs2 rs1 : RegIdx) (f3 : BitVec 3) (rd : RegIdx) (op : BitVec 7) : Word :=
  f7 ++ rs2 ++ rs1 ++ f3 ++ rd ++ op

/-- I-type: `imm[11:0] rs1 funct3 rd opcode`. -/
def encodeI (imm : BitVec 12) (rs1 : RegIdx) (f3 : BitVec 3) (rd : RegIdx) (op : BitVec 7) : Word :=
  imm ++ rs1 ++ f3 ++ rd ++ op

/-- S-type: `imm[11:5] rs2 rs1 funct3 imm[4:0] opcode`. -/
def encodeS (imm : BitVec 12) (rs2 rs1 : RegIdx) (f3 : BitVec 3) (op : BitVec 7) : Word :=
  imm.extractLsb' 5 7 ++ rs2 ++ rs1 ++ f3 ++ imm.extractLsb' 0 5 ++ op

/-- B-type: `imm[12] imm[10:5] rs2 rs1 funct3 imm[4:1] imm[11] opcode`. -/
def encodeB (off : BitVec 13) (rs2 rs1 : RegIdx) (f3 : BitVec 3) (op : BitVec 7) : Word :=
  off.extractLsb' 12 1 ++ off.extractLsb' 5 6 ++ rs2 ++ rs1 ++ f3 ++ off.extractLsb' 1 4 ++ off.extractLsb' 11 1 ++ op

/-- U-type: `imm[31:12] rd opcode`. -/
def encodeU (imm : BitVec 20) (rd : RegIdx) (op : BitVec 7) : Word := imm ++ rd ++ op

/-- J-type: `imm[20] imm[10:1] imm[11] imm[19:12] rd opcode`. -/
def encodeJ (off : BitVec 21) (rd : RegIdx) (op : BitVec 7) : Word :=
  off.extractLsb' 20 1 ++ off.extractLsb' 1 10 ++ off.extractLsb' 11 1 ++ off.extractLsb' 12 8 ++ rd ++ op

/-- The word of an instruction (R132, R140, R270). Bit 0 of a branch or jump offset has no place in the word. -/
def encode : Instr → Word
  | .lui rd imm => encodeU imm rd 0b0110111#7
  | .auipc rd imm => encodeU imm rd 0b0010111#7
  | .addi rd rs1 imm => encodeI imm rs1 0b000#3 rd 0b0010011#7
  | .slti rd rs1 imm => encodeI imm rs1 0b010#3 rd 0b0010011#7
  | .sltiu rd rs1 imm => encodeI imm rs1 0b011#3 rd 0b0010011#7
  | .xori rd rs1 imm => encodeI imm rs1 0b100#3 rd 0b0010011#7
  | .ori rd rs1 imm => encodeI imm rs1 0b110#3 rd 0b0010011#7
  | .andi rd rs1 imm => encodeI imm rs1 0b111#3 rd 0b0010011#7
  | .slli rd rs1 shamt => encodeR 0b0000000#7 shamt rs1 0b001#3 rd 0b0010011#7
  | .srli rd rs1 shamt => encodeR 0b0000000#7 shamt rs1 0b101#3 rd 0b0010011#7
  | .srai rd rs1 shamt => encodeR 0b0100000#7 shamt rs1 0b101#3 rd 0b0010011#7
  | .add rd rs1 rs2 => encodeR 0b0000000#7 rs2 rs1 0b000#3 rd 0b0110011#7
  | .sub rd rs1 rs2 => encodeR 0b0100000#7 rs2 rs1 0b000#3 rd 0b0110011#7
  | .sll rd rs1 rs2 => encodeR 0b0000000#7 rs2 rs1 0b001#3 rd 0b0110011#7
  | .slt rd rs1 rs2 => encodeR 0b0000000#7 rs2 rs1 0b010#3 rd 0b0110011#7
  | .sltu rd rs1 rs2 => encodeR 0b0000000#7 rs2 rs1 0b011#3 rd 0b0110011#7
  | .xor rd rs1 rs2 => encodeR 0b0000000#7 rs2 rs1 0b100#3 rd 0b0110011#7
  | .srl rd rs1 rs2 => encodeR 0b0000000#7 rs2 rs1 0b101#3 rd 0b0110011#7
  | .sra rd rs1 rs2 => encodeR 0b0100000#7 rs2 rs1 0b101#3 rd 0b0110011#7
  | .or rd rs1 rs2 => encodeR 0b0000000#7 rs2 rs1 0b110#3 rd 0b0110011#7
  | .and rd rs1 rs2 => encodeR 0b0000000#7 rs2 rs1 0b111#3 rd 0b0110011#7
  | .jal rd off => encodeJ off rd 0b1101111#7
  | .jalr rd rs1 imm => encodeI imm rs1 0b000#3 rd 0b1100111#7
  | .beq rs1 rs2 off => encodeB off rs2 rs1 0b000#3 0b1100011#7
  | .bne rs1 rs2 off => encodeB off rs2 rs1 0b001#3 0b1100011#7
  | .blt rs1 rs2 off => encodeB off rs2 rs1 0b100#3 0b1100011#7
  | .bge rs1 rs2 off => encodeB off rs2 rs1 0b101#3 0b1100011#7
  | .bltu rs1 rs2 off => encodeB off rs2 rs1 0b110#3 0b1100011#7
  | .bgeu rs1 rs2 off => encodeB off rs2 rs1 0b111#3 0b1100011#7
  | .lb rd rs1 imm => encodeI imm rs1 0b000#3 rd 0b0000011#7
  | .lh rd rs1 imm => encodeI imm rs1 0b001#3 rd 0b0000011#7
  | .lw rd rs1 imm => encodeI imm rs1 0b010#3 rd 0b0000011#7
  | .lbu rd rs1 imm => encodeI imm rs1 0b100#3 rd 0b0000011#7
  | .lhu rd rs1 imm => encodeI imm rs1 0b101#3 rd 0b0000011#7
  | .sb rs1 rs2 imm => encodeS imm rs2 rs1 0b000#3 0b0100011#7
  | .sh rs1 rs2 imm => encodeS imm rs2 rs1 0b001#3 0b0100011#7
  | .sw rs1 rs2 imm => encodeS imm rs2 rs1 0b010#3 0b0100011#7
  | .fence fm pred succ rs1 rd => encodeI (fm ++ pred ++ succ) rs1 0b000#3 rd 0b0001111#7
  | .ecall => 0x00000073
  | .ebreak => 0x00100073
  | .mret => 0x30200073
  | .csrrw rd csr rs1 => encodeI csr rs1 0b001#3 rd 0b1110011#7
  | .csrrs rd csr rs1 => encodeI csr rs1 0b010#3 rd 0b1110011#7
  | .csrrc rd csr rs1 => encodeI csr rs1 0b011#3 rd 0b1110011#7
  | .csrrwi rd csr uimm => encodeI csr uimm 0b101#3 rd 0b1110011#7
  | .csrrsi rd csr uimm => encodeI csr uimm 0b110#3 rd 0b1110011#7
  | .csrrci rd csr uimm => encodeI csr uimm 0b111#3 rd 0b1110011#7

/-- The name of an instruction's row in the opcode table. -/
def Instr.mnemonic : Instr → String
  | .lui _ _ => "LUI"
  | .auipc _ _ => "AUIPC"
  | .addi _ _ _ => "ADDI"
  | .slti _ _ _ => "SLTI"
  | .sltiu _ _ _ => "SLTIU"
  | .xori _ _ _ => "XORI"
  | .ori _ _ _ => "ORI"
  | .andi _ _ _ => "ANDI"
  | .slli _ _ _ => "SLLI"
  | .srli _ _ _ => "SRLI"
  | .srai _ _ _ => "SRAI"
  | .add _ _ _ => "ADD"
  | .sub _ _ _ => "SUB"
  | .sll _ _ _ => "SLL"
  | .slt _ _ _ => "SLT"
  | .sltu _ _ _ => "SLTU"
  | .xor _ _ _ => "XOR"
  | .srl _ _ _ => "SRL"
  | .sra _ _ _ => "SRA"
  | .or _ _ _ => "OR"
  | .and _ _ _ => "AND"
  | .jal _ _ => "JAL"
  | .jalr _ _ _ => "JALR"
  | .beq _ _ _ => "BEQ"
  | .bne _ _ _ => "BNE"
  | .blt _ _ _ => "BLT"
  | .bge _ _ _ => "BGE"
  | .bltu _ _ _ => "BLTU"
  | .bgeu _ _ _ => "BGEU"
  | .lb _ _ _ => "LB"
  | .lh _ _ _ => "LH"
  | .lw _ _ _ => "LW"
  | .lbu _ _ _ => "LBU"
  | .lhu _ _ _ => "LHU"
  | .sb _ _ _ => "SB"
  | .sh _ _ _ => "SH"
  | .sw _ _ _ => "SW"
  | .fence _ _ _ _ _ => "FENCE"
  | .ecall => "ECALL"
  | .ebreak => "EBREAK"
  | .mret => "MRET"
  | .csrrw _ _ _ => "CSRRW"
  | .csrrs _ _ _ => "CSRRS"
  | .csrrc _ _ _ => "CSRRC"
  | .csrrwi _ _ _ => "CSRRWI"
  | .csrrsi _ _ _ => "CSRRSI"
  | .csrrci _ _ _ => "CSRRCI"

end Sys2Proof
end

