-- ==== Sys2Proof/Machine/State.lean ====
section
/-!
DEFINITION. The state of CORE (10_state.md) as plain data, the traps it can raise (60_exceptions.md R301, R303, R330), the two
reasons a step can stop, and the state after reset (R62). INVENTORY.md lists every field with its rule and reset value.
-/

namespace Sys2Proof.Machine

/-- The privilege modes, `user < supervisor < machine` (R33). Their numbers are `Mode.number` (Ops.lean). -/
inductive Mode where
  | user
  | supervisor
  | machine
deriving DecidableEq, Repr

/-- The fields of `mstatus` (R42). Every other bit reads 0 and ignores writes, so nothing else is stored.
`mpp` is a mode, which is what R42's legality fix-up says: the value 2 is never stored. -/
structure Mstatus where
  /-- Bit 3: machine interrupt enable. -/
  mie : Bool
  /-- Bit 7: `MIE` as it was before the last trap. -/
  mpie : Bool
  /-- Bits 12:11: the mode before the last trap. -/
  mpp : Mode
  /-- Bit 17: loads and stores translate as if in mode `MPP`. -/
  mprv : Bool
  /-- Bit 18: S-mode loads and stores may touch pages marked U. -/
  sum : Bool
  /-- Bit 19: loads may read pages marked executable only. -/
  mxr : Bool
deriving DecidableEq, Repr

/-- The stored CSRs of the loaded set (R40). `mip` has no stored value (R50): it is a view of `State.irq`. -/
structure CsrBank where
  mstatus : Mstatus
  mie : Word
  mtvec : Word
  mscratch : Word
  mepc : Word
  mcause : Word
  mtval : Word
  satp : Word
deriving DecidableEq, Repr

/-- The float register file: 32 entries of `FLEN` bits, `FLEN` being 32 or 64 (R30). Storage only. -/
inductive FRegs where
  | f32 (r : Vector (BitVec 32) 32)
  | f64 (r : Vector (BitVec 64) 32)
deriving DecidableEq, Repr

/-- The three level-sensitive interrupt inputs, driven by the host (R56). -/
structure IrqInputs where
  meip : Bool
  mtip : Bool
  msip : Bool
deriving DecidableEq, Repr

/-- R55: the run state. -/
inductive RunState where
  | running
  | halted
deriving DecidableEq, Repr

/-- The terminal cause of a halt (R55, R178): SVC's two fatal classes. -/
inductive HaltReason where
  /-- A raw access to a CSR address with no entry (R39). -/
  | contractViolation
  /-- An error during trap handling, or an explicit panic path (R178): `Cpu.takeTrap` halts with it. Unreachable in a
  well-formed configuration (R179). -/
  | unrecoverableFault
deriving DecidableEq, Repr

/-- Memory, held on the far side of the bus (R72): the bytes that differ from `Config.memFill`, addresses strictly rising. -/
abbrev Memory := List Host.Cell

/-- Everything the spec gives the machine, and the memory and address map the host gives it.
`physMap` is the host's `PhysValid` (R6), carried here so that what is proved of every state holds for every host map;
no instruction changes it (DESIGN CHOICE, log entry 3). -/
structure State where
  /-- `x[0..31]` (R20). Entry 0 is hard-wired: `State.readX` and `State.writeX` (Ops.lean) are the only accesses. -/
  x : Vector Word 32
  /-- The program counter (R25). -/
  pc : Word
  /-- `f[0..31]` (R30). -/
  f : FRegs
  /-- The current privilege mode (R33). -/
  mode : Mode
  /-- The CSR bank (R40). -/
  csr : CsrBank
  /-- The stored values of the CSR entries that modules other than the loaded ones register (R36, R52), in the order of
  registration; `State.readAdded` and `State.writeAdded` (Ops.lean) are the only accesses. The loaded set has none. -/
  added : List (CsrAddr × Word)
  /-- The interrupt inputs at their present levels (R56). -/
  irq : IrqInputs
  /-- R55. -/
  runState : RunState
  /-- R55: none until a halt. -/
  haltReason : Option HaltReason
  /-- The bytes the bus holds (R74). -/
  mem : Memory
  /-- Which physical addresses exist (R109). -/
  physMap : PhysMap
deriving DecidableEq, Repr

/-- The cause of an Exception: "a number that fits the 31-bit `mcause.Code`" (R301). The numbers the loaded configuration
raises (R303) have names, `ExceptionCause.illegalInstruction` and the others (Ops.lean). -/
abbrev ExceptionCause := BitVec 31

/-- The cause of an Interrupt, likewise a number (R301, R338). The three of R330 have names (Ops.lean). -/
abbrev InterruptCause := BitVec 31

/-- R301: a Trap is an Exception or an Interrupt, with a cause and an optional trap-value.
It is not state: `takeTrap` consumes it in the step that raises it. -/
inductive Trap where
  | exception (cause : ExceptionCause) (value : Option Word)
  | interrupt (cause : InterruptCause) (value : Option Word)
deriving DecidableEq, Repr

/-- What ends a phase of a step in place of a result (R170: "each of which may throw a Trap ... or an unrecoverable error"). -/
inductive Raised where
  /-- A Trap: the step takes it. -/
  | trap (t : Trap)
  /-- An unrecoverable error: it halts the core (R178). The loaded configuration has none (R179). -/
  | fatal (reason : HaltReason)
deriving DecidableEq, Repr

/-- The answer of an operation that may raise. -/
abbrev Result (α : Type) := Except Raised α

/-- Why the machine stops. No instruction's meaning answers a fault: every guest-visible condition is a trap (R178). -/
inductive Fault where
  /-- Raised by `step` alone, when `run_state` is `Halted`: R170 defines a step only when `run_state = Running` and R178
  says no further step is defined. Safe: the machine stops where the spec gives it no step. -/
  | coreHalted
deriving DecidableEq, Repr

/-- Why an instruction has no meaning. -/
inductive Refusal where
  /-- Raised by an arm of `exec` whose instruction has no meaning yet; no arm does. Safe: nothing is claimed of it. -/
  | notModelled (mnemonic : String)
deriving DecidableEq, Repr

/-- The machine right after reset (R62, R361) with `RESET_VECTOR` at its default.
The spec states `pc`, `run_state`, `halt_reason`, `mode`, `x[0]`, `MIE`, `MPRV`, `mcause` and the inputs' default; every other
register it calls unspecified, and holds `RESET_FILL` = 0 here as D23 says an executable model does (log entry 2).
Memory lists nothing: what it holds is the host's (R363, log entry 1). -/
def State.reset : State where
  x := Vector.replicate 32 0
  pc := Config.defaultResetVector
  f := .f32 (Vector.replicate 32 0)
  mode := .machine
  csr :=
    { mstatus := { mie := false, mpie := false, mpp := .user, mprv := false, sum := false, mxr := false }
      mie := 0
      mtvec := 0
      mscratch := 0
      mepc := 0
      mcause := 0
      mtval := 0
      satp := 0 }
  added := []
  irq := { meip := false, mtip := false, msip := false }
  runState := .running
  haltReason := none
  mem := []
  physMap := Config.defaultPhysMap

end Sys2Proof.Machine
end

