-- ==== Sys2Proof/Machine/Ops.lean ====
section
/-!
DEFINITION. The named operations over registers, `pc`, memory and the bus, taking a trap and returning from one
(10_state.md R20 to R35; 20_memory.md R70 to R76; 60_exceptions.md R301 to R312; 44_fence_system.md R274).
-/

namespace Sys2Proof.Machine

/-! ## Registers and the program counter -/

/-- R21: `x[0]` reads 0, every other register the value last written. -/
def State.readX (s : State) (r : RegIdx) : Word :=
  if r = 0#5 then 0 else s.x[r.toNat]'r.isLt

/-- R22: a write to `x[0]` stores nothing. -/
def State.writeX (s : State) (r : RegIdx) (v : Word) : State :=
  if r = 0#5 then s else { s with x := s.x.set r.toNat v r.isLt }

/-- R26: `pc <- t`. -/
def State.setPc (s : State) (t : Word) : State := { s with pc := t }

/-- R27, R29: `pc <- pc + 4`, modulo `2^32`. -/
def State.nextPc (s : State) : State := s.setPc (s.pc + 4)

/-- The end of an instruction that writes one x register: `x[rd] <- v`, `pc <- pc + 4`. -/
def State.retire (s : State) (rd : RegIdx) (v : Word) : State := (s.writeX rd v).nextPc

/-- R30: `f[i]`, as 64 bits; an entry of a 32-bit file is extended with zeros. -/
def FRegs.read : FRegs → RegIdx → BitVec 64
  | .f32 r, i => (r[i.toNat]'i.isLt).zeroExtend 64
  | .f64 r, i => r[i.toNat]'i.isLt

/-- R30, R31: `f[i] <- v` keeps the low `FLEN` bits of `v`; `f[0]` is an ordinary register. -/
def FRegs.write : FRegs → RegIdx → BitVec 64 → FRegs
  | .f32 r, i, v => .f32 (r.set i.toNat (v.truncate 32) i.isLt)
  | .f64 r, i, v => .f64 (r.set i.toNat v i.isLt)

/-- `FLEN` of a file (R30). -/
def FRegs.flen : FRegs → Flen
  | .f32 _ => .f32
  | .f64 _ => .f64

/-! ## The stored values of added CSR entries (R36, R52) -/

/-- The stored value of an added CSR entry. -/
def State.readAdded (s : State) (a : CsrAddr) : Word := (s.added.lookup a).getD 0

/-- Write the stored value of an added CSR entry. The addresses present are fixed at reset, so no entry is made here. -/
def State.writeAdded (s : State) (a : CsrAddr) (v : Word) : State :=
  { s with added := s.added.map fun e => if e.1 = a then (e.1, v) else e }

/-! ## Privilege modes -/

/-- R34: U = 0, S = 1, M = 3. -/
def Mode.number : Mode → BitVec 2
  | .user => 0
  | .supervisor => 1
  | .machine => 3

/-- R34: the mode of a number; 2 is not a mode. -/
def Mode.ofNumber? : BitVec 2 → Option Mode
  | 0#2 => some .user
  | 1#2 => some .supervisor
  | 3#2 => some .machine
  | _ => none

/-- R35: an access succeeds only when `current_mode >= required_mode`, by the numbers, unsigned. -/
def Mode.meets (current required : Mode) : Bool := required.number.ule current.number

/-! ## Memory and the bus -/

/-- The byte a memory holds at an address (R74's `B[pa]`). -/
def Memory.read : Memory → Nat → Byte
  | [], _ => Config.memFill
  | (k, b) :: rest, a => if k = a then b else Memory.read rest a

/-- Write one byte, keeping the canonical form: writing what an unlisted address reads as removes the entry. -/
def Memory.write : Memory → Nat → Byte → Memory
  | [], a, b => if b = Config.memFill then [] else [(a, b)]
  | (k, c) :: rest, a, b =>
    if a < k then
      if b = Config.memFill then (k, c) :: rest else (a, b) :: (k, c) :: rest
    else if a = k then
      if b = Config.memFill then rest else (a, b) :: rest
    else (k, c) :: Memory.write rest a b

/-- The canonical form: addresses strictly rising, and no entry equal to what an unlisted address reads as. -/
abbrev Memory.wf (m : Memory) : Prop :=
  m.Pairwise (fun c d => c.1 < d.1) ∧ ∀ c ∈ m, c.2 ≠ Config.memFill

/-- `BusRead(pa, 1)` (R74), `pa` of `PALEN` bits (R6, R60). -/
def Memory.read8 {palen : Nat} (m : Memory) (pa : BitVec palen) : BitVec 8 := m.read pa.toNat

/-- `BusRead(pa, 2)` (R74): the byte at the lowest address is the least significant. -/
def Memory.read16 {palen : Nat} (m : Memory) (pa : BitVec palen) : BitVec 16 := m.read (pa.toNat + 1) ++ m.read pa.toNat

/-- `BusRead(pa, 4)` (R74). -/
def Memory.read32 {palen : Nat} (m : Memory) (pa : BitVec palen) : BitVec 32 :=
  wordOfBytes (m.read pa.toNat) (m.read (pa.toNat + 1)) (m.read (pa.toNat + 2)) (m.read (pa.toNat + 3))

/-- `BusWrite(pa, 1, v)` (R74). -/
def Memory.write8 {palen : Nat} (m : Memory) (pa : BitVec palen) (v : BitVec 8) : Memory := m.write pa.toNat v

/-- `BusWrite(pa, 2, v)` (R74). -/
def Memory.write16 {palen : Nat} (m : Memory) (pa : BitVec palen) (v : BitVec 16) : Memory :=
  (m.write pa.toNat (v.extractLsb' 0 8)).write (pa.toNat + 1) (v.extractLsb' 8 8)

/-- `BusWrite(pa, 4, v)` (R74). -/
def Memory.write32 {palen : Nat} (m : Memory) (pa : BitVec palen) (v : BitVec 32) : Memory :=
  (((m.write pa.toNat (byteOf v 0)).write (pa.toNat + 1) (byteOf v 1)).write (pa.toNat + 2) (byteOf v 2)).write
    (pa.toNat + 3) (byteOf v 3)

/-- A byte address exists on the bus when some region of the host's map holds it. -/
def PhysMap.has (map : PhysMap) (a : Nat) : Bool := map.any fun r => r.base ≤ a && a < r.base + r.size

/-- `PhysValid(pa, n)`: bytes `pa .. pa+n-1` exist on the bus (R6, R109). -/
def State.physValid {palen : Nat} (s : State) (pa : BitVec palen) (n : Nat) : Bool :=
  (List.range n).all fun k => PhysMap.has s.physMap (pa.toNat + k)

/-! ## Traps -/

/-! The codes of R303. -/

/-- `InstrAddressMisaligned`. -/
abbrev ExceptionCause.instrAddressMisaligned : ExceptionCause := 0
/-- `InstrAccessFault`. -/
abbrev ExceptionCause.instrAccessFault : ExceptionCause := 1
/-- `IllegalInstruction`. -/
abbrev ExceptionCause.illegalInstruction : ExceptionCause := 2
/-- `Breakpoint`. -/
abbrev ExceptionCause.breakpoint : ExceptionCause := 3
/-- `LoadAddressMisaligned`. -/
abbrev ExceptionCause.loadAddressMisaligned : ExceptionCause := 4
/-- `LoadAccessFault`. -/
abbrev ExceptionCause.loadAccessFault : ExceptionCause := 5
/-- `StoreAddressMisaligned`. -/
abbrev ExceptionCause.storeAddressMisaligned : ExceptionCause := 6
/-- `StoreAccessFault`. -/
abbrev ExceptionCause.storeAccessFault : ExceptionCause := 7
/-- `EnvCallFromU`. -/
abbrev ExceptionCause.envCallFromU : ExceptionCause := 8
/-- `EnvCallFromS`. -/
abbrev ExceptionCause.envCallFromS : ExceptionCause := 9
/-- `EnvCallFromM`. -/
abbrev ExceptionCause.envCallFromM : ExceptionCause := 11
/-- `InstrPageFault`. -/
abbrev ExceptionCause.instrPageFault : ExceptionCause := 12
/-- `LoadPageFault`. -/
abbrev ExceptionCause.loadPageFault : ExceptionCause := 13
/-- `StorePageFault`. -/
abbrev ExceptionCause.storePageFault : ExceptionCause := 15

/-! The codes of R330. -/

/-- Machine software interrupt. -/
abbrev InterruptCause.machineSoftware : InterruptCause := 3
/-- Machine timer interrupt. -/
abbrev InterruptCause.machineTimer : InterruptCause := 7
/-- Machine external interrupt. -/
abbrev InterruptCause.machineExternal : InterruptCause := 11

/-- The tag of the union: `intr` of R310. -/
def Trap.isInterrupt : Trap → Bool
  | .exception _ _ => false
  | .interrupt _ _ => true

/-- The numeric cause of a trap (R301). -/
def Trap.code : Trap → BitVec 31
  | .exception c _ => c
  | .interrupt c _ => c

/-- R310, R47: `(intr << 31) | c`. -/
def Trap.causeWord (t : Trap) : Word := BitVec.ofBool t.isInterrupt ++ t.code

/-- R304: an absent trap-value is written to `mtval` as 0. -/
def Trap.valueWord : Trap → Word
  | .exception _ v => v.getD 0
  | .interrupt _ v => v.getD 0

/-- `Exception(IllegalInstruction, insn)`, the value being the whole word (R304). -/
def illegalInstruction (insn : Word) : Trap := .exception .illegalInstruction (some insn)

/-- R312: the trap vector. -/
def trapVector (mtvec : Word) (intr : Bool) (code : BitVec 31) : Word :=
  if mtvec.getLsbD 0 && intr then (mtvec &&& 0xFFFFFFFC) + 4 * code.zeroExtend 32 else mtvec &&& 0xFFFFFFFC

/-- R310: `mstatus` on trap entry: `MPIE <- MIE`, `MIE <- 0`, `MPP <- mode`. -/
def Mstatus.enterTrap (m : Mstatus) (mode : Mode) : Mstatus := { m with mpie := m.mie, mie := false, mpp := mode }

/-- `TakeTrap(t)` (R310) over the loaded CSRs, the one operation by which every exception and interrupt is taken. It enters
machine mode from every mode (R320). Over the entries of any bank it is `takeTrapRaw` (Csr.lean). -/
def takeTrap (t : Trap) (s : State) : State :=
  { s with
    csr :=
      { s.csr with
        mepc := s.pc &&& 0xFFFFFFFC
        mcause := t.causeWord
        mtval := t.valueWord
        mstatus := s.csr.mstatus.enterTrap s.mode }
    mode := .machine
    pc := trapVector s.csr.mtvec t.isInterrupt t.code }

/-- R274: `mstatus` on return: `MIE <- MPIE`, `MPIE <- 1`, `MPP <- U`, and `MPRV <- 0` when the new mode is not M. -/
def Mstatus.leaveTrap (m : Mstatus) : Mstatus :=
  { m with mie := m.mpie, mpie := true, mpp := .user, mprv := m.mprv && decide (m.mpp = .machine) }

/-- R274: the return from a trap over the loaded CSRs: `mode <- MPP`, `pc <- mepc`. Over the entries of any bank it is
`returnFromTrapRaw` (Csr.lean), which `MRET` runs. -/
def returnFromTrap (s : State) : State :=
  { s with
    csr := { s.csr with mstatus := s.csr.mstatus.leaveTrap }
    mode := s.csr.mstatus.mpp
    pc := s.csr.mepc }

/-- `halt(reason)` (R178). -/
def halt (reason : HaltReason) (s : State) : State := { s with runState := .halted, haltReason := some reason }

/-- The two catches of R170, given how a trap is taken: a trap is taken on the state before the instruction, which has
written nothing (R302), and an unrecoverable error halts (R178). That it halts in that same state, with none of the writes made
before the error, is the model's choice: R11 and R302 say so of a `raise` alone (DESIGN CHOICE, log entry 16). -/
def recover (trap : Trap → State → State) (s : State) : Raised → State
  | .trap t => trap t s
  | .fatal reason => halt reason s

/-- R170: the end of an instruction that ran in `s`. -/
def completeWith (trap : Trap → State → State) (s : State) : Result State → Host.Outcome State Fault Refusal
  | .ok t => .next t
  | .error r => .next (recover trap s r)

/-- The end of an instruction of the loaded configuration. -/
def complete (s : State) (r : Result State) : Host.Outcome State Fault Refusal := completeWith takeTrap s r

/-- R231: a control transfer to `t` raises `InstrAddressMisaligned` with the target as its value when `t[1:0]` is not 00;
otherwise `pc <- t` in `s`, the state with the transfer's other writes made. -/
def transfer (t : Word) (s : State) : Result State :=
  if t.extractLsb' 0 2 = 0#2 then .ok (s.setPc t) else .error (.trap (.exception .instrAddressMisaligned (some t)))

end Sys2Proof.Machine
end

