-- ==== Sys2Proof/Machine/Operands.lean ====
section
/-!
DEFINITION. The operand forms of the loaded configuration (30_encoding.md R133; 43_load_store.md R250): extended immediates,
effective addresses, shift amounts.
-/

namespace Sys2Proof.Machine

/-- `imm_I`, `imm_S`: 12 bits sign-extended to 32 (R133). -/
def signedImm (imm : BitVec 12) : Word := imm.signExtend 32

/-- `imm_B`: 13 bits sign-extended to 32 (R133). -/
def branchOffset (off : BitVec 13) : Word := off.signExtend 32

/-- `imm_J`: 21 bits sign-extended to 32 (R133). -/
def jumpOffset (off : BitVec 21) : Word := off.signExtend 32

/-- `imm_U`: `{insn[31:12], 12'b0}` (R133). -/
def upperImm (imm : BitVec 20) : Word := imm ++ 0#12

/-- `uimm`: 5 bits extended with zeros (R133). -/
def uimmWord (uimm : BitVec 5) : Word := uimm.zeroExtend 32

/-- R250 a: `ea = x[rs1] + imm`, modulo `2^32`. -/
def effectiveAddress (s : State) (rs1 : RegIdx) (imm : BitVec 12) : Word := s.readX rs1 + signedImm imm

/-- R214, R222 e: a register shift amount is `x[rs2][4:0]`. -/
def shiftAmount (v : Word) : BitVec 5 := v.extractLsb' 0 5

/-- R209: zeros enter at bit 0. -/
def shiftLeft (v : Word) (n : BitVec 5) : Word := v <<< n.toNat

/-- R210: zeros enter at bit 31. -/
def shiftRightLogical (v : Word) (n : BitVec 5) : Word := v >>> n.toNat

/-- R211: copies of bit 31 enter at bit 31. -/
def shiftRightArith (v : Word) (n : BitVec 5) : Word := v.sshiftRight n.toNat

end Sys2Proof.Machine
end

