-- ==== Sys2Proof/Machine/Flags.lean ====
section
/-!
DEFINITION. There is no flag register, condition code or predicate register (10_state.md R32), and arithmetic overflow sets
nothing. What other machines keep in flags is here the comparisons that the compare and branch instructions make of x
registers directly (41_integer_computational.md R204, R205, R215, R216; 42_control_transfer.md R234 to R239).
-/

namespace Sys2Proof.Machine

/-- `a <s b`: both read as two's complement (R9, R222 c). -/
def ltSigned (a b : Word) : Bool := a.slt b

/-- `a <u b`: both read as natural numbers (R9, R222 c). -/
def ltUnsigned (a b : Word) : Bool := a.ult b

/-- `cond ? 1 : 0` as a word (R204). -/
def boolWord (c : Bool) : Word := if c then 1 else 0

end Sys2Proof.Machine
end

