-- ==== Sys2Proof/Machine/Csr.lean ====
section
/-!
DEFINITION. The CSR bank (10_state.md R36 to R52): the entries of the loaded set, raw and checked access, and the one shape
of the Zicsr instructions (45_zicsr.md R287, R288).
-/

namespace Sys2Proof.Machine

/-- The loaded CSR set (R40). -/
inductive Csr where
  | satp
  | mstatus
  | mie
  | mtvec
  | mscratch
  | mepc
  | mcause
  | mtval
  | mip
deriving DecidableEq, Repr

/-- The entry at an address; an address with none is always illegal (R36, R40). -/
def Csr.ofAddr? : CsrAddr → Option Csr
  | 0x180#12 => some .satp
  | 0x300#12 => some .mstatus
  | 0x304#12 => some .mie
  | 0x305#12 => some .mtvec
  | 0x340#12 => some .mscratch
  | 0x341#12 => some .mepc
  | 0x342#12 => some .mcause
  | 0x343#12 => some .mtval
  | 0x344#12 => some .mip
  | _ => none

/-- The required mode an entry carries (R40). -/
def Csr.requiredMode : Csr → Mode
  | .satp => .supervisor
  | .mstatus => .machine
  | .mie => .machine
  | .mtvec => .machine
  | .mscratch => .machine
  | .mepc => .machine
  | .mcause => .machine
  | .mtval => .machine
  | .mip => .machine

/-- The write mask `WM` of an entry (R41 to R50). -/
def Csr.writeMask : Csr → Word
  | .satp => 0x803FFFFF
  | .mstatus => 0x000E1888
  | .mie => 0x00000888
  | .mtvec => 0xFFFFFFFD
  | .mscratch => 0xFFFFFFFF
  | .mepc => 0xFFFFFFFC
  | .mcause => 0xFFFFFFFF
  | .mtval => 0xFFFFFFFF
  | .mip => 0x00000000

/-- R41: `s <- (s & ~WM) | (v & WM)`. -/
def maskedWrite (mask s v : Word) : Word := (s &&& ~~~mask) ||| (v &&& mask)

/-- R42: `mstatus` as a word. -/
def Mstatus.toWord (m : Mstatus) : Word :=
  0#12 ++ BitVec.ofBool m.mxr ++ BitVec.ofBool m.sum ++ BitVec.ofBool m.mprv ++ 0#4 ++ m.mpp.number ++ 0#3
    ++ BitVec.ofBool m.mpie ++ 0#3 ++ BitVec.ofBool m.mie ++ 0#3

/-- R42: a write to `mstatus`; `MPP` keeps its old value when `v[12:11]` is 2, and the other fields are still written. -/
def Mstatus.write (m : Mstatus) (v : Word) : Mstatus where
  mie := v.getLsbD 3
  mpie := v.getLsbD 7
  mpp := (Mode.ofNumber? (v.extractLsb' 11 2)).getD m.mpp
  mprv := v.getLsbD 17
  sum := v.getLsbD 18
  mxr := v.getLsbD 19

/-- R50: `mip` mirrors the three inputs. -/
def IrqInputs.mip (q : IrqInputs) : Word :=
  0#20 ++ BitVec.ofBool q.meip ++ 0#3 ++ BitVec.ofBool q.mtip ++ 0#3 ++ BitVec.ofBool q.msip ++ 0#3

/-- `read()` of an entry: `csr.<name>` of R10, no check. -/
def State.readCsr (s : State) : Csr → Word
  | .satp => s.csr.satp
  | .mstatus => s.csr.mstatus.toWord
  | .mie => s.csr.mie
  | .mtvec => s.csr.mtvec
  | .mscratch => s.csr.mscratch
  | .mepc => s.csr.mepc
  | .mcause => s.csr.mcause
  | .mtval => s.csr.mtval
  | .mip => s.irq.mip

/-- `write(v)` of an entry on the bank (R41 to R50). -/
def CsrBank.write (b : CsrBank) : Csr → Word → CsrBank
  | .satp, v => { b with satp := maskedWrite Csr.satp.writeMask b.satp v }
  | .mstatus, v => { b with mstatus := b.mstatus.write v }
  | .mie, v => { b with mie := maskedWrite Csr.mie.writeMask b.mie v }
  | .mtvec, v => { b with mtvec := maskedWrite Csr.mtvec.writeMask b.mtvec v }
  | .mscratch, v => { b with mscratch := maskedWrite Csr.mscratch.writeMask b.mscratch v }
  | .mepc, v => { b with mepc := maskedWrite Csr.mepc.writeMask b.mepc v }
  | .mcause, v => { b with mcause := maskedWrite Csr.mcause.writeMask b.mcause v }
  | .mtval, v => { b with mtval := maskedWrite Csr.mtval.writeMask b.mtval v }
  | .mip, _ => b

/-- `write(v)` of an entry, no check. It changes the bank only (R41). -/
def State.writeCsr (s : State) (c : Csr) (v : Word) : State := { s with csr := s.csr.write c v }

/-! ## Entries and banks (R36) -/

/-- A CSR entry as a module registers it (R36, R52): "a 12-bit address; holds a minimum privilege level and a behavior pair
`(read(cpu) -> word, write(cpu, word))`", either of which may change other state, or raise (R338: "instruction/MMU/CSR code").
`reset` is the value R52 asks an added entry to give, held in `State.added`; the loaded entries have none, since R62 gives
their reset values. -/
structure CsrEntry where
  addr : CsrAddr
  required : Mode
  read : State → Result (Word × State)
  write : Word → State → Result State
  reset : Option Word

/-- A CSR bank: a sparse map from addresses to entries (R36). -/
abbrev CsrLookup := CsrAddr → Option CsrEntry

/-- The address of a loaded entry (R40). -/
def Csr.addr : Csr → CsrAddr
  | .satp => 0x180
  | .mstatus => 0x300
  | .mie => 0x304
  | .mtvec => 0x305
  | .mscratch => 0x340
  | .mepc => 0x341
  | .mcause => 0x342
  | .mtval => 0x343
  | .mip => 0x344

/-- A loaded entry as a module registers it. Neither access raises; reading changes nothing, writing the bank only (R41). -/
def Csr.entry (c : Csr) : CsrEntry where
  addr := c.addr
  required := c.requiredMode
  read := fun s => .ok (s.readCsr c, s)
  write := fun v s => .ok (s.writeCsr c v)
  reset := none

/-- An entry that is a plain register with a write mask (the form of R41), for a module that adds one (R52). -/
def CsrEntry.register (addr : CsrAddr) (required : Mode) (mask reset : Word) : CsrEntry where
  addr := addr
  required := required
  read := fun s => .ok (s.readAdded addr, s)
  write := fun v s => .ok (s.writeAdded addr (maskedWrite mask (s.readAdded addr) v))
  reset := some reset

/-- The bank of the loaded configuration (R40). -/
def loadedCsr : CsrLookup := fun a => (Csr.ofAddr? a).map Csr.entry

/-! ## The checked path (R37, R38) -/

/-- The legality test of the checked path: the entry is present and the mode suffices, or `IllegalInstruction` with the
instruction word. -/
def csrCheck (bank : CsrLookup) (insn : Word) (a : CsrAddr) (s : State) : Result CsrEntry :=
  match bank a with
  | none => .error (.trap (illegalInstruction insn))
  | some e => if s.mode.meets e.required then .ok e else .error (.trap (illegalInstruction insn))

/-- `CsrRead(a)` (R37): the value, and the state the entry's read leaves. -/
def checkedCsrRead (bank : CsrLookup) (insn : Word) (a : CsrAddr) (s : State) : Result (Word × State) := do
  let e ← csrCheck bank insn a s
  e.read s

/-- `CsrWrite(a, v)` (R38). -/
def checkedCsrWrite (bank : CsrLookup) (insn : Word) (a : CsrAddr) (v : Word) (s : State) : Result State := do
  let e ← csrCheck bank insn a s
  e.write v s

/-- `CSRRW`, `CSRRWI` (R281, R284, R287): the legality test is made once, before either access (R288); the read is made when
`rd` is not `x0`, the write always. -/
def csrSwap (bank : CsrLookup) (insn : Word) (rd : RegIdx) (a : CsrAddr) (v : Word) (s : State) : Result State := do
  let e ← csrCheck bank insn a s
  if rd = 0#5 then
    let u ← e.write v s
    return u.nextPc
  else
    let (old, u) ← e.read s
    let u' ← e.write v u
    return u'.retire rd old

/-- `CSRRS`, `CSRRC` and their immediate forms (R282, R283, R285, R286, R287): the legality test once (R288), the read always,
the write of `update old` only when `writes`. -/
def csrUpdate (bank : CsrLookup) (insn : Word) (rd : RegIdx) (a : CsrAddr) (writes : Bool) (update : Word → Word)
    (s : State) : Result State := do
  let e ← csrCheck bank insn a s
  let (old, u) ← e.read s
  if writes then
    let u' ← e.write (update old) u
    return u'.retire rd old
  else
    return u.retire rd old

/-! ## The raw path (R39), and the trap path by it (R318)

`takeTrap` and `returnFromTrap` (Ops.lean) are what these do over the loaded entries. The order in which the side effects of an
entry's own accesses fall is the model's where the spec gives none (DESIGN CHOICE, log entry 15). -/

/-- `CsrReadRaw(a)` (R39): no mode check; an address with no entry is a contract violation. -/
def csrReadRaw (bank : CsrLookup) (a : CsrAddr) (s : State) : Result (Word × State) :=
  match bank a with
  | none => .error (.fatal .contractViolation)
  | some e => e.read s

/-- `CsrWriteRaw(a, v)` (R39): no mode check; the entry's own mask still applies. -/
def csrWriteRaw (bank : CsrLookup) (a : CsrAddr) (v : Word) (s : State) : Result State :=
  match bank a with
  | none => .error (.fatal .contractViolation)
  | some e => e.write v s

/-- R310's changes to `mstatus` as a word: `MPIE <- MIE`, `MIE <- 0`, `MPP <- mode`, every other bit kept. -/
def mstatusEnterTrap (w : Word) (mode : Mode) : Word :=
  w.extractLsb' 13 19 ++ mode.number ++ w.extractLsb' 8 3 ++ w.extractLsb' 3 1 ++ w.extractLsb' 4 3 ++ 0#1 ++ w.extractLsb' 0 3

/-- R274's changes to `mstatus` as a word: `MIE <- MPIE`, `MPIE <- 1`, `MPP <- 0`, `MPRV <- 0` unless the new mode is M, every
other bit kept. -/
def mstatusLeaveTrap (w : Word) (new : Mode) : Word :=
  w.extractLsb' 18 14 ++ (if new = .machine then w.extractLsb' 17 1 else 0#1) ++ w.extractLsb' 13 4 ++ 0#2 ++ w.extractLsb' 8 3
    ++ 1#1 ++ w.extractLsb' 4 3 ++ w.extractLsb' 7 1 ++ w.extractLsb' 0 3

/-- `TakeTrap(t)` (R310) over any bank: "All right-hand sides use the state before the step", then the writes, in the order of
R310. (That `mstatus` is read before `mtvec`: DESIGN CHOICE, log entry 15.) -/
def takeTrapRaw (bank : CsrLookup) (t : Trap) (s : State) : Result State := do
  let (status, u) ← csrReadRaw bank Csr.mstatus.addr s
  let (vector, u) ← csrReadRaw bank Csr.mtvec.addr u
  let u ← csrWriteRaw bank Csr.mepc.addr (s.pc &&& 0xFFFFFFFC) u
  let u ← csrWriteRaw bank Csr.mcause.addr t.causeWord u
  let u ← csrWriteRaw bank Csr.mtval.addr t.valueWord u
  let u ← csrWriteRaw bank Csr.mstatus.addr (mstatusEnterTrap status s.mode) u
  return { u with mode := .machine, pc := trapVector vector t.isInterrupt t.code }

/-- The return from a trap (R274) over any bank. An `mstatus` that reads the number 2 as `MPP`, which is no mode (R34), leaves
nothing to return to and is unrecoverable (DESIGN CHOICE, log entry 15); the loaded entry never does (R42). -/
def returnFromTrapRaw (bank : CsrLookup) (s : State) : Result State := do
  let (status, u) ← csrReadRaw bank Csr.mstatus.addr s
  match Mode.ofNumber? (status.extractLsb' 11 2) with
  | none => .error (.fatal .unrecoverableFault)
  | some new =>
    let u ← csrWriteRaw bank Csr.mstatus.addr (mstatusLeaveTrap status new) u
    let (target, u) ← csrReadRaw bank Csr.mepc.addr { u with mode := new }
    return u.setPc target

end Sys2Proof.Machine
end

