-- ==== Sys2Proof/Machine/Mmu.lean ====
section
/-!
DEFINITION. The MMU and the checked memory path (20_memory.md R70 to R110): Bare and Sv32 translation, alignment, checked
loads, stores and fetch.
-/

namespace Sys2Proof.Machine

/-- R70: the three access intents. -/
inductive Intent where
  | fetch
  | load
  | store
deriving DecidableEq, Repr

/-- The shape of `Translate(va, intent, n)` (R85): a parameter of the model, with `PALEN` the width of what it answers. A
function of the state that answers no state writes none. Its contract is `KeepsContract` (Safety.lean). -/
abbrev Translator (palen : Nat) := State → Word → Intent → Nat → Result (BitVec palen)

/-- R71: the widths of an access. -/
inductive Width where
  | byte
  | half
  | word
deriving DecidableEq, Repr

/-- R71: the number of bytes an access moves. -/
def Width.bytes : Width → Nat
  | .byte => 1
  | .half => 2
  | .word => 4

/-- R86: the page fault of an intent; its value is the virtual address given to `Translate`. -/
def pageFault (intent : Intent) (va : Word) : Trap :=
  match intent with
  | .fetch => .exception .instrPageFault (some va)
  | .load => .exception .loadPageFault (some va)
  | .store => .exception .storePageFault (some va)

/-- R86: the access fault of an intent. -/
def accessFault (intent : Intent) (va : Word) : Trap :=
  match intent with
  | .fetch => .exception .instrAccessFault (some va)
  | .load => .exception .loadAccessFault (some va)
  | .store => .exception .storeAccessFault (some va)

/-- R78, R79, R81: the misaligned exception of a data access. (A fetch has none: R80.) -/
def misaligned (intent : Intent) (va : Word) : Trap :=
  match intent with
  | .store => .exception .storeAddressMisaligned (some va)
  | _ => .exception .loadAddressMisaligned (some va)

/-- R88: `MPRV` makes loads and stores of machine mode translate as if in mode `MPP`; it never applies to fetch. -/
def effMode (s : State) (intent : Intent) : Mode :=
  if intent ≠ .fetch ∧ s.mode = .machine ∧ s.csr.mstatus.mprv = true then s.csr.mstatus.mpp else s.mode

/-- R88: translation is on below M when `satp.MODE` = 1. -/
def translationOn (s : State) (intent : Intent) : Bool :=
  decide (effMode s intent ≠ .machine) && s.csr.satp.getLsbD 31

/-! ## Page-table entries (R92) -/

/-- Bit 0. -/
def pteV (pte : Word) : Bool := pte.getLsbD 0
/-- Bit 1. -/
def pteR (pte : Word) : Bool := pte.getLsbD 1
/-- Bit 2. -/
def pteW (pte : Word) : Bool := pte.getLsbD 2
/-- Bit 3. -/
def pteX (pte : Word) : Bool := pte.getLsbD 3
/-- Bit 4. -/
def pteU (pte : Word) : Bool := pte.getLsbD 4
/-- Bit 6. -/
def pteA (pte : Word) : Bool := pte.getLsbD 6
/-- Bit 7. -/
def pteD (pte : Word) : Bool := pte.getLsbD 7
/-- Bits 31:10, `{PPN[1], PPN[0]}`. -/
def ptePpn (pte : Word) : BitVec 22 := pte.extractLsb' 10 22
/-- Bits 31:20, `PPN[1]`. -/
def ptePpn1 (pte : Word) : BitVec 12 := pte.extractLsb' 20 12
/-- Bits 19:10, `PPN[0]`. -/
def ptePpn0 (pte : Word) : BitVec 10 := pte.extractLsb' 10 10

/-- R104: whether a data access of mode `m` may touch a page by its U bit. -/
def userBitAllows (s : State) (pte : Word) (m : Mode) : Bool :=
  if m = .user then pteU pte else !pteU pte || s.csr.mstatus.sum

/-- R104: `Permitted(pte, intent, m)`. -/
def permitted (s : State) (pte : Word) (intent : Intent) (m : Mode) : Bool :=
  match intent with
  | .fetch => pteX pte && (if m = .user then pteU pte else !pteU pte)
  | .load => (pteR pte || (s.csr.mstatus.mxr && pteX pte)) && userBitAllows s pte m
  | .store => pteW pte && userBitAllows s pte m

/-- R91: `VPN[level]` of a virtual address, level 1 or 0. -/
def vpn (va : Word) (level : Nat) : BitVec 10 := va.extractLsb' (12 + 10 * level) 10

/-- R97: the address of the entry a walk reads in the table at `table`. -/
def pteAddress (table : PAddr) (va : Word) (level : Nat) : PAddr := table + (vpn va level).zeroExtend 34 * 4

/-- R97: the address of a page, from its page number. -/
def pageAddress (ppn : BitVec 22) : PAddr := ppn.zeroExtend 34 * 4096

/-- R97's `leaf`: permission, superpage alignment, A and D tests, then the physical address. All failures are the page
fault of the intent. -/
def leafAddress (s : State) (intent : Intent) (va : Word) (level : Nat) (pte : Word) : Result PAddr :=
  if !permitted s pte intent (effMode s intent) then .error (.trap (pageFault intent va))
  else if level = 1 ∧ ptePpn0 pte ≠ 0#10 then .error (.trap (pageFault intent va))
  else if !pteA pte then .error (.trap (pageFault intent va))
  else if intent = .store ∧ pteD pte = false then .error (.trap (pageFault intent va))
  else if level = 1 then .ok (ptePpn1 pte ++ va.extractLsb' 12 10 ++ va.extractLsb' 0 12)
  else .ok (ptePpn pte ++ va.extractLsb' 0 12)

/-- R97's loop, from level 1 down: one table entry is read per level, after its address is tested. -/
def walk (s : State) (intent : Intent) (va : Word) (level : Nat) (table : PAddr) : Result PAddr :=
  if !s.physValid (pteAddress table va level) 4 then .error (.trap (accessFault intent va))
  else
    let pte := s.mem.read32 (pteAddress table va level)
    if !pteV pte || (!pteR pte && pteW pte) then .error (.trap (pageFault intent va))
    else if pteR pte || pteX pte then leafAddress s intent va level pte
    else
      match level with
      | 0 => .error (.trap (pageFault intent va))
      | below + 1 => walk s intent va below (pageAddress (ptePpn pte))

/-- R97: `Sv32(va, intent)`, rooted at `satp.PPN`. -/
def sv32 (s : State) (intent : Intent) (va : Word) : Result PAddr :=
  walk s intent va 1 (pageAddress (s.csr.satp.extractLsb' 0 22))

/-- R108: `Translate(va, intent, n)` of the loaded configuration, `PALEN` = 34. It reads state and writes none (R85). -/
def mmuTranslate (s : State) (va : Word) (intent : Intent) (n : Nat) : Result PAddr :=
  match if translationOn s intent then sv32 s intent va else .ok (va.zeroExtend 34) with
  | .error r => .error r
  | .ok pa => if s.physValid pa n then .ok pa else .error (.trap (accessFault intent va))

/-- R42: the fields of an `mstatus` word; none where its `MPP` is 2, which is no mode (R34). -/
def Mstatus.ofWord? (w : Word) : Option Mstatus :=
  (Mode.ofNumber? (w.extractLsb' 11 2)).map fun mpp =>
    { mie := w.getLsbD 3, mpie := w.getLsbD 7, mpp := mpp, mprv := w.getLsbD 17, sum := w.getLsbD 18, mxr := w.getLsbD 19 }

/-- `Translate` of R108 over the entries of any bank: `satp` and `mstatus`, the MMU's whole state beside `mode` (R57), are read
by the raw path (R318), and what those reads change is dropped, since `Translate` writes no state (R85). Over the loaded bank it
is `mmuTranslate`. (Both are read on every access, and `MPP` = 2 is unrecoverable: DESIGN CHOICE, log entry 15.) -/
def mmuVia (bank : CsrLookup) : Translator 34 := fun s va intent n => do
  let (satp, _) ← csrReadRaw bank Csr.satp.addr s
  let (status, _) ← csrReadRaw bank Csr.mstatus.addr s
  match Mstatus.ofWord? status with
  | none => .error (.fatal .unrecoverableFault)
  | some m => mmuTranslate { s with csr := { s.csr with satp := satp, mstatus := m } } va intent n

/-- R78, R79, R259: the physical address of a data access: the alignment test first, then translation. -/
def dataAddress {palen : Nat} (tr : Translator palen) (s : State) (va : Word) (intent : Intent) (w : Width) :
    Result (BitVec palen) :=
  if va.toNat % w.bytes ≠ 0 then .error (.trap (misaligned intent va)) else tr s va intent w.bytes

/-- `MemRead(va, 1)` (R78). -/
def memRead8 {palen : Nat} (tr : Translator palen) (s : State) (va : Word) : Result (BitVec 8) :=
  (dataAddress tr s va .load .byte).map s.mem.read8

/-- `MemRead(va, 2)` (R78). -/
def memRead16 {palen : Nat} (tr : Translator palen) (s : State) (va : Word) : Result (BitVec 16) :=
  (dataAddress tr s va .load .half).map s.mem.read16

/-- `MemRead(va, 4)` (R78). -/
def memRead32 {palen : Nat} (tr : Translator palen) (s : State) (va : Word) : Result (BitVec 32) :=
  (dataAddress tr s va .load .word).map s.mem.read32

/-- `MemWrite(va, 1, v)` (R79). -/
def memWrite8 {palen : Nat} (tr : Translator palen) (s : State) (va : Word) (v : BitVec 8) : Result State :=
  (dataAddress tr s va .store .byte).map fun pa => { s with mem := s.mem.write8 pa v }

/-- `MemWrite(va, 2, v)` (R79). -/
def memWrite16 {palen : Nat} (tr : Translator palen) (s : State) (va : Word) (v : BitVec 16) : Result State :=
  (dataAddress tr s va .store .half).map fun pa => { s with mem := s.mem.write16 pa v }

/-- `MemWrite(va, 4, v)` (R79). -/
def memWrite32 {palen : Nat} (tr : Translator palen) (s : State) (va : Word) (v : BitVec 32) : Result State :=
  (dataAddress tr s va .store .word).map fun pa => { s with mem := s.mem.write32 pa v }

/-- `Fetch(pc)` (R80): no alignment test, since `pc[1:0] = 0` always (R28). -/
def fetchVia {palen : Nat} (tr : Translator palen) (s : State) : Result Word :=
  (tr s s.pc .fetch 4).map s.mem.read32

/-- `Fetch(pc)` of the loaded configuration. -/
def fetch (s : State) : Result Word := fetchVia mmuTranslate s

end Sys2Proof.Machine
end

