-- ==== Sys2Proof/Machine/Integer.lean ====
section
/-!
DEFINITION. The integer computational instructions (41_integer_computational.md). None traps, none touches memory or a CSR;
each writes `x[rd]` and advances `pc` (R200).
-/

namespace Sys2Proof.Machine

/-- R201. `x[rd] <- imm_U`. -/
def behaveLui (rd : RegIdx) (imm : BitVec 20) (s : State) : Result State :=
  .ok (s.retire rd (upperImm imm))

@[inherit_doc behaveLui]
def execLui (rd : RegIdx) (imm : BitVec 20) (s : State) : Host.Outcome State Fault Refusal :=
  complete s (behaveLui rd imm s)

/-- R202. `x[rd] <- pc + imm_U`, `pc` of this instruction. -/
def behaveAuipc (rd : RegIdx) (imm : BitVec 20) (s : State) : Result State :=
  .ok (s.retire rd (s.pc + upperImm imm))

@[inherit_doc behaveAuipc]
def execAuipc (rd : RegIdx) (imm : BitVec 20) (s : State) : Host.Outcome State Fault Refusal :=
  complete s (behaveAuipc rd imm s)

/-- R203. Modulo `2^32`; overflow is ignored. -/
def behaveAddi (rd rs1 : RegIdx) (imm : BitVec 12) (s : State) : Result State :=
  .ok (s.retire rd (s.readX rs1 + signedImm imm))

@[inherit_doc behaveAddi]
def execAddi (rd rs1 : RegIdx) (imm : BitVec 12) (s : State) : Host.Outcome State Fault Refusal :=
  complete s (behaveAddi rd rs1 imm s)

/-- R204. Signed. -/
def behaveSlti (rd rs1 : RegIdx) (imm : BitVec 12) (s : State) : Result State :=
  .ok (s.retire rd (boolWord (ltSigned (s.readX rs1) (signedImm imm))))

@[inherit_doc behaveSlti]
def execSlti (rd rs1 : RegIdx) (imm : BitVec 12) (s : State) : Host.Outcome State Fault Refusal :=
  complete s (behaveSlti rd rs1 imm s)

/-- R205. The immediate is sign-extended first, then compared as unsigned. -/
def behaveSltiu (rd rs1 : RegIdx) (imm : BitVec 12) (s : State) : Result State :=
  .ok (s.retire rd (boolWord (ltUnsigned (s.readX rs1) (signedImm imm))))

@[inherit_doc behaveSltiu]
def execSltiu (rd rs1 : RegIdx) (imm : BitVec 12) (s : State) : Host.Outcome State Fault Refusal :=
  complete s (behaveSltiu rd rs1 imm s)

/-- R206. Exclusive or. -/
def behaveXori (rd rs1 : RegIdx) (imm : BitVec 12) (s : State) : Result State :=
  .ok (s.retire rd (s.readX rs1 ^^^ signedImm imm))

@[inherit_doc behaveXori]
def execXori (rd rs1 : RegIdx) (imm : BitVec 12) (s : State) : Host.Outcome State Fault Refusal :=
  complete s (behaveXori rd rs1 imm s)

/-- R207. Or. -/
def behaveOri (rd rs1 : RegIdx) (imm : BitVec 12) (s : State) : Result State :=
  .ok (s.retire rd (s.readX rs1 ||| signedImm imm))

@[inherit_doc behaveOri]
def execOri (rd rs1 : RegIdx) (imm : BitVec 12) (s : State) : Host.Outcome State Fault Refusal :=
  complete s (behaveOri rd rs1 imm s)

/-- R208. And. -/
def behaveAndi (rd rs1 : RegIdx) (imm : BitVec 12) (s : State) : Result State :=
  .ok (s.retire rd (s.readX rs1 &&& signedImm imm))

@[inherit_doc behaveAndi]
def execAndi (rd rs1 : RegIdx) (imm : BitVec 12) (s : State) : Host.Outcome State Fault Refusal :=
  complete s (behaveAndi rd rs1 imm s)

/-- R209. Shift left logical. -/
def behaveSlli (rd rs1 : RegIdx) (shamt : BitVec 5) (s : State) : Result State :=
  .ok (s.retire rd (shiftLeft (s.readX rs1) shamt))

@[inherit_doc behaveSlli]
def execSlli (rd rs1 : RegIdx) (shamt : BitVec 5) (s : State) : Host.Outcome State Fault Refusal :=
  complete s (behaveSlli rd rs1 shamt s)

/-- R210. Shift right logical. -/
def behaveSrli (rd rs1 : RegIdx) (shamt : BitVec 5) (s : State) : Result State :=
  .ok (s.retire rd (shiftRightLogical (s.readX rs1) shamt))

@[inherit_doc behaveSrli]
def execSrli (rd rs1 : RegIdx) (shamt : BitVec 5) (s : State) : Host.Outcome State Fault Refusal :=
  complete s (behaveSrli rd rs1 shamt s)

/-- R211. Shift right arithmetic. -/
def behaveSrai (rd rs1 : RegIdx) (shamt : BitVec 5) (s : State) : Result State :=
  .ok (s.retire rd (shiftRightArith (s.readX rs1) shamt))

@[inherit_doc behaveSrai]
def execSrai (rd rs1 : RegIdx) (shamt : BitVec 5) (s : State) : Host.Outcome State Fault Refusal :=
  complete s (behaveSrai rd rs1 shamt s)

/-- R212. Modulo `2^32`. -/
def behaveAdd (rd rs1 rs2 : RegIdx) (s : State) : Result State :=
  .ok (s.retire rd (s.readX rs1 + s.readX rs2))

@[inherit_doc behaveAdd]
def execAdd (rd rs1 rs2 : RegIdx) (s : State) : Host.Outcome State Fault Refusal :=
  complete s (behaveAdd rd rs1 rs2 s)

/-- R213. Modulo `2^32`. -/
def behaveSub (rd rs1 rs2 : RegIdx) (s : State) : Result State :=
  .ok (s.retire rd (s.readX rs1 - s.readX rs2))

@[inherit_doc behaveSub]
def execSub (rd rs1 rs2 : RegIdx) (s : State) : Host.Outcome State Fault Refusal :=
  complete s (behaveSub rd rs1 rs2 s)

/-- R214. Only the low 5 bits of `x[rs2]` count. -/
def behaveSll (rd rs1 rs2 : RegIdx) (s : State) : Result State :=
  .ok (s.retire rd (shiftLeft (s.readX rs1) (shiftAmount (s.readX rs2))))

@[inherit_doc behaveSll]
def execSll (rd rs1 rs2 : RegIdx) (s : State) : Host.Outcome State Fault Refusal :=
  complete s (behaveSll rd rs1 rs2 s)

/-- R215. Signed. -/
def behaveSlt (rd rs1 rs2 : RegIdx) (s : State) : Result State :=
  .ok (s.retire rd (boolWord (ltSigned (s.readX rs1) (s.readX rs2))))

@[inherit_doc behaveSlt]
def execSlt (rd rs1 rs2 : RegIdx) (s : State) : Host.Outcome State Fault Refusal :=
  complete s (behaveSlt rd rs1 rs2 s)

/-- R216. Unsigned. -/
def behaveSltu (rd rs1 rs2 : RegIdx) (s : State) : Result State :=
  .ok (s.retire rd (boolWord (ltUnsigned (s.readX rs1) (s.readX rs2))))

@[inherit_doc behaveSltu]
def execSltu (rd rs1 rs2 : RegIdx) (s : State) : Host.Outcome State Fault Refusal :=
  complete s (behaveSltu rd rs1 rs2 s)

/-- R217. Exclusive or. -/
def behaveXor (rd rs1 rs2 : RegIdx) (s : State) : Result State :=
  .ok (s.retire rd (s.readX rs1 ^^^ s.readX rs2))

@[inherit_doc behaveXor]
def execXor (rd rs1 rs2 : RegIdx) (s : State) : Host.Outcome State Fault Refusal :=
  complete s (behaveXor rd rs1 rs2 s)

/-- R218. Only the low 5 bits of `x[rs2]` count. -/
def behaveSrl (rd rs1 rs2 : RegIdx) (s : State) : Result State :=
  .ok (s.retire rd (shiftRightLogical (s.readX rs1) (shiftAmount (s.readX rs2))))

@[inherit_doc behaveSrl]
def execSrl (rd rs1 rs2 : RegIdx) (s : State) : Host.Outcome State Fault Refusal :=
  complete s (behaveSrl rd rs1 rs2 s)

/-- R219. Only the low 5 bits of `x[rs2]` count. -/
def behaveSra (rd rs1 rs2 : RegIdx) (s : State) : Result State :=
  .ok (s.retire rd (shiftRightArith (s.readX rs1) (shiftAmount (s.readX rs2))))

@[inherit_doc behaveSra]
def execSra (rd rs1 rs2 : RegIdx) (s : State) : Host.Outcome State Fault Refusal :=
  complete s (behaveSra rd rs1 rs2 s)

/-- R220. Or. -/
def behaveOr (rd rs1 rs2 : RegIdx) (s : State) : Result State :=
  .ok (s.retire rd (s.readX rs1 ||| s.readX rs2))

@[inherit_doc behaveOr]
def execOr (rd rs1 rs2 : RegIdx) (s : State) : Host.Outcome State Fault Refusal :=
  complete s (behaveOr rd rs1 rs2 s)

/-- R221. And. -/
def behaveAnd (rd rs1 rs2 : RegIdx) (s : State) : Result State :=
  .ok (s.retire rd (s.readX rs1 &&& s.readX rs2))

@[inherit_doc behaveAnd]
def execAnd (rd rs1 rs2 : RegIdx) (s : State) : Host.Outcome State Fault Refusal :=
  complete s (behaveAnd rd rs1 rs2 s)

end Sys2Proof.Machine
end

