-- ==== Sys2Proof/Machine/ControlTransfer.lean ====
section
/-!
DEFINITION. The control-transfer instructions (42_control_transfer.md). A target with `t[1:0]` not 00 raises on the transfer and
writes nothing, not even the link (R231).
-/

namespace Sys2Proof.Machine

/-- R232. Jump to `pc + imm_J` and link. -/
def behaveJal (rd : RegIdx) (off : BitVec 21) (s : State) : Result State :=
  transfer (s.pc + jumpOffset off) (s.writeX rd (s.pc + 4))

@[inherit_doc behaveJal]
def execJal (rd : RegIdx) (off : BitVec 21) (s : State) : Host.Outcome State Fault Refusal :=
  complete s (behaveJal rd off s)

/-- R233. Jump to `(x[rs1] + imm_I) & 0xFFFFFFFE` and link; the target uses the old `x[rs1]`. -/
def behaveJalr (rd rs1 : RegIdx) (imm : BitVec 12) (s : State) : Result State :=
  transfer ((s.readX rs1 + signedImm imm) &&& 0xFFFFFFFE) (s.writeX rd (s.pc + 4))

@[inherit_doc behaveJalr]
def execJalr (rd rs1 : RegIdx) (imm : BitVec 12) (s : State) : Host.Outcome State Fault Refusal :=
  complete s (behaveJalr rd rs1 imm s)

/-- 42_control_transfer.md section 2: the common shape of the conditional branches. A branch not taken never raises. -/
def branch (cond : Word → Word → Bool) (rs1 rs2 : RegIdx) (off : BitVec 13) (s : State) : Result State :=
  if cond (s.readX rs1) (s.readX rs2) then transfer (s.pc + branchOffset off) s else .ok s.nextPc

/-- R234. Equal. -/
def behaveBeq (rs1 rs2 : RegIdx) (off : BitVec 13) (s : State) : Result State :=
  branch (fun a b => a == b) rs1 rs2 off s

@[inherit_doc behaveBeq]
def execBeq (rs1 rs2 : RegIdx) (off : BitVec 13) (s : State) : Host.Outcome State Fault Refusal :=
  complete s (behaveBeq rs1 rs2 off s)

/-- R235. Not equal. -/
def behaveBne (rs1 rs2 : RegIdx) (off : BitVec 13) (s : State) : Result State :=
  branch (fun a b => a != b) rs1 rs2 off s

@[inherit_doc behaveBne]
def execBne (rs1 rs2 : RegIdx) (off : BitVec 13) (s : State) : Host.Outcome State Fault Refusal :=
  complete s (behaveBne rs1 rs2 off s)

/-- R236. Signed less than. -/
def behaveBlt (rs1 rs2 : RegIdx) (off : BitVec 13) (s : State) : Result State :=
  branch ltSigned rs1 rs2 off s

@[inherit_doc behaveBlt]
def execBlt (rs1 rs2 : RegIdx) (off : BitVec 13) (s : State) : Host.Outcome State Fault Refusal :=
  complete s (behaveBlt rs1 rs2 off s)

/-- R237. Signed greater or equal: not `BLT`'s condition. -/
def behaveBge (rs1 rs2 : RegIdx) (off : BitVec 13) (s : State) : Result State :=
  branch (fun a b => !ltSigned a b) rs1 rs2 off s

@[inherit_doc behaveBge]
def execBge (rs1 rs2 : RegIdx) (off : BitVec 13) (s : State) : Host.Outcome State Fault Refusal :=
  complete s (behaveBge rs1 rs2 off s)

/-- R238. Unsigned less than. -/
def behaveBltu (rs1 rs2 : RegIdx) (off : BitVec 13) (s : State) : Result State :=
  branch ltUnsigned rs1 rs2 off s

@[inherit_doc behaveBltu]
def execBltu (rs1 rs2 : RegIdx) (off : BitVec 13) (s : State) : Host.Outcome State Fault Refusal :=
  complete s (behaveBltu rs1 rs2 off s)

/-- R239. Unsigned greater or equal. -/
def behaveBgeu (rs1 rs2 : RegIdx) (off : BitVec 13) (s : State) : Result State :=
  branch (fun a b => !ltUnsigned a b) rs1 rs2 off s

@[inherit_doc behaveBgeu]
def execBgeu (rs1 rs2 : RegIdx) (off : BitVec 13) (s : State) : Host.Outcome State Fault Refusal :=
  complete s (behaveBgeu rs1 rs2 off s)

end Sys2Proof.Machine
end

