-- ==== Sys2Proof/Machine/LoadStore.lean ====
section
/-!
DEFINITION. The load and store instructions (43_load_store.md): effective address, checked access, and the exceptions of R259 in
their order. A load with `rd = x0` still makes the access (R260).
-/

namespace Sys2Proof.Machine

/-- R250: the end of a load: the value read goes to `x[rd]` and `pc` advances, or the exception is taken. -/
def loadInto (rd : RegIdx) (value : Result Word) (s : State) : Result State :=
  value.map (s.retire rd)

/-- R250: the end of a store: `pc` advances in the state the write left, or the exception is taken. -/
def storeDone (written : Result State) : Result State :=
  written.map State.nextPc

/-- R251. Byte, sign-extended. -/
def behaveLb {palen : Nat} (tr : Translator palen) (rd rs1 : RegIdx) (imm : BitVec 12) (s : State) : Result State :=
  loadInto rd ((memRead8 tr s (effectiveAddress s rs1 imm)).map (BitVec.signExtend 32)) s

@[inherit_doc behaveLb]
def execLb (rd rs1 : RegIdx) (imm : BitVec 12) (s : State) : Host.Outcome State Fault Refusal :=
  complete s (behaveLb mmuTranslate rd rs1 imm s)

/-- R252. Halfword, sign-extended. -/
def behaveLh {palen : Nat} (tr : Translator palen) (rd rs1 : RegIdx) (imm : BitVec 12) (s : State) : Result State :=
  loadInto rd ((memRead16 tr s (effectiveAddress s rs1 imm)).map (BitVec.signExtend 32)) s

@[inherit_doc behaveLh]
def execLh (rd rs1 : RegIdx) (imm : BitVec 12) (s : State) : Host.Outcome State Fault Refusal :=
  complete s (behaveLh mmuTranslate rd rs1 imm s)

/-- R253. Word. -/
def behaveLw {palen : Nat} (tr : Translator palen) (rd rs1 : RegIdx) (imm : BitVec 12) (s : State) : Result State :=
  loadInto rd (memRead32 tr s (effectiveAddress s rs1 imm)) s

@[inherit_doc behaveLw]
def execLw (rd rs1 : RegIdx) (imm : BitVec 12) (s : State) : Host.Outcome State Fault Refusal :=
  complete s (behaveLw mmuTranslate rd rs1 imm s)

/-- R254. Byte, zero-extended. -/
def behaveLbu {palen : Nat} (tr : Translator palen) (rd rs1 : RegIdx) (imm : BitVec 12) (s : State) : Result State :=
  loadInto rd ((memRead8 tr s (effectiveAddress s rs1 imm)).map (BitVec.zeroExtend 32)) s

@[inherit_doc behaveLbu]
def execLbu (rd rs1 : RegIdx) (imm : BitVec 12) (s : State) : Host.Outcome State Fault Refusal :=
  complete s (behaveLbu mmuTranslate rd rs1 imm s)

/-- R255. Halfword, zero-extended. -/
def behaveLhu {palen : Nat} (tr : Translator palen) (rd rs1 : RegIdx) (imm : BitVec 12) (s : State) : Result State :=
  loadInto rd ((memRead16 tr s (effectiveAddress s rs1 imm)).map (BitVec.zeroExtend 32)) s

@[inherit_doc behaveLhu]
def execLhu (rd rs1 : RegIdx) (imm : BitVec 12) (s : State) : Host.Outcome State Fault Refusal :=
  complete s (behaveLhu mmuTranslate rd rs1 imm s)

/-- R256. The low byte of `x[rs2]`. -/
def behaveSb {palen : Nat} (tr : Translator palen) (rs1 rs2 : RegIdx) (imm : BitVec 12) (s : State) : Result State :=
  storeDone (memWrite8 tr s (effectiveAddress s rs1 imm) ((s.readX rs2).extractLsb' 0 8))

@[inherit_doc behaveSb]
def execSb (rs1 rs2 : RegIdx) (imm : BitVec 12) (s : State) : Host.Outcome State Fault Refusal :=
  complete s (behaveSb mmuTranslate rs1 rs2 imm s)

/-- R257. The low halfword of `x[rs2]`. -/
def behaveSh {palen : Nat} (tr : Translator palen) (rs1 rs2 : RegIdx) (imm : BitVec 12) (s : State) : Result State :=
  storeDone (memWrite16 tr s (effectiveAddress s rs1 imm) ((s.readX rs2).extractLsb' 0 16))

@[inherit_doc behaveSh]
def execSh (rs1 rs2 : RegIdx) (imm : BitVec 12) (s : State) : Host.Outcome State Fault Refusal :=
  complete s (behaveSh mmuTranslate rs1 rs2 imm s)

/-- R258. The word `x[rs2]`. -/
def behaveSw {palen : Nat} (tr : Translator palen) (rs1 rs2 : RegIdx) (imm : BitVec 12) (s : State) : Result State :=
  storeDone (memWrite32 tr s (effectiveAddress s rs1 imm) (s.readX rs2))

@[inherit_doc behaveSw]
def execSw (rs1 rs2 : RegIdx) (imm : BitVec 12) (s : State) : Host.Outcome State Fault Refusal :=
  complete s (behaveSw mmuTranslate rs1 rs2 imm s)

end Sys2Proof.Machine
end

