-- ==== Sys2Proof/Machine/FenceSystem.lean ====
section
/-!
DEFINITION. The memory-ordering, environment and trap-return instructions (44_fence_system.md).
-/

namespace Sys2Proof.Machine

/-- R270. `pc <- pc + 4`, nothing else: every field of the word is ignored. -/
def behaveFence (_fm _pred _succ : BitVec 4) (_rs1 _rd : RegIdx) (s : State) : Result State :=
  .ok s.nextPc

@[inherit_doc behaveFence]
def execFence (_fm _pred _succ : BitVec 4) (_rs1 _rd : RegIdx) (s : State) : Host.Outcome State Fault Refusal :=
  complete s (behaveFence _fm _pred _succ _rs1 _rd s)

/-- R271: the `ECALL` cause of a mode. -/
def envCallCause : Mode → ExceptionCause
  | .user => .envCallFromU
  | .supervisor => .envCallFromS
  | .machine => .envCallFromM

/-- R271. Always raises, cause 8, 9 or 11 by the mode; `pc` is not advanced and the value is absent (R304). -/
def behaveEcall (s : State) : Result State :=
  .error (.trap (.exception (envCallCause s.mode) none))

@[inherit_doc behaveEcall]
def execEcall (s : State) : Host.Outcome State Fault Refusal :=
  complete s (behaveEcall s)

/-- R272. Always raises `Breakpoint`; the value is absent (R304). -/
def behaveEbreak (_s : State) : Result State :=
  .error (.trap (.exception .breakpoint none))

@[inherit_doc behaveEbreak]
def execEbreak (s : State) : Host.Outcome State Fault Refusal :=
  complete s (behaveEbreak s)

/-- R274. Requires machine mode (R183); the word of the instruction is the value of the exception below it. -/
def behaveMret (bank : CsrLookup) (insn : Word) (s : State) : Result State :=
  if s.mode.meets .machine then returnFromTrapRaw bank s else .error (.trap (illegalInstruction insn))

@[inherit_doc behaveMret]
def execMret (s : State) : Host.Outcome State Fault Refusal :=
  complete s (behaveMret loadedCsr (encode .mret) s)

end Sys2Proof.Machine
end

