-- ==== Sys2Proof/Machine/Zicsr.lean ====
section
/-!
DEFINITION. The CSR access instructions (45_zicsr.md). The value of an illegal-instruction exception is the instruction word, which
is the encoding of the decoded instruction (DEDUCED, log entry 10).
-/

namespace Sys2Proof.Machine

/-- R281. Read and write. -/
def behaveCsrrw (bank : CsrLookup) (insn : Word) (rd : RegIdx) (csr : CsrAddr) (rs1 : RegIdx) (s : State) : Result State :=
  csrSwap bank insn rd csr (s.readX rs1) s

@[inherit_doc behaveCsrrw]
def execCsrrw (rd : RegIdx) (csr : CsrAddr) (rs1 : RegIdx) (s : State) : Host.Outcome State Fault Refusal :=
  complete s (behaveCsrrw loadedCsr (encode (.csrrw rd csr rs1)) rd csr rs1 s)

/-- R282. Read and set bits. -/
def behaveCsrrs (bank : CsrLookup) (insn : Word) (rd : RegIdx) (csr : CsrAddr) (rs1 : RegIdx) (s : State) : Result State :=
  csrUpdate bank insn rd csr (decide (rs1 ≠ 0#5)) (fun old => old ||| s.readX rs1) s

@[inherit_doc behaveCsrrs]
def execCsrrs (rd : RegIdx) (csr : CsrAddr) (rs1 : RegIdx) (s : State) : Host.Outcome State Fault Refusal :=
  complete s (behaveCsrrs loadedCsr (encode (.csrrs rd csr rs1)) rd csr rs1 s)

/-- R283. Read and clear bits. -/
def behaveCsrrc (bank : CsrLookup) (insn : Word) (rd : RegIdx) (csr : CsrAddr) (rs1 : RegIdx) (s : State) : Result State :=
  csrUpdate bank insn rd csr (decide (rs1 ≠ 0#5)) (fun old => old &&& ~~~(s.readX rs1)) s

@[inherit_doc behaveCsrrc]
def execCsrrc (rd : RegIdx) (csr : CsrAddr) (rs1 : RegIdx) (s : State) : Host.Outcome State Fault Refusal :=
  complete s (behaveCsrrc loadedCsr (encode (.csrrc rd csr rs1)) rd csr rs1 s)

/-- R284. Read and write, immediate. -/
def behaveCsrrwi (bank : CsrLookup) (insn : Word) (rd : RegIdx) (csr : CsrAddr) (uimm : BitVec 5) (s : State) : Result State :=
  csrSwap bank insn rd csr (uimmWord uimm) s

@[inherit_doc behaveCsrrwi]
def execCsrrwi (rd : RegIdx) (csr : CsrAddr) (uimm : BitVec 5) (s : State) : Host.Outcome State Fault Refusal :=
  complete s (behaveCsrrwi loadedCsr (encode (.csrrwi rd csr uimm)) rd csr uimm s)

/-- R285. Read and set bits, immediate. -/
def behaveCsrrsi (bank : CsrLookup) (insn : Word) (rd : RegIdx) (csr : CsrAddr) (uimm : BitVec 5) (s : State) : Result State :=
  csrUpdate bank insn rd csr (decide (uimm ≠ 0#5)) (fun old => old ||| uimmWord uimm) s

@[inherit_doc behaveCsrrsi]
def execCsrrsi (rd : RegIdx) (csr : CsrAddr) (uimm : BitVec 5) (s : State) : Host.Outcome State Fault Refusal :=
  complete s (behaveCsrrsi loadedCsr (encode (.csrrsi rd csr uimm)) rd csr uimm s)

/-- R286. Read and clear bits, immediate. -/
def behaveCsrrci (bank : CsrLookup) (insn : Word) (rd : RegIdx) (csr : CsrAddr) (uimm : BitVec 5) (s : State) : Result State :=
  csrUpdate bank insn rd csr (decide (uimm ≠ 0#5)) (fun old => old &&& ~~~(uimmWord uimm)) s

@[inherit_doc behaveCsrrci]
def execCsrrci (rd : RegIdx) (csr : CsrAddr) (uimm : BitVec 5) (s : State) : Host.Outcome State Fault Refusal :=
  complete s (behaveCsrrci loadedCsr (encode (.csrrci rd csr uimm)) rd csr uimm s)

end Sys2Proof.Machine
end

