-- ==== Sys2Proof/Machine/Sequencer.lean ====
section
/-!
DEFINITION. The fetch, decode, execute sequencer (40_sequencer_dispatch.md R170 to R177), interrupts (60_exceptions.md R330
to R336), and placing an instruction where the next step fetches.
-/

namespace Sys2Proof.Machine

/-- R332's priority, over the pending and enabled bits: external first, then software, then timer. -/
def selectInterrupt (p : Word) : Option Trap :=
  if p.getLsbD 11 then some (.interrupt .machineExternal none)
  else if p.getLsbD 3 then some (.interrupt .machineSoftware none)
  else if p.getLsbD 7 then some (.interrupt .machineTimer none)
  else none

/-- `PendingInterrupt()` (R332) over the loaded CSRs: pending and enabled, gated by `MIE` in machine mode only. -/
def pendingInterrupt (s : State) : Option Trap :=
  let p := s.irq.mip &&& s.csr.mie
  if p = 0#32 then none
  else if s.mode = .machine ∧ s.csr.mstatus.mie = false then none
  else selectInterrupt p

/-- `PendingInterrupt()` (R332) over the entries of any bank, by the raw path (R318), with the state its reads leave: `mip`, then
`mie`, then `mstatus` where the mode is M. (The step goes on from that state: DESIGN CHOICE, log entry 15.) -/
def pendingInterruptRaw (bank : CsrLookup) (s : State) : Result (Option Trap × State) := do
  let (pending, u) ← csrReadRaw bank Csr.mip.addr s
  let (enabled, u) ← csrReadRaw bank Csr.mie.addr u
  if pending &&& enabled = 0#32 then
    return (none, u)
  else if u.mode = .machine then
    let (status, u) ← csrReadRaw bank Csr.mstatus.addr u
    return (if status.getLsbD 3 then selectInterrupt (pending &&& enabled) else none, u)
  else
    return (selectInterrupt (pending &&& enabled), u)

/-- Decode and execute one fetched word (R174, R175): a word with no table entry raises `IllegalInstruction`. -/
def execWord (insn : Word) (s : State) : Host.Outcome State Fault Refusal :=
  match decode insn with
  | .ok i => exec i s
  | .error _ => .next (takeTrap (illegalInstruction insn) s)

/-- R170 from its `try` on: fetch, decode, execute. -/
def runOne (s : State) : Host.Outcome State Fault Refusal :=
  match fetch s with
  | .ok insn => execWord insn s
  | .error r => .next (recover takeTrap s r)

/-- `Step()` (R170) of the loaded configuration: a pending interrupt is taken and nothing is fetched; otherwise one instruction
runs. It is defined when `run_state = Running` only (R178; DEDUCED, log entry 9). -/
def sequencerStep (s : State) : Host.Outcome State Fault Refusal :=
  match s.runState with
  | .halted => .fault .coreHalted
  | .running =>
    match pendingInterrupt s with
    | some t => .next (takeTrap t s)
    | none => runOne s

/-- The state with a word written at the physical address `Fetch(pc)` reads (R80, R363). Where that address cannot be
reached (`Translate` raises) there is no such place and nothing changes. -/
def placeAtFetch (s : State) (w : Word) : State :=
  match mmuTranslate s s.pc .fetch 4 with
  | .ok pa => { s with mem := s.mem.write32 pa w }
  | .error _ => s

end Sys2Proof.Machine
end

