-- ==== Sys2Proof/Machine/Step.lean ====
section
/-!
DEFINITION. One step of the core (40_sequencer_dispatch.md R170), and an instruction placed where the next step fetches it.
-/

namespace Sys2Proof.Machine

/-- `Step()`. -/
def step (s : State) : Host.Outcome State Fault Refusal := sequencerStep s

/-- `s` with an instruction, its bits numbered as the opcode table numbers them and the bits above `nbits` zero, stored at
the address the next fetch reads: the host's seeding of memory through the raw accessors (R363, log entry 5). -/
def State.withFetchWord (s : State) (nbits w : Nat) : State := placeAtFetch s (BitVec.ofNat 32 (w % 2 ^ nbits))

end Sys2Proof.Machine
end

