-- ==== Sys2Proof/Machine/Modules.lean ====
section
/-!
DEFINITION. Instructions and instruction-set modules (30_encoding.md R134, R140; 40_sequencer_dispatch.md R182): a descriptor
with its behaviour, the CSR entries a module registers, and the three loaded modules, whose behaviours are those that the
arms of `exec` run.
-/

namespace Sys2Proof.Machine

/-- What of the core's construction a behaviour reaches (R182): the checked memory path, through `Translate`, and the checked
CSR path, through the bank (`MRET`, the end of the trap path, goes through it raw: R274). -/
structure Paths where
  palen : Nat
  translate : Translator palen
  csr : CsrLookup

/-- "A pure function of CPU state and raw instruction bits: `(cpu, raw_word) -> Result<(), Trap>`" (R182), the Trap of any cause
(R301). One that raises leaves no state, so the trap is taken on the state before it (D24). -/
abbrev Behaviour := Paths → Word → State → Result State

/-- An Instruction (R134): the immutable descriptor with its behaviour. -/
structure Instruction where
  row : Descriptor
  behaviour : Behaviour

/-- An instruction-set module (R134): an ordered collection of Instructions, and the CSR entries it registers (R52). -/
structure IsaModule where
  name : String
  instructions : List Instruction
  csrs : List CsrEntry

/-! ## The loaded modules (R140, D1): the opcode table with its behaviours -/

/-- The U-type instructions. -/
def upperInstructions : List Instruction :=
  [⟨⟨"LUI", .u, 0b0110111#7, none, .none⟩,
    fun _ w s => behaveLui (rdOf w) (immUOf w) s⟩,
   ⟨⟨"AUIPC", .u, 0b0010111#7, none, .none⟩,
    fun _ w s => behaveAuipc (rdOf w) (immUOf w) s⟩]

/-- The register-immediate instructions. -/
def immediateInstructions : List Instruction :=
  [⟨⟨"ADDI", .i, 0b0010011#7, some 0b000#3, .none⟩,
    fun _ w s => behaveAddi (rdOf w) (rs1Of w) (immIOf w) s⟩,
   ⟨⟨"SLTI", .i, 0b0010011#7, some 0b010#3, .none⟩,
    fun _ w s => behaveSlti (rdOf w) (rs1Of w) (immIOf w) s⟩,
   ⟨⟨"SLTIU", .i, 0b0010011#7, some 0b011#3, .none⟩,
    fun _ w s => behaveSltiu (rdOf w) (rs1Of w) (immIOf w) s⟩,
   ⟨⟨"XORI", .i, 0b0010011#7, some 0b100#3, .none⟩,
    fun _ w s => behaveXori (rdOf w) (rs1Of w) (immIOf w) s⟩,
   ⟨⟨"ORI", .i, 0b0010011#7, some 0b110#3, .none⟩,
    fun _ w s => behaveOri (rdOf w) (rs1Of w) (immIOf w) s⟩,
   ⟨⟨"ANDI", .i, 0b0010011#7, some 0b111#3, .none⟩,
    fun _ w s => behaveAndi (rdOf w) (rs1Of w) (immIOf w) s⟩,
   ⟨⟨"SLLI", .i, 0b0010011#7, some 0b001#3, .funct7 0b0000000#7⟩,
    fun _ w s => behaveSlli (rdOf w) (rs1Of w) (shamtOf w) s⟩,
   ⟨⟨"SRLI", .i, 0b0010011#7, some 0b101#3, .funct7 0b0000000#7⟩,
    fun _ w s => behaveSrli (rdOf w) (rs1Of w) (shamtOf w) s⟩,
   ⟨⟨"SRAI", .i, 0b0010011#7, some 0b101#3, .funct7 0b0100000#7⟩,
    fun _ w s => behaveSrai (rdOf w) (rs1Of w) (shamtOf w) s⟩]

/-- The register-register instructions. -/
def registerInstructions : List Instruction :=
  [⟨⟨"ADD", .r, 0b0110011#7, some 0b000#3, .funct7 0b0000000#7⟩,
    fun _ w s => behaveAdd (rdOf w) (rs1Of w) (rs2Of w) s⟩,
   ⟨⟨"SUB", .r, 0b0110011#7, some 0b000#3, .funct7 0b0100000#7⟩,
    fun _ w s => behaveSub (rdOf w) (rs1Of w) (rs2Of w) s⟩,
   ⟨⟨"SLL", .r, 0b0110011#7, some 0b001#3, .funct7 0b0000000#7⟩,
    fun _ w s => behaveSll (rdOf w) (rs1Of w) (rs2Of w) s⟩,
   ⟨⟨"SLT", .r, 0b0110011#7, some 0b010#3, .funct7 0b0000000#7⟩,
    fun _ w s => behaveSlt (rdOf w) (rs1Of w) (rs2Of w) s⟩,
   ⟨⟨"SLTU", .r, 0b0110011#7, some 0b011#3, .funct7 0b0000000#7⟩,
    fun _ w s => behaveSltu (rdOf w) (rs1Of w) (rs2Of w) s⟩,
   ⟨⟨"XOR", .r, 0b0110011#7, some 0b100#3, .funct7 0b0000000#7⟩,
    fun _ w s => behaveXor (rdOf w) (rs1Of w) (rs2Of w) s⟩,
   ⟨⟨"SRL", .r, 0b0110011#7, some 0b101#3, .funct7 0b0000000#7⟩,
    fun _ w s => behaveSrl (rdOf w) (rs1Of w) (rs2Of w) s⟩,
   ⟨⟨"SRA", .r, 0b0110011#7, some 0b101#3, .funct7 0b0100000#7⟩,
    fun _ w s => behaveSra (rdOf w) (rs1Of w) (rs2Of w) s⟩,
   ⟨⟨"OR", .r, 0b0110011#7, some 0b110#3, .funct7 0b0000000#7⟩,
    fun _ w s => behaveOr (rdOf w) (rs1Of w) (rs2Of w) s⟩,
   ⟨⟨"AND", .r, 0b0110011#7, some 0b111#3, .funct7 0b0000000#7⟩,
    fun _ w s => behaveAnd (rdOf w) (rs1Of w) (rs2Of w) s⟩]

/-- The control-transfer instructions. -/
def transferInstructions : List Instruction :=
  [⟨⟨"JAL", .j, 0b1101111#7, none, .none⟩,
    fun _ w s => behaveJal (rdOf w) (immJOf w) s⟩,
   ⟨⟨"JALR", .i, 0b1100111#7, some 0b000#3, .none⟩,
    fun _ w s => behaveJalr (rdOf w) (rs1Of w) (immIOf w) s⟩,
   ⟨⟨"BEQ", .b, 0b1100011#7, some 0b000#3, .none⟩,
    fun _ w s => behaveBeq (rs1Of w) (rs2Of w) (immBOf w) s⟩,
   ⟨⟨"BNE", .b, 0b1100011#7, some 0b001#3, .none⟩,
    fun _ w s => behaveBne (rs1Of w) (rs2Of w) (immBOf w) s⟩,
   ⟨⟨"BLT", .b, 0b1100011#7, some 0b100#3, .none⟩,
    fun _ w s => behaveBlt (rs1Of w) (rs2Of w) (immBOf w) s⟩,
   ⟨⟨"BGE", .b, 0b1100011#7, some 0b101#3, .none⟩,
    fun _ w s => behaveBge (rs1Of w) (rs2Of w) (immBOf w) s⟩,
   ⟨⟨"BLTU", .b, 0b1100011#7, some 0b110#3, .none⟩,
    fun _ w s => behaveBltu (rs1Of w) (rs2Of w) (immBOf w) s⟩,
   ⟨⟨"BGEU", .b, 0b1100011#7, some 0b111#3, .none⟩,
    fun _ w s => behaveBgeu (rs1Of w) (rs2Of w) (immBOf w) s⟩]

/-- The load and store instructions. -/
def memoryInstructions : List Instruction :=
  [⟨⟨"LB", .i, 0b0000011#7, some 0b000#3, .none⟩,
    fun p w s => behaveLb p.translate (rdOf w) (rs1Of w) (immIOf w) s⟩,
   ⟨⟨"LH", .i, 0b0000011#7, some 0b001#3, .none⟩,
    fun p w s => behaveLh p.translate (rdOf w) (rs1Of w) (immIOf w) s⟩,
   ⟨⟨"LW", .i, 0b0000011#7, some 0b010#3, .none⟩,
    fun p w s => behaveLw p.translate (rdOf w) (rs1Of w) (immIOf w) s⟩,
   ⟨⟨"LBU", .i, 0b0000011#7, some 0b100#3, .none⟩,
    fun p w s => behaveLbu p.translate (rdOf w) (rs1Of w) (immIOf w) s⟩,
   ⟨⟨"LHU", .i, 0b0000011#7, some 0b101#3, .none⟩,
    fun p w s => behaveLhu p.translate (rdOf w) (rs1Of w) (immIOf w) s⟩,
   ⟨⟨"SB", .s, 0b0100011#7, some 0b000#3, .none⟩,
    fun p w s => behaveSb p.translate (rs1Of w) (rs2Of w) (immSOf w) s⟩,
   ⟨⟨"SH", .s, 0b0100011#7, some 0b001#3, .none⟩,
    fun p w s => behaveSh p.translate (rs1Of w) (rs2Of w) (immSOf w) s⟩,
   ⟨⟨"SW", .s, 0b0100011#7, some 0b010#3, .none⟩,
    fun p w s => behaveSw p.translate (rs1Of w) (rs2Of w) (immSOf w) s⟩]

/-- `FENCE`, `ECALL`, `EBREAK`. -/
def environmentInstructions : List Instruction :=
  [⟨⟨"FENCE", .i, 0b0001111#7, some 0b000#3, .none⟩,
    fun _ w s => behaveFence (fmOf w) (predOf w) (succOf w) (rs1Of w) (rdOf w) s⟩,
   ⟨⟨"ECALL", .i, 0b1110011#7, some 0b000#3, .wholeWord 0x00000073⟩,
    fun _ _ s => behaveEcall s⟩,
   ⟨⟨"EBREAK", .i, 0b1110011#7, some 0b000#3, .wholeWord 0x00100073⟩,
    fun _ _ s => behaveEbreak s⟩]

/-- The six Zicsr instructions. -/
def zicsrInstructions : List Instruction :=
  [⟨⟨"CSRRW", .i, 0b1110011#7, some 0b001#3, .none⟩,
    fun p w s => behaveCsrrw p.csr w (rdOf w) (csrOf w) (rs1Of w) s⟩,
   ⟨⟨"CSRRS", .i, 0b1110011#7, some 0b010#3, .none⟩,
    fun p w s => behaveCsrrs p.csr w (rdOf w) (csrOf w) (rs1Of w) s⟩,
   ⟨⟨"CSRRC", .i, 0b1110011#7, some 0b011#3, .none⟩,
    fun p w s => behaveCsrrc p.csr w (rdOf w) (csrOf w) (rs1Of w) s⟩,
   ⟨⟨"CSRRWI", .i, 0b1110011#7, some 0b101#3, .none⟩,
    fun p w s => behaveCsrrwi p.csr w (rdOf w) (csrOf w) (uimmOf w) s⟩,
   ⟨⟨"CSRRSI", .i, 0b1110011#7, some 0b110#3, .none⟩,
    fun p w s => behaveCsrrsi p.csr w (rdOf w) (csrOf w) (uimmOf w) s⟩,
   ⟨⟨"CSRRCI", .i, 0b1110011#7, some 0b111#3, .none⟩,
    fun p w s => behaveCsrrci p.csr w (rdOf w) (csrOf w) (uimmOf w) s⟩]

/-- The one instruction of `PrivM`. -/
def privInstructions : List Instruction :=
  [⟨⟨"MRET", .i, 0b1110011#7, some 0b000#3, .wholeWord 0x30200073⟩,
    fun p w s => behaveMret p.csr w s⟩]

/-- The nine entries of R40. -/
def loadedCsrs : List CsrEntry :=
  [Csr.satp, .mstatus, .mie, .mtvec, .mscratch, .mepc, .mcause, .mtval, .mip].map Csr.entry

/-- R140: the module `RV32I`, 40 instructions. -/
def rv32i : IsaModule where
  name := "RV32I"
  instructions :=
    upperInstructions ++ immediateInstructions ++ registerInstructions ++ transferInstructions ++ memoryInstructions
      ++ environmentInstructions
  csrs := []

/-- R140: the module `Zicsr`, six instructions. -/
def zicsr : IsaModule where
  name := "Zicsr"
  instructions := zicsrInstructions
  csrs := []

/-- R140: the module `PrivM`, which holds `MRET` and registers the nine CSRs of R40. -/
def privM : IsaModule where
  name := "PrivM"
  instructions := privInstructions
  csrs := loadedCsrs

/-- `ISETS = [RV32I, Zicsr, PrivM]` (R6, D1). -/
def loadedModules : List IsaModule := [rv32i, zicsr, privM]

/-- R140: every row of the loaded configuration. -/
def opcodeTable : List Descriptor := (loadedModules.flatMap IsaModule.instructions).map Instruction.row

/-- R139: the lookup in the flat form. -/
def tableLookup (w : Word) : Option Descriptor := opcodeTable.find? (fun d => d.selects w)

end Sys2Proof.Machine

/-- The instruction's row of the opcode table. -/
def Sys2Proof.Instr.descriptor? (i : Sys2Proof.Instr) : Option Sys2Proof.Descriptor :=
  Sys2Proof.Machine.opcodeTable.find? (fun d => d.name == i.mnemonic)
end

