-- ==== Sys2Proof/Machine/Cpu.lean ====
section
/-!
DEFINITION. Configurations and the cores they construct (00_scope.md R6, R7; 30_encoding.md R135 to R139; 70_reset_and_hazards.md
R360, R361, R370): for any list of modules and any `Translate`, the Instruction Table and the CSR bank construction builds,
and the step of the core that has them. The core of the default configuration steps as `step` does.
-/

namespace Sys2Proof.Machine

/-- The arguments of construction (R6, R370), less the bus and `RESET_FILL`, which `construct` takes beside it, and the
interrupt inputs, which are driven. `CSRSET` is what the modules register. -/
structure Configuration where
  modules : List IsaModule
  resetVector : Word
  flen : Flen
  palen : Nat
  translate : CsrLookup → Translator palen
  physMap : PhysMap

/-- The configuration with every parameter of R6 at its default.
`FLEN` is OPEN in R6: 32 is this model's choice (DESIGN CHOICE, log entry 4). -/
def defaultConfiguration : Configuration where
  modules := loadedModules
  resetVector := Config.defaultResetVector
  flen := .f32
  palen := 34
  translate := mmuVia
  physMap := Config.defaultPhysMap

/-- Every Instruction of a configuration, in the order of its modules (R134: "multiple sets are merged"). -/
def Configuration.instructions (c : Configuration) : List Instruction := c.modules.flatMap IsaModule.instructions

/-- Every CSR entry of a configuration (R36: "installed once at CPU construction from the composed instruction sets"). -/
def Configuration.csrs (c : Configuration) : List CsrEntry := c.modules.flatMap IsaModule.csrs

/-- R7 (with R52, R136): no two Instructions on one dispatch key, no two CSR entries on one address, every CSR that the
core uses raw is registered, and `RESET_VECTOR[1:0] = 0`. -/
def Configuration.wellFormed (c : Configuration) : Bool :=
  noCollision Descriptor.collides (c.instructions.map Instruction.row)
    && noCollision (· == ·) (c.csrs.map CsrEntry.addr)
    && Config.rawCsrs.all (fun a => (c.csrs.map CsrEntry.addr).contains a)
    && c.resetVector.extractLsb' 0 2 == 0

/-- What construction fixes of a core (R370: "After construction neither table changes"): the Instruction Table, the CSR bank
and the MMU. What changes is the `State` it runs on. -/
structure Cpu where
  table : List Instruction
  bank : List CsrEntry
  palen : Nat
  translate : CsrLookup → Translator palen

/-- R36: the entry at an address. -/
def Cpu.csr (b : Cpu) : CsrLookup := fun a => b.bank.find? fun e => e.addr == a

/-- What the core's behaviours reach (R182). -/
def Cpu.paths (b : Cpu) : Paths := { palen := b.palen, translate := b.translate b.csr, csr := b.csr }

/-- R137, in the flat form of R139: the Instruction a word selects, of those the modules supplied. -/
def Cpu.decode (b : Cpu) (insn : Word) : Option Instruction := b.table.find? fun e => e.row.selects insn

/-- R174, R175: invoke the matched Instruction with the raw word, or raise `IllegalInstruction`. -/
def Cpu.execute (b : Cpu) (insn : Word) (s : State) : Result State :=
  match b.decode insn with
  | some e => e.behaviour b.paths insn s
  | none => .error (.trap (illegalInstruction insn))

/-- `TakeTrap` (R310) of a core. "Any failure during trap handling itself (e.g., a raw CSR access hitting an unconfigured
address) is unrecoverable and halts execution" (R318). It halts in the state before the trap entry (DESIGN CHOICE, log entry
16). -/
def Cpu.takeTrap (b : Cpu) (t : Trap) (s : State) : State :=
  match takeTrapRaw b.csr t s with
  | .ok u => u
  | .error _ => halt .unrecoverableFault s

/-- R170 from its `try` on, over the tables of the core. -/
def Cpu.runOne (b : Cpu) (s : State) : Host.Outcome State Fault Refusal :=
  match fetchVia b.paths.translate s with
  | .ok insn => completeWith b.takeTrap s (b.execute insn s)
  | .error r => .next (recover b.takeTrap s r)

/-- `Step()` (R170) of a core. A failure of the interrupt test, which stands before the `try`, halts; that a Trap raised there
is `UnrecoverableFault` is the model's choice (DESIGN CHOICE, log entry 15), and so is that it halts in the state before the
test (DESIGN CHOICE, log entry 16). -/
def Cpu.step (b : Cpu) (s : State) : Host.Outcome State Fault Refusal :=
  match s.runState with
  | .halted => .fault .coreHalted
  | .running =>
    match pendingInterruptRaw b.csr s with
    | .ok (some t, u) => .next (b.takeTrap t u)
    | .ok (none, u) => b.runOne u
    | .error r => .next (recover (fun _ => halt .unrecoverableFault) s r)

/-! ## Reset and construction -/

/-- A choice of value for every piece of state that R62 calls unspecified after reset.
`RESET_FILL` = 0 is `ResetFill.zero`; what R62 states holds for every choice. -/
structure ResetFill where
  x : Vector Word 32
  f : Vector (BitVec 64) 32
  mpie : Bool
  mpp : Mode
  sum : Bool
  mxr : Bool
  mie : Word
  mtvec : Word
  mscratch : Word
  mepc : Word
  mtval : Word
  satp : Word
deriving DecidableEq, Repr

/-- `RESET_FILL` = 0 for all of it (R62, D23). -/
def ResetFill.zero : ResetFill where
  x := Vector.replicate 32 0
  f := Vector.replicate 32 0
  mpie := false
  mpp := .user
  sum := false
  mxr := false
  mie := 0
  mtvec := 0
  mscratch := 0
  mepc := 0
  mtval := 0
  satp := 0

/-- A file of the given `FLEN` holding the low bits of 32 values (R30). -/
def FRegs.fill (flen : Flen) (v : Vector (BitVec 64) 32) : FRegs :=
  match flen with
  | .f32 => .f32 ⟨⟨v.toList.map (BitVec.truncate 32)⟩, by simp⟩
  | .f64 => .f64 v

/-- The CSR bank after reset: `MIE`, `MPRV` and `mcause` 0, the rest legal for its field (R62, R361). -/
def ResetFill.bank (fill : ResetFill) : CsrBank where
  mstatus :=
    { mie := false, mpie := fill.mpie, mpp := fill.mpp, mprv := false, sum := fill.sum, mxr := fill.mxr }
  mie := fill.mie &&& Csr.mie.writeMask
  mtvec := fill.mtvec &&& Csr.mtvec.writeMask
  mscratch := fill.mscratch
  mepc := fill.mepc &&& Csr.mepc.writeMask
  mcause := 0
  mtval := fill.mtval
  satp := fill.satp &&& Csr.satp.writeMask

/-- The stored values that added CSR entries start from (R52). -/
def initialAdded (bank : List CsrEntry) : List (CsrAddr × Word) := bank.filterMap fun e => e.reset.map fun v => (e.addr, v)

/-- `Reset()` (R361) with a reset vector. The tables are kept (R360); memory, the host's address map and the inputs are
untouched (R62, R363). What R361 writes to `mstatus` and `mcause`, and the fill, go to the loaded CSRs; an entry that another
module registers at the address of one starts from the reset value its module gives, and from nothing else (DESIGN CHOICE, log
entry 17). -/
def Cpu.resetTo (b : Cpu) (vector : Word) (fill : ResetFill) (s : State) : State :=
  { s with
    x := fill.x.set 0 0
    pc := vector
    f := FRegs.fill s.f.flen fill.f
    mode := .machine
    csr := fill.bank
    added := initialAdded b.bank
    runState := .running
    haltReason := none }

/-- The core a configuration describes: its tables, built from the modules in their order (R370). -/
def Configuration.build (c : Configuration) : Cpu where
  table := c.instructions
  bank := c.csrs
  palen := c.palen
  translate := c.translate

/-- Construction (R370): a configuration that is not well formed is refused; otherwise the core built from its modules and the
state `Reset()` leaves, over the bus the host supplies, with no input asserted. -/
def construct (c : Configuration) (bus : Memory) (fill : ResetFill) : Option (Cpu × State) :=
  if c.wellFormed then
    some (c.build, c.build.resetTo c.resetVector fill
      { State.reset with f := FRegs.fill c.flen fill.f, mem := bus, physMap := c.physMap })
  else none

end Sys2Proof.Machine
end

