-- ==== Sys2Proof/Machine/HostOps.lean ====
section
/-!
DEFINITION. What the host can do to a constructed core between steps (70_reset_and_hazards.md R372 to R374;
40_sequencer_dispatch.md R171, R178): reset, raw memory and CSR access, direct access to the registers, driving the
interrupt inputs, and running under a schedule of them. No instruction reaches any of it.
-/

namespace Sys2Proof.Machine

/-- The host's reset (R372), refused for a vector with `[1:0]` not 00 (R7). It is also the way out of `Halted` (R366). -/
def hostReset (b : Cpu) (vector : Word) (fill : ResetFill) (s : State) : Option State :=
  if vector.extractLsb' 0 2 = 0#2 then some (b.resetTo vector fill s) else none

/-- What a failed raw access of the host leaves: a contract violation halts the core (R39), in the state before the access
(DESIGN CHOICE where an entry had written, log entry 16). An entry that raises a Trap has
nobody to catch it here: the access is dropped (DESIGN CHOICE, log entry 15). -/
def hostDropped (s : State) : Raised → State := recover (fun _ u => u) s

/-- `readRawCsr(a)` (R372): the value, where there is one, and the state the access leaves. -/
def hostReadRawCsr (bank : CsrLookup) (a : CsrAddr) (s : State) : Option Word × State :=
  match csrReadRaw bank a s with
  | .ok (v, t) => (some v, t)
  | .error r => (none, hostDropped s r)

/-- `writeRawCsr(a, v)` (R372). -/
def hostWriteRawCsr (bank : CsrLookup) (a : CsrAddr) (v : Word) (s : State) : State :=
  match csrWriteRaw bank a v s with
  | .ok s' => s'
  | .error r => hostDropped s r

/-! The raw memory accesses (R83, R372) go to the plain memory at any address, `State.physMap` not consulted: what one does
where `PhysValid` is false the spec leaves open (R372, U20), and here it reads what `mem` holds and stores the bytes
(DESIGN CHOICE, log entry 14). Across the top of the physical space see log entry 12. -/

/-- `readRawMem8(pa)` (R83, R372). Where `PhysValid(pa, 1)` is false: DESIGN CHOICE, log entry 14. -/
def hostReadRawMem8 {palen : Nat} (pa : BitVec palen) (s : State) : BitVec 8 := s.mem.read8 pa

/-- `readRawMem16(pa)`. Where `PhysValid(pa, 2)` is false: DESIGN CHOICE, log entry 14. -/
def hostReadRawMem16 {palen : Nat} (pa : BitVec palen) (s : State) : BitVec 16 := s.mem.read16 pa

/-- `readRawMem32(pa)`. Where `PhysValid(pa, 4)` is false: DESIGN CHOICE, log entry 14. -/
def hostReadRawMem32 {palen : Nat} (pa : BitVec palen) (s : State) : BitVec 32 := s.mem.read32 pa

/-- `writeRawMem8(pa, v)`. Where `PhysValid(pa, 1)` is false: DESIGN CHOICE, log entry 14. -/
def hostWriteRawMem8 {palen : Nat} (pa : BitVec palen) (v : BitVec 8) (s : State) : State := { s with mem := s.mem.write8 pa v }

/-- `writeRawMem16(pa, v)`. Where `PhysValid(pa, 2)` is false: DESIGN CHOICE, log entry 14. -/
def hostWriteRawMem16 {palen : Nat} (pa : BitVec palen) (v : BitVec 16) (s : State) : State := { s with mem := s.mem.write16 pa v }

/-- `writeRawMem32(pa, v)`. Where `PhysValid(pa, 4)` is false: DESIGN CHOICE, log entry 14. -/
def hostWriteRawMem32 {palen : Nat} (pa : BitVec palen) (v : BitVec 32) (s : State) : State := { s with mem := s.mem.write32 pa v }

/-- Read `x[i]` (R372). -/
def hostReadX (r : RegIdx) (s : State) : Word := s.readX r

/-- Write `x[i]`, the `x0` rule still in force (R372). -/
def hostWriteX (r : RegIdx) (v : Word) (s : State) : State := s.writeX r v

/-- Read `f[i]` (R372). -/
def hostReadF (r : RegIdx) (s : State) : BitVec 64 := s.f.read r

/-- Write `f[i]` (R372). -/
def hostWriteF (r : RegIdx) (v : BitVec 64) (s : State) : State := { s with f := s.f.write r v }

/-- Write `pc` (R372), refused unless bits [1:0] are 0. -/
def hostWritePc (t : Word) (s : State) : Option State := if t.extractLsb' 0 2 = 0#2 then some (s.setPc t) else none

/-- Write `mode` (R372). -/
def hostWriteMode (m : Mode) (s : State) : State := { s with mode := m }

/-- Drive the three inputs (R56, R372): the levels the next step samples. -/
def driveIrq (q : IrqInputs) (s : State) : State := { s with irq := q }

/-- One step of the loaded configuration with the inputs at given levels at its start (R332). -/
def stepWith (q : IrqInputs) (s : State) : Host.Outcome State Fault Refusal := step (driveIrq q s)

/-- `run` of a core under a schedule of input levels, one entry a step (R171, R332): the host makes at most as many steps as
the schedule has entries, while `run_state = Running`. -/
def Cpu.runSchedule (b : Cpu) : List IrqInputs → State → Host.Outcome State Fault Refusal
  | [], s => .next s
  | q :: rest, s =>
    match s.runState with
    | .halted => .next s
    | .running =>
      match b.step (driveIrq q s) with
      | .next t => b.runSchedule rest t
      | .fault f => .fault f
      | .refused r => .refused r

end Sys2Proof.Machine
end

