-- ==== Sys2Proof/Safety.lean ====
section
/-!
DEFINITION. The terms the statements use: the invariant of a state, what an instruction leaves behind when it completes, and
what a state looks like after a trap is taken.
-/

namespace Sys2Proof.Machine

/-- What holds of every state the core reaches, beyond what the types say:
`x[0]` is stored as 0 (R20), `pc[1:0] = 0` (R28), the bits outside each CSR's write mask are 0 (R41 to R49), and memory is in
its canonical form. -/
abbrev State.Inv (s : State) : Prop :=
  s.x[0] = 0#32
    ∧ s.pc.extractLsb' 0 2 = 0#2
    ∧ s.csr.mie &&& ~~~Csr.mie.writeMask = 0#32
    ∧ s.csr.mtvec &&& ~~~Csr.mtvec.writeMask = 0#32
    ∧ s.csr.mepc &&& ~~~Csr.mepc.writeMask = 0#32
    ∧ s.csr.satp &&& ~~~Csr.satp.writeMask = 0#32
    ∧ s.mem.wf

/-- `t` is `s` with `x[rd]` set to `v` (nothing set when `rd` is `x0`, which still reads 0), `pc` set to `next`, and nothing
else changed: mode, f registers, CSRs, inputs, run state, memory and address map are as before. -/
def WritesX (s t : State) (rd : RegIdx) (v next : Word) : Prop :=
  (∀ r : RegIdx, t.readX r = if r = rd ∧ rd ≠ 0#5 then v else s.readX r)
    ∧ t.pc = next
    ∧ t = { s with x := t.x, pc := t.pc }

/-- `t` is `s` with `pc` set to `next` and nothing else changed. -/
def MovesTo (s t : State) (next : Word) : Prop := t = { s with pc := next }

/-- `t` is `s` with `pc` advanced by 4, the `n` bytes from `pa` holding the bytes of `v`, low byte first, and nothing else
changed: every byte outside `pa .. pa+n-1` reads as before. -/
def Stores (s t : State) (pa : PAddr) (n : Nat) (v : Word) : Prop :=
  (∀ k, k < n → t.mem.read (pa.toNat + k) = v.extractLsb' (8 * k) 8)
    ∧ (∀ a, (a < pa.toNat ∨ pa.toNat + n ≤ a) → t.mem.read a = s.mem.read a)
    ∧ t = { s with mem := t.mem, pc := s.pc + 4 }

/-- `t` is `s` after the trap with cause word `cause` and value `value` is taken to `vector` (R310): `mepc`, `mcause`, `mtval`,
`MPIE`, `MIE`, `MPP`, `mode` and `pc` as R310 says, and nothing else changed. -/
def EntersTrap (s t : State) (cause value vector : Word) : Prop :=
  t = { s with
        csr := { s.csr with
                 mepc := s.pc &&& 0xFFFFFFFC
                 mcause := cause
                 mtval := value
                 mstatus := { s.csr.mstatus with mpie := s.csr.mstatus.mie, mie := false, mpp := s.mode } }
        mode := .machine
        pc := vector }

/-- A trap the loaded configuration can raise: an exception of R303 ("no other cause number is ever produced by the core") or an
interrupt of R330. -/
def Trap.Listed : Trap → Prop
  | .exception c _ => c ∈ [0#31, 1#31, 2#31, 3#31, 4#31, 5#31, 6#31, 7#31, 8#31, 9#31, 11#31, 12#31, 13#31, 15#31]
  | .interrupt c _ => c ∈ [3#31, 7#31, 11#31]

/-- `t` is `s` after a trap of the loaded configuration is taken. -/
def TakesListedTrap (s t : State) : Prop := ∃ tr : Trap, tr.Listed ∧ t = takeTrap tr s

/-- A bank whose entries at the addresses of the trap path and the MMU (R318) are the loaded ones. -/
def LoadedRaw (bank : CsrLookup) : Prop := ∀ a ∈ Config.rawCsrs, bank a = loadedCsr a

/-- The word `w` decodes to `i`, and executing `i` in `s` answers a next state of which `post` holds. -/
def WordRuns (w : Word) (i : Instr) (s : State) (post : State → Prop) : Prop :=
  decode w = .ok i ∧ ∃ t, exec i s = .next t ∧ post t

/-- R51: which CSR addresses a mode may access: from M the nine of R40, from S only `satp`, from U none. -/
def CsrLegal (mode : Mode) (a : CsrAddr) : Prop :=
  (mode = .machine ∧ a ∈ [0x180#12, 0x300#12, 0x304#12, 0x305#12, 0x340#12, 0x341#12, 0x342#12, 0x343#12, 0x344#12])
    ∨ (mode = .supervisor ∧ a = 0x180#12)

/-- The address an exception goes to, in direct and in vectored mode: `{BASE, 00}` (R312). -/
def exceptionVector (s : State) : Word := s.csr.mtvec &&& 0xFFFFFFFC

/-- `t` is `s` after the exception with code `code` and trap-value `value` is taken. -/
def EntersException (s t : State) (code value : Word) : Prop := EntersTrap s t code value (exceptionVector s)

/-- R312: the address the interrupt with code `code` goes to: `base + 4*code` in vectored mode, `base` in direct mode. -/
def interruptVector (s : State) (code : Word) : Word :=
  if s.csr.mtvec.getLsbD 0 then (s.csr.mtvec &&& 0xFFFFFFFC) + 4 * code else s.csr.mtvec &&& 0xFFFFFFFC

/-- R97: the physical address of the level-1 entry for `va`, in the root table at `satp.PPN`. -/
def rootEntryAddress (s : State) (va : Word) : PAddr :=
  (s.csr.satp.extractLsb' 0 22).zeroExtend 34 * 4096 + (va.extractLsb' 22 10).zeroExtend 34 * 4

/-- R97: the physical address of the level-0 entry for `va`, in the table a pointer entry names. -/
def leafEntryAddress (pointer va : Word) : PAddr :=
  (pointer.extractLsb' 10 22).zeroExtend 34 * 4096 + (va.extractLsb' 12 10).zeroExtend 34 * 4

/-- R97: an entry that no walk accepts: `V = 0`, or the reserved `R = 0, W = 1`. -/
def EntryInvalid (pte : Word) : Prop := pte.getLsbD 0 = false ∨ (pte.getLsbD 1 = false ∧ pte.getLsbD 2 = true)

/-- R92, R97: a valid entry with `R = W = X = 0`, a pointer to the next level. -/
def EntryPoints (pte : Word) : Prop :=
  pte.getLsbD 0 = true ∧ pte.getLsbD 1 = false ∧ pte.getLsbD 2 = false ∧ pte.getLsbD 3 = false

/-- R97: a valid entry with `R = 1` or `X = 1`, a leaf. -/
def EntryIsLeaf (pte : Word) : Prop := ¬ EntryInvalid pte ∧ (pte.getLsbD 1 = true ∨ pte.getLsbD 3 = true)

/-- R104, R106: a leaf this access may use: permitted, `A = 1`, and `D = 1` for a store. -/
def LeafUsable (s : State) (pte : Word) (intent : Intent) : Prop :=
  permitted s pte intent (effMode s intent) = true ∧ pte.getLsbD 6 = true ∧ (intent = .store → pte.getLsbD 7 = true)

/-- R86: the page fault an intent surfaces as. -/
def IsPageFault (intent : Intent) (va : Word) (t : Trap) : Prop :=
  (intent = .fetch ∧ t = .exception .instrPageFault (some va))
    ∨ (intent = .load ∧ t = .exception .loadPageFault (some va))
    ∨ (intent = .store ∧ t = .exception .storePageFault (some va))

/-- R86: the access fault an intent surfaces as. -/
def IsAccessFault (intent : Intent) (va : Word) (t : Trap) : Prop :=
  (intent = .fetch ∧ t = .exception .instrAccessFault (some va))
    ∨ (intent = .load ∧ t = .exception .loadAccessFault (some va))
    ∨ (intent = .store ∧ t = .exception .storeAccessFault (some va))

/-- R85, R86: the contract of a `Translate`: it answers an address whose bytes exist, or a page or access fault of the access's
own intent. (That it writes no state is in its type.) -/
def KeepsContract {palen : Nat} (tr : Translator palen) : Prop :=
  ∀ (s : State) (va : Word) (intent : Intent) (n : Nat),
    (∀ pa, tr s va intent n = .ok pa → s.physValid pa n = true)
    ∧ ∀ r, tr s va intent n = .error r → ∃ t, r = .trap t ∧ (IsPageFault intent va t ∨ IsAccessFault intent va t)

end Sys2Proof.Machine
end

