-- ==== Sys2Proof/Certificates/Slice0/Obligations.lean ====
section
/-!
DEFINITION. The statements about the machine, each from the numbered rules of the spec that its docstring names; OBLIGATIONS.json
lists them with their titles.
-/

open Sys2Proof Sys2Proof.Machine

/-- Words the spec writes out decode to the instructions they stand for (95_test_vectors.md section 2, 30_encoding.md R140). -/
def Obligations.SampleWordsDecode : Prop :=
  decode 0x123452B7 = .ok (.lui 5 0x12345) ∧ decode 0xFFFFF297 = .ok (.auipc 5 0xFFFFF)
    ∧ decode 0xFFD28313 = .ok (.addi 6 5 0xFFD) ∧ decode 0x41F2D313 = .ok (.srai 6 5 31)
    ∧ decode 0x406283B3 = .ok (.sub 7 5 6) ∧ decode 0x4062D3B3 = .ok (.sra 7 5 6)
    ∧ decode 0xFFDFF0EF = .ok (.jal 1 0x1FFFFC) ∧ decode 0x800000EF = .ok (.jal 1 0x100000)
    ∧ decode 0xFFC282E7 = .ok (.jalr 5 5 0xFFC) ∧ decode 0xFE2088E3 = .ok (.beq 1 2 0x1FF0)
    ∧ decode 0x7E001FE3 = .ok (.bne 0 0 0x0FFE) ∧ decode 0xFFC2A303 = .ok (.lw 6 5 0xFFC)
    ∧ decode 0xFE62AE23 = .ok (.sw 5 6 0xFFC) ∧ decode 0x8332830F = .ok (.fence 8 3 3 5 6)
    ∧ decode 0x00000073 = .ok .ecall ∧ decode 0x00100073 = .ok .ebreak ∧ decode 0x30200073 = .ok .mret
    ∧ decode 0x340292F3 = .ok (.csrrw 5 0x340 5) ∧ decode 0x340FD373 = .ok (.csrrwi 6 0x340 31)
    ∧ decode 0x00000000 = .error (.unknownOpcode 0) ∧ decode 0x02000033 = .error (.unknownFunct7 0x33 0 1)
    ∧ decode 0x40001033 = .error (.unknownFunct3 0x33 1) ∧ decode 0x4200D013 = .error (.unknownFunct7 0x13 5 0x21)
    ∧ decode 0x00004073 = .error (.unknownFunct3 0x73 4) ∧ decode 0x10500073 = .error (.unknownSystemWord 0x10500073)

/-- Decoding the encoding of a well-formed instruction gives it back (30_encoding.md R132, 30_encoding.md R133, 30_encoding.md R140). -/
def Obligations.DecodeOfEncodeIsTheInstruction : Prop :=
  ∀ i : Instr, i.wellFormed = true → decode (encode i) = .ok i

/-- Every word that decodes is the encoding of what it decodes to, and that is well formed (30_encoding.md R131, 30_encoding.md R133, 30_encoding.md R137). -/
def Obligations.EncodeOfDecodeIsTheWord : Prop :=
  ∀ (w : Word) (i : Instr), decode w = .ok i → encode i = w ∧ i.wellFormed = true

/-- The nested lookup and the flat match/mask table select the same row for every word (30_encoding.md R137, 30_encoding.md R139, 30_encoding.md R140). -/
def Obligations.DecoderAgreesWithTheFlatTable : Prop :=
  ∀ w : Word,
    (∀ i, decode w = .ok i → (tableLookup w).map Descriptor.name = some i.mnemonic)
    ∧ ((∃ e, decode w = .error e) ↔ ∀ d ∈ opcodeTable, d.selects w = false)

/-- No word is selected by two rows of the loaded configuration's table (30_encoding.md R136, 30_encoding.md R139). -/
def Obligations.AtMostOneRowSelectsAWord : Prop :=
  ∀ (w : Word) (d e : Descriptor), d ∈ opcodeTable → e ∈ opcodeTable →
    d.selects w = true → e.selects w = true → d = e

/-- A configuration is accepted exactly when it is well formed; the default one is (keys R138 and R139 do not give: model's choice, log entry 13) (00_scope.md R7, 30_encoding.md R136, 10_state.md R52). -/
def Obligations.ConstructionAcceptsExactlyWellFormed : Prop :=
  (∀ (c : Configuration) (bus : Memory) (fill : ResetFill),
    (∃ s, construct c bus fill = some s) ↔
      ((c.modules.flatMap IsaModule.instructions).Pairwise
            (fun d e => ∀ w, ¬ (d.row.selects w = true ∧ e.row.selects w = true))
        ∧ ((c.modules.flatMap IsaModule.csrs).map CsrEntry.addr).Nodup
        ∧ (∀ a ∈ [0x300#12, 0x341#12, 0x342#12, 0x343#12, 0x305#12, 0x344#12, 0x304#12, 0x180#12],
            ∃ e ∈ c.modules.flatMap IsaModule.csrs, e.addr = a)
        ∧ c.resetVector.extractLsb' 0 2 = 0#2))
    ∧ ∀ (bus : Memory) (fill : ResetFill), ∃ s, construct defaultConfiguration bus fill = some s

/-- What reset leaves in the loaded CSRs and the rest, whatever the unspecified values are, and that it leaves memory alone (R361, R363). -/
def Obligations.ResetLeavesTheSpecifiedState : Prop :=
  ∀ (b : Cpu) (vector : Word) (fill : ResetFill) (s : State),
    (vector.extractLsb' 0 2 = 0#2 →
      ∃ t, hostReset b vector fill s = some t
        ∧ t.pc = vector ∧ t.runState = .running ∧ t.haltReason = none ∧ t.mode = .machine
        ∧ t.csr.mstatus.mie = false ∧ t.csr.mstatus.mprv = false ∧ t.csr.mcause = 0#32 ∧ t.readX 0 = 0#32
        ∧ (∀ c, t.readCsr c &&& ~~~c.writeMask = if c = .mip then s.irq.mip else 0#32)
        ∧ t.mem = s.mem ∧ t.physMap = s.physMap ∧ t.irq = s.irq)
    ∧ (vector.extractLsb' 0 2 ≠ 0#2 → hostReset b vector fill s = none)

/-- After reset no interrupt is taken and the first fetch is at the reset vector, untranslated (70_reset_and_hazards.md R362, 20_memory.md R88, 60_exceptions.md R332). -/
def Obligations.FirstFetchAfterResetIsUntranslated : Prop :=
  ∀ (b : Cpu) (vector : Word) (fill : ResetFill) (s t : State), hostReset b vector fill s = some t →
    pendingInterrupt t = none
    ∧ fetch t = if t.physValid (vector.zeroExtend 34) 4 then .ok (t.mem.read32 (vector.zeroExtend 34))
                else .error (.trap (.exception .instrAccessFault (some vector)))

/-- Reset and constructed states satisfy the invariant; a core has the CSR entries its modules register (reset of one replacing a loaded one: model's, log 17) (10_state.md R62, 70_reset_and_hazards.md R361, 70_reset_and_hazards.md R370, 10_state.md R36, 10_state.md R52). -/
def Obligations.ConstructedStatesSatisfyTheInvariant : Prop :=
  State.reset.Inv
    ∧ ∀ (c : Configuration) (bus : Memory) (fill : ResetFill) (b : Cpu) (s : State),
        construct c bus fill = some (b, s) →
        (bus.wf → s.Inv)
        ∧ (∀ (a : CsrAddr) (e : CsrEntry), b.csr a = some e ↔ e ∈ c.modules.flatMap IsaModule.csrs ∧ e.addr = a)
        ∧ (∀ e ∈ c.modules.flatMap IsaModule.csrs, ∀ v, e.reset = some v → s.readAdded e.addr = v)

/-- Every step, under any interrupt inputs, keeps the invariant (10_state.md R28, 10_state.md R41, 20_memory.md R74). -/
def Obligations.EveryStepKeepsTheInvariant : Prop :=
  ∀ (q : IrqInputs) (s t : State), s.Inv → stepWith q s = .next t → t.Inv

/-- A running core always answers a next state and stays running; a halted one has no step, the fault coreHalted (model's choice, log entry 9) (40_sequencer_dispatch.md R178, 40_sequencer_dispatch.md R179, 40_sequencer_dispatch.md R170). -/
def Obligations.RunningCoreNeverHalts : Prop :=
  ∀ s : State,
    (s.runState = .running → ∃ t, step s = .next t ∧ t.runState = .running ∧ t.haltReason = s.haltReason)
    ∧ (s.runState = .halted → step s = .fault .coreHalted)

/-- A step with no interrupt runs the instruction the word selects among the modules supplied (unlisted keys, entries' effects, halts: model's, log 13, 15, 16) (40_sequencer_dispatch.md R170, 40_sequencer_dispatch.md R175, 30_encoding.md R135, 70_reset_and_hazards.md R370, 60_exceptions.md R338). -/
def Obligations.StepRunsTheDecodedInstruction : Prop :=
  (∀ (s : State) (w : Word) (i : Instr),
    s.runState = .running → pendingInterrupt s = none → fetch s = .ok w → decode w = .ok i → step s = exec i s)
  ∧ ∀ (c : Configuration) (bus : Memory) (fill : ResetFill) (b : Cpu) (s₀ : State),
      construct c bus fill = some (b, s₀) →
      ∀ (s u : State) (w : Word), s.runState = .running → pendingInterruptRaw b.csr s = .ok (none, u) →
        fetchVia (c.translate b.csr) u = .ok w →
        ∀ e ∈ c.modules.flatMap IsaModule.instructions, e.row.selects w = true →
          b.step s = match e.behaviour b.paths w u with
            | .ok t => .next t
            | .error (.trap tr) => .next (b.takeTrap tr u)
            | .error (.fatal reason) => .next (halt reason u)

/-- An instruction stored where the fetch reads is the one the next step executes (20_memory.md R80, 20_memory.md R74, 70_reset_and_hazards.md R363). -/
def Obligations.PlacedInstructionIsTheOneRun : Prop :=
  ∀ (s : State) (i : Instr),
    s.runState = .running → pendingInterrupt s = none → s.mem.wf → translationOn s .fetch = false →
    s.physValid (s.pc.zeroExtend 34) 4 = true → i.wellFormed = true →
    step (s.withFetchWord 32 (encode i).toNat) = exec i (s.withFetchWord 32 (encode i).toNat)

/-- A fetch reads 32 bits at the translated pc, or its fault is taken with tval = pc and mepc = pc (R173). -/
def Obligations.FetchFaultsAreTakenAtPc : Prop :=
  ∀ s : State, s.runState = .running → pendingInterrupt s = none → s.pc.extractLsb' 0 2 = 0#2 →
    let takes (cause : ExceptionCause) (code : Word) (r : Raised) : Prop :=
      r = .trap (.exception cause (some s.pc)) ∧ ∃ t, step s = .next t ∧ t.csr.mepc = s.pc ∧ EntersException s t code s.pc
    (∀ pa, mmuTranslate s s.pc .fetch 4 = .ok pa →
      fetch s = .ok (s.mem.read32 pa) ∧ step s = execWord (s.mem.read32 pa) s)
    ∧ ∀ r, mmuTranslate s s.pc .fetch 4 = .error r →
        fetch s = .error r ∧ (takes .instrPageFault 12 r ∨ takes .instrAccessFault 1 r)

/-- A word that no table row selects raises illegal-instruction with the word as value (unlisted keys, entries' effects: model's, log 13, 15) (40_sequencer_dispatch.md R174, 30_encoding.md R137, 30_encoding.md R150, 60_exceptions.md R318). -/
def Obligations.WordWithoutTableEntryIsIllegal : Prop :=
  (∀ (s : State) (w : Word), s.runState = .running → pendingInterrupt s = none → fetch s = .ok w →
    (∀ d ∈ opcodeTable, d.selects w = false) →
    ∃ t, step s = .next t ∧ EntersException s t 2 w ∧ t.runState = .running)
  ∧ ∀ (c : Configuration) (bus : Memory) (fill : ResetFill) (b : Cpu) (s₀ : State),
      construct c bus fill = some (b, s₀) →
      ∀ (s u : State) (w : Word), s.runState = .running → pendingInterruptRaw b.csr s = .ok (none, u) →
        fetchVia (c.translate b.csr) u = .ok w →
        (∀ e ∈ c.modules.flatMap IsaModule.instructions, e.row.selects w = false) →
        b.step s = .next (b.takeTrap (.exception .illegalInstruction (some w)) u)
        ∧ (LoadedRaw b.csr → s.csr.mepc.extractLsb' 0 2 = 0#2 →
            ∃ t, b.step s = .next t ∧ EntersException s t 2 w ∧ t.runState = .running)

/-- Which interrupt a step takes: pending and enabled, external then software then timer, gated by MIE in M only (R332). -/
def Obligations.PendingInterruptIsTakenByPriority : Prop :=
  ∀ s : State, s.runState = .running →
    let gate := s.mode ≠ .machine ∨ s.csr.mstatus.mie = true
    let ext := s.irq.meip = true ∧ s.csr.mie.getLsbD 11 = true
    let sw := s.irq.msip = true ∧ s.csr.mie.getLsbD 3 = true
    let tim := s.irq.mtip = true ∧ s.csr.mie.getLsbD 7 = true
    (gate → ext → ∃ t, step s = .next t ∧ EntersTrap s t 0x8000000B 0 (interruptVector s 11))
    ∧ (gate → ¬ ext → sw → ∃ t, step s = .next t ∧ EntersTrap s t 0x80000003 0 (interruptVector s 3))
    ∧ (gate → ¬ ext → ¬ sw → tim → ∃ t, step s = .next t ∧ EntersTrap s t 0x80000007 0 (interruptVector s 7))
    ∧ (¬ gate ∨ (¬ ext ∧ ¬ sw ∧ ¬ tim) → pendingInterrupt s = none ∧ step s = runOne s)

/-- Taking a trap writes mepc, mcause, mtval, MIE, MPIE, MPP, mode and pc as R310 and R312 say, and nothing else (R310, R312). -/
def Obligations.TakeTrapWritesExactlyItsFields : Prop :=
  ∀ (s : State) (c : ExceptionCause) (k : InterruptCause) (v : Option Word),
    EntersTrap s (takeTrap (.exception c v) s) (0#1 ++ c) (v.getD 0) (s.csr.mtvec &&& 0xFFFFFFFC)
    ∧ EntersTrap s (takeTrap (.interrupt k v) s) (1#1 ++ k) (v.getD 0)
        (if s.csr.mtvec.getLsbD 0 then (s.csr.mtvec &&& 0xFFFFFFFC) + 4 * k.zeroExtend 32
         else s.csr.mtvec &&& 0xFFFFFFFC)
    ∧ ∀ tr : Trap, (takeTrap tr s).pc.extractLsb' 0 2 = 0#2
        ∧ ∀ bank : CsrLookup, LoadedRaw bank → s.csr.mepc.extractLsb' 0 2 = 0#2 → takeTrapRaw bank tr s = .ok (takeTrap tr s)

/-- Wider bus accesses are their bytes, the byte at the lowest address least significant (canonical form and top of space: model's, log entry 12) (20_memory.md R74). -/
def Obligations.BusWidthsAreLittleEndian : Prop :=
  ∀ (m : Memory) (pa : PAddr), m.wf →
    m.read8 pa = m.read pa.toNat
    ∧ m.read16 pa = m.read (pa.toNat + 1) ++ m.read pa.toNat
    ∧ m.read32 pa = m.read (pa.toNat + 3) ++ m.read (pa.toNat + 2) ++ m.read (pa.toNat + 1) ++ m.read pa.toNat
    ∧ (∀ (v : BitVec 8) (a : Nat), (m.write8 pa v).wf
        ∧ (m.write8 pa v).read a = if a = pa.toNat then v else m.read a)
    ∧ (∀ (v : BitVec 16) (a : Nat), (m.write16 pa v).wf
        ∧ (m.write16 pa v).read a =
            if a = pa.toNat then v.extractLsb' 0 8 else if a = pa.toNat + 1 then v.extractLsb' 8 8 else m.read a)
    ∧ (∀ (v : BitVec 32) (a : Nat), (m.write32 pa v).wf
        ∧ (m.write32 pa v).read a =
            if a = pa.toNat then v.extractLsb' 0 8 else if a = pa.toNat + 1 then v.extractLsb' 8 8
            else if a = pa.toNat + 2 then v.extractLsb' 16 8 else if a = pa.toNat + 3 then v.extractLsb' 24 8
            else m.read a)

/-- Narrow reads after a 32-bit write see its bytes and halves (20_memory.md R75). -/
def Obligations.MixedWidthReadsSeeTheWordsBytes : Prop :=
  ∀ (m : Memory) (pa : PAddr) (v : Word), m.wf → pa.toNat + 3 < 2 ^ 34 →
    (m.write32 pa v).read8 pa = v.extractLsb' 0 8
    ∧ (m.write32 pa v).read8 (pa + 1) = v.extractLsb' 8 8
    ∧ (m.write32 pa v).read16 pa = v.extractLsb' 0 16
    ∧ (m.write32 pa v).read16 (pa + 2) = v.extractLsb' 16 16

/-- A word stored by SW is the word a following LW at the same address loads (20_memory.md R84, 43_load_store.md R258, 43_load_store.md R253). -/
def Obligations.StoreThenLoadReturnsTheWord : Prop :=
  ∀ (s t : State) (rs1 rs2 rd base : RegIdx) (imm imm' : BitVec 12) (pa : PAddr),
    s.mem.wf → (s.readX rs1 + imm.signExtend 32).toNat % 4 = 0 →
    mmuTranslate s (s.readX rs1 + imm.signExtend 32) .store 4 = .ok pa →
    exec (.sw rs1 rs2 imm) s = .next t →
    t.readX base + imm'.signExtend 32 = s.readX rs1 + imm.signExtend 32 →
    mmuTranslate t (s.readX rs1 + imm.signExtend 32) .load 4 = .ok pa →
    ∃ u, exec (.lw rd base imm') t = .next u ∧ u.readX rd = if rd = 0 then 0#32 else s.readX rs2

/-- A store of any width is seen by the very next instruction fetch, in each byte it wrote (20_memory.md R115, 20_memory.md R80). -/
def Obligations.StoredWordIsFetchedNext : Prop :=
  ∀ (s : State) (rs1 rs2 : RegIdx) (imm : BitVec 12), s.mem.wf →
    let ea := s.readX rs1 + imm.signExtend 32
    let seen (n : Nat) (i : Instr) : Prop := ∀ (t : State) (pa paF : PAddr),
      mmuTranslate s ea .store n = .ok pa → exec i s = .next t → mmuTranslate t t.pc .fetch 4 = .ok paF →
      ∃ w, fetch t = .ok w ∧ ∀ k, k < 4 →
        w.extractLsb' (8 * k) 8 =
          if pa.toNat ≤ paF.toNat + k ∧ paF.toNat + k < pa.toNat + n then
            (s.readX rs2).extractLsb' (8 * (paF.toNat + k - pa.toNat)) 8
          else s.mem.read (paF.toNat + k)
    seen 1 (.sb rs1 rs2 imm)
    ∧ (ea.toNat % 2 = 0 → seen 2 (.sh rs1 rs2 imm))
    ∧ (ea.toNat % 4 = 0 → seen 4 (.sw rs1 rs2 imm))

/-- Which mode an access translates in, and when translation is on (R88). -/
def Obligations.EffectiveModeAndTranslationSwitch : Prop :=
  ∀ (s : State) (intent : Intent),
    effMode s .fetch = s.mode
    ∧ (intent ≠ .fetch → effMode s intent =
        if s.mode = .machine ∧ s.csr.mstatus.mprv = true then s.csr.mstatus.mpp else s.mode)
    ∧ (translationOn s intent = true ↔ effMode s intent ≠ .machine ∧ s.csr.satp.getLsbD 31 = true)

/-- With translation off a virtual address is its own physical address, and no page fault is possible (R90). -/
def Obligations.BareTranslationIsTheIdentity : Prop :=
  ∀ (s : State) (va : Word) (intent : Intent) (n : Nat), translationOn s intent = false →
    (s.physValid (va.zeroExtend 34) n = true → mmuTranslate s va intent n = .ok (va.zeroExtend 34))
    ∧ (s.physValid (va.zeroExtend 34) n = false →
        ∃ t, mmuTranslate s va intent n = .error (.trap t) ∧ IsAccessFault intent va t)

/-- Translate of the loaded configuration keeps its contract: an address whose bytes exist, or a page or access fault of the access's intent (20_memory.md R85, 20_memory.md R86, 20_memory.md R108). -/
def Obligations.TranslateAnswersExistingBytesOrItsIntentsFault : Prop :=
  KeepsContract mmuTranslate

/-- A pointer entry and a usable leaf under it map a 4 KiB page (20_memory.md R97, 20_memory.md R93, 20_memory.md R108). -/
def Obligations.Sv32MapsASmallPage : Prop :=
  ∀ (s : State) (va : Word) (intent : Intent) (n : Nat) (pte1 pte0 : Word),
    translationOn s intent = true →
    s.physValid (rootEntryAddress s va) 4 = true → s.mem.read32 (rootEntryAddress s va) = pte1 → EntryPoints pte1 →
    s.physValid (leafEntryAddress pte1 va) 4 = true → s.mem.read32 (leafEntryAddress pte1 va) = pte0 →
    EntryIsLeaf pte0 → LeafUsable s pte0 intent →
    let pa : PAddr := pte0.extractLsb' 10 22 ++ va.extractLsb' 0 12
    (s.physValid pa n = true → mmuTranslate s va intent n = .ok pa)
    ∧ (s.physValid pa n = false → ∃ t, mmuTranslate s va intent n = .error (.trap t) ∧ IsAccessFault intent va t)

/-- A usable, aligned leaf in the root table maps a 4 MiB superpage (20_memory.md R97, 20_memory.md R91, 20_memory.md R108). -/
def Obligations.Sv32MapsASuperpage : Prop :=
  ∀ (s : State) (va : Word) (intent : Intent) (n : Nat) (pte1 : Word),
    translationOn s intent = true →
    s.physValid (rootEntryAddress s va) 4 = true → s.mem.read32 (rootEntryAddress s va) = pte1 →
    EntryIsLeaf pte1 → LeafUsable s pte1 intent → pte1.extractLsb' 10 10 = 0#10 →
    let pa : PAddr := pte1.extractLsb' 20 12 ++ va.extractLsb' 12 10 ++ va.extractLsb' 0 12
    (s.physValid pa n = true → mmuTranslate s va intent n = .ok pa)
    ∧ (s.physValid pa n = false → ∃ t, mmuTranslate s va intent n = .error (.trap t) ∧ IsAccessFault intent va t)

/-- Where Sv32 has no valid, permitted mapping the access page-faults; where an entry's address does not exist it access-faults (20_memory.md R97, 20_memory.md R106, 20_memory.md R109). -/
def Obligations.Sv32FaultsWithoutAPermittedMapping : Prop :=
  ∀ (s : State) (va : Word) (intent : Intent) (n : Nat) (pte1 pte0 : Word), translationOn s intent = true →
    let pageFaults := ∃ t, mmuTranslate s va intent n = .error (.trap t) ∧ IsPageFault intent va t
    let accessFaults := ∃ t, mmuTranslate s va intent n = .error (.trap t) ∧ IsAccessFault intent va t
    (s.physValid (rootEntryAddress s va) 4 = false → accessFaults)
    ∧ (s.physValid (rootEntryAddress s va) 4 = true → s.mem.read32 (rootEntryAddress s va) = pte1 →
        (EntryInvalid pte1 → pageFaults)
        ∧ (EntryIsLeaf pte1 → (¬ LeafUsable s pte1 intent ∨ pte1.extractLsb' 10 10 ≠ 0#10) → pageFaults)
        ∧ (EntryPoints pte1 → s.physValid (leafEntryAddress pte1 va) 4 = false → accessFaults)
        ∧ (EntryPoints pte1 → s.physValid (leafEntryAddress pte1 va) 4 = true →
            s.mem.read32 (leafEntryAddress pte1 va) = pte0 →
            (EntryInvalid pte0 ∨ EntryPoints pte0 ∨ (EntryIsLeaf pte0 ∧ ¬ LeafUsable s pte0 intent)) → pageFaults))

/-- Which leaf entries an access of mode U or S may use (R104). -/
def Obligations.PagePermissionsByIntentAndMode : Prop :=
  ∀ (s : State) (pte : Word) (m : Mode), m ≠ .machine →
    let dataU := if m = .user then pte.getLsbD 4 = true else pte.getLsbD 4 = false ∨ s.csr.mstatus.sum = true
    (permitted s pte .fetch m = true ↔
      pte.getLsbD 3 = true ∧ if m = .user then pte.getLsbD 4 = true else pte.getLsbD 4 = false)
    ∧ (permitted s pte .load m = true ↔
      (pte.getLsbD 1 = true ∨ (s.csr.mstatus.mxr = true ∧ pte.getLsbD 3 = true)) ∧ dataU)
    ∧ (permitted s pte .store m = true ↔ pte.getLsbD 2 = true ∧ dataU)

/-- PhysValid(pa, n) is each byte in a region of the host's map (the list of regions: model's choice, log entry 3); the default map is below 2^32 (00_scope.md R6, 20_memory.md R109). -/
def Obligations.PhysValidTestsEveryByte : Prop :=
  ∀ (s : State) (pa : PAddr) (n : Nat),
    (s.physValid pa n = true ↔
      ∀ k, k < n → ∃ r ∈ s.physMap, r.base ≤ pa.toNat + k ∧ pa.toNat + k < r.base + r.size)
    ∧ (s.physMap = Config.defaultPhysMap → 0 < n → (s.physValid pa n = true ↔ pa.toNat + n ≤ 2 ^ 32))

/-- LUI and AUIPC: their words, results and frame, in every state (R201, R202). -/
def Obligations.UpperImmediateResults : Prop :=
  ∀ (rd : RegIdx) (imm : BitVec 20) (s : State),
    WordRuns (imm ++ rd ++ 0b0110111#7) (.lui rd imm) s (fun t => WritesX s t rd (imm ++ 0#12) (s.pc + 4))
    ∧ WordRuns (imm ++ rd ++ 0b0010111#7) (.auipc rd imm) s
        (fun t => WritesX s t rd (s.pc + (imm ++ 0#12 : BitVec 32)) (s.pc + 4))

/-- ADDI, SLTI, SLTIU, XORI, ORI, ANDI: their words, results and frame, in every state (R203, R204, R205, R206, R207, R208). -/
def Obligations.RegisterImmediateResults : Prop :=
  ∀ (rd rs1 : RegIdx) (imm : BitVec 12) (s : State),
    let word (f3 : BitVec 3) : Word := imm ++ rs1 ++ f3 ++ rd ++ 0b0010011#7
    let result (v : Word) : State → Prop := fun t => WritesX s t rd v (s.pc + 4)
    let a := s.readX rs1
    let b : Word := imm.signExtend 32
    WordRuns (word 0b000#3) (.addi rd rs1 imm) s (result (a + b))
    ∧ WordRuns (word 0b010#3) (.slti rd rs1 imm) s (result (if a.toInt < b.toInt then 1#32 else 0#32))
    ∧ WordRuns (word 0b011#3) (.sltiu rd rs1 imm) s (result (if a.toNat < b.toNat then 1#32 else 0#32))
    ∧ WordRuns (word 0b100#3) (.xori rd rs1 imm) s (result (a ^^^ b))
    ∧ WordRuns (word 0b110#3) (.ori rd rs1 imm) s (result (a ||| b))
    ∧ WordRuns (word 0b111#3) (.andi rd rs1 imm) s (result (a &&& b))

/-- SLLI, SRLI, SRAI: their words, results and frame, and that every other funct7 is illegal (R209, R210, R211). -/
def Obligations.ShiftImmediateResults : Prop :=
  ∀ (rd rs1 : RegIdx) (shamt : BitVec 5) (f7 : BitVec 7) (s : State),
    let word (f7 : BitVec 7) (f3 : BitVec 3) : Word := f7 ++ shamt ++ rs1 ++ f3 ++ rd ++ 0b0010011#7
    let result (v : Word) : State → Prop := fun t => WritesX s t rd v (s.pc + 4)
    let illegal (w : Word) : Prop := ∃ t, execWord w s = .next t ∧ EntersException s t 2 w
    WordRuns (word 0b0000000#7 0b001#3) (.slli rd rs1 shamt) s (result (s.readX rs1 <<< shamt.toNat))
    ∧ WordRuns (word 0b0000000#7 0b101#3) (.srli rd rs1 shamt) s (result (s.readX rs1 >>> shamt.toNat))
    ∧ WordRuns (word 0b0100000#7 0b101#3) (.srai rd rs1 shamt) s (result ((s.readX rs1).sshiftRight shamt.toNat))
    ∧ (f7 ≠ 0b0000000#7 → illegal (word f7 0b001#3))
    ∧ (f7 ≠ 0b0000000#7 → f7 ≠ 0b0100000#7 → illegal (word f7 0b101#3))

/-- ADD, SUB, SLL, SLT, SLTU, XOR, SRL, SRA, OR, AND: their words, results and frame, in every state (R212, R213, R214, R215, R216, R217, R218, R219, R220, R221). -/
def Obligations.RegisterRegisterResults : Prop :=
  ∀ (rd rs1 rs2 : RegIdx) (s : State),
    let word (f7 : BitVec 7) (f3 : BitVec 3) : Word := f7 ++ rs2 ++ rs1 ++ f3 ++ rd ++ 0b0110011#7
    let result (v : Word) : State → Prop := fun t => WritesX s t rd v (s.pc + 4)
    let a := s.readX rs1
    let b := s.readX rs2
    let n := b.toNat % 32
    WordRuns (word 0b0000000#7 0b000#3) (.add rd rs1 rs2) s (result (a + b))
    ∧ WordRuns (word 0b0100000#7 0b000#3) (.sub rd rs1 rs2) s (result (a - b))
    ∧ WordRuns (word 0b0000000#7 0b001#3) (.sll rd rs1 rs2) s (result (a <<< n))
    ∧ WordRuns (word 0b0000000#7 0b010#3) (.slt rd rs1 rs2) s (result (if a.toInt < b.toInt then 1#32 else 0#32))
    ∧ WordRuns (word 0b0000000#7 0b011#3) (.sltu rd rs1 rs2) s (result (if a.toNat < b.toNat then 1#32 else 0#32))
    ∧ WordRuns (word 0b0000000#7 0b100#3) (.xor rd rs1 rs2) s (result (a ^^^ b))
    ∧ WordRuns (word 0b0000000#7 0b101#3) (.srl rd rs1 rs2) s (result (a >>> n))
    ∧ WordRuns (word 0b0100000#7 0b101#3) (.sra rd rs1 rs2) s (result (a.sshiftRight n))
    ∧ WordRuns (word 0b0000000#7 0b110#3) (.or rd rs1 rs2) s (result (a ||| b))
    ∧ WordRuns (word 0b0000000#7 0b111#3) (.and rd rs1 rs2) s (result (a &&& b))

/-- x0 reads 0 always and a write to it stores nothing; any other register reads the last value written (R21). -/
def Obligations.X0ReadsZeroAndDiscardsWrites : Prop :=
  ∀ (s : State) (i : RegIdx) (v : Word),
    s.readX 0 = 0#32
    ∧ (i ≠ 0 → (s.writeX i v).readX i = v)
    ∧ (∀ j, j ≠ i → (s.writeX i v).readX j = s.readX j)
    ∧ s.writeX 0 v = s

/-- JAL and JALR: their words, link, target and frame, and the trap of a misaligned target (R232, R233). -/
def Obligations.JumpsLinkAndTransfer : Prop :=
  ∀ (rd rs1 : RegIdx) (b20 b11 : BitVec 1) (b19 : BitVec 8) (b10 : BitVec 10) (imm : BitVec 12) (s : State),
    let off : BitVec 21 := b20 ++ b19 ++ b11 ++ b10 ++ 0#1
    let t1 := s.pc + off.signExtend 32
    let t2 := (s.readX rs1 + imm.signExtend 32) &&& 0xFFFFFFFE#32
    let jalrWord (f3 : BitVec 3) : Word := imm ++ rs1 ++ f3 ++ rd ++ 0b1100111#7
    let jumps (w : Word) (i : Instr) (target : Word) : Prop :=
      (target.extractLsb' 0 2 = 0#2 → WordRuns w i s (fun t => WritesX s t rd (s.pc + 4) target))
      ∧ (target.extractLsb' 0 2 ≠ 0#2 → WordRuns w i s (fun t => EntersException s t 0 target))
    jumps (b20 ++ b10 ++ b11 ++ b19 ++ rd ++ 0b1101111#7) (.jal rd off) t1
    ∧ jumps (jalrWord 0b000#3) (.jalr rd rs1 imm) t2
    ∧ ∀ f3 : BitVec 3, f3 ≠ 0b000#3 → ∃ t, execWord (jalrWord f3) s = .next t ∧ EntersException s t 2 (jalrWord f3)

/-- The six branches: their words, conditions, targets and frame, and the trap of a misaligned target (R234, R235, R236, R237, R238, R239). -/
def Obligations.BranchesTestAndTransfer : Prop :=
  ∀ (rs1 rs2 : RegIdx) (b12 b11 : BitVec 1) (b10 : BitVec 6) (b4 : BitVec 4) (s : State),
    let off : BitVec 13 := b12 ++ b11 ++ b10 ++ b4 ++ 0#1
    let word (f3 : BitVec 3) : Word := b12 ++ b10 ++ rs2 ++ rs1 ++ f3 ++ b4 ++ b11 ++ 0b1100011#7
    let target := s.pc + off.signExtend 32
    let a := s.readX rs1
    let b := s.readX rs2
    let tests (f3 : BitVec 3) (i : Instr) (cond : Prop) : Prop :=
      (cond → target.extractLsb' 0 2 = 0#2 → WordRuns (word f3) i s (fun t => MovesTo s t target))
      ∧ (cond → target.extractLsb' 0 2 ≠ 0#2 → WordRuns (word f3) i s (fun t => EntersException s t 0 target))
      ∧ (¬ cond → WordRuns (word f3) i s (fun t => MovesTo s t (s.pc + 4)))
    tests 0b000#3 (.beq rs1 rs2 off) (a = b)
    ∧ tests 0b001#3 (.bne rs1 rs2 off) (a ≠ b)
    ∧ tests 0b100#3 (.blt rs1 rs2 off) (a.toInt < b.toInt)
    ∧ tests 0b101#3 (.bge rs1 rs2 off) (b.toInt ≤ a.toInt)
    ∧ tests 0b110#3 (.bltu rs1 rs2 off) (a.toNat < b.toNat)
    ∧ tests 0b111#3 (.bgeu rs1 rs2 off) (b.toNat ≤ a.toNat)

/-- A jump or taken branch to a target with [1:0] not 00 raises code 0 with the target as its value and writes nothing else (R231). -/
def Obligations.MisalignedTargetTrapsOnTheTransfer : Prop :=
  ∀ (rd rs1 rs2 : RegIdx) (off21 : BitVec 21) (off13 : BitVec 13) (imm : BitVec 12) (s : State),
    let traps (i : Instr) (target : Word) : Prop :=
      target.extractLsb' 0 2 ≠ 0#2 → ∃ t, exec i s = .next t ∧ EntersException s t 0 target
    let target := s.pc + off13.signExtend 32
    let a := s.readX rs1
    let b := s.readX rs2
    let branches (i : Instr) (cond : Prop) : Prop :=
      (cond → traps i target) ∧ (¬ cond → exec i s = .next { s with pc := s.pc + 4 })
    traps (.jal rd off21) (s.pc + off21.signExtend 32)
    ∧ traps (.jalr rd rs1 imm) ((s.readX rs1 + imm.signExtend 32) &&& 0xFFFFFFFE#32)
    ∧ branches (.beq rs1 rs2 off13) (a = b) ∧ branches (.bne rs1 rs2 off13) (a ≠ b)
    ∧ branches (.blt rs1 rs2 off13) (a.toInt < b.toInt) ∧ branches (.bge rs1 rs2 off13) (b.toInt ≤ a.toInt)
    ∧ branches (.bltu rs1 rs2 off13) (a.toNat < b.toNat) ∧ branches (.bgeu rs1 rs2 off13) (b.toNat ≤ a.toNat)

/-- LB, LH, LW, LBU, LHU at an aligned, translated address: their words, results and frame (43_load_store.md R251, 43_load_store.md R252, 43_load_store.md R253, 43_load_store.md R254, 43_load_store.md R255, 20_memory.md R78). -/
def Obligations.LoadsReadTheirBytes : Prop :=
  ∀ (rd rs1 : RegIdx) (imm : BitVec 12) (s : State) (pa : PAddr),
    let word (f3 : BitVec 3) : Word := imm ++ rs1 ++ f3 ++ rd ++ 0b0000011#7
    let result (v : Word) : State → Prop := fun t => WritesX s t rd v (s.pc + 4)
    let ea := s.readX rs1 + imm.signExtend 32
    let byte : BitVec 8 := s.mem.read pa.toNat
    let half : BitVec 16 := s.mem.read (pa.toNat + 1) ++ s.mem.read pa.toNat
    let full : BitVec 32 := s.mem.read (pa.toNat + 3) ++ s.mem.read (pa.toNat + 2) ++ half
    (mmuTranslate s ea .load 1 = .ok pa →
      WordRuns (word 0b000#3) (.lb rd rs1 imm) s (result (byte.signExtend 32))
      ∧ WordRuns (word 0b100#3) (.lbu rd rs1 imm) s (result (byte.zeroExtend 32)))
    ∧ (ea.toNat % 2 = 0 → mmuTranslate s ea .load 2 = .ok pa →
      WordRuns (word 0b001#3) (.lh rd rs1 imm) s (result (half.signExtend 32))
      ∧ WordRuns (word 0b101#3) (.lhu rd rs1 imm) s (result (half.zeroExtend 32)))
    ∧ (ea.toNat % 4 = 0 → mmuTranslate s ea .load 4 = .ok pa →
      WordRuns (word 0b010#3) (.lw rd rs1 imm) s (result full))

/-- SB, SH, SW at an aligned, translated address: their words, the bytes they write and their frame (43_load_store.md R256, 43_load_store.md R257, 43_load_store.md R258, 20_memory.md R79). -/
def Obligations.StoresWriteTheirBytes : Prop :=
  ∀ (rs1 rs2 : RegIdx) (hi : BitVec 7) (lo : BitVec 5) (s : State) (pa : PAddr), s.mem.wf →
    let imm : BitVec 12 := hi ++ lo
    let word (f3 : BitVec 3) : Word := hi ++ rs2 ++ rs1 ++ f3 ++ lo ++ 0b0100011#7
    let ea := s.readX rs1 + imm.signExtend 32
    (mmuTranslate s ea .store 1 = .ok pa →
      WordRuns (word 0b000#3) (.sb rs1 rs2 imm) s (fun t => Stores s t pa 1 (s.readX rs2)))
    ∧ (ea.toNat % 2 = 0 → mmuTranslate s ea .store 2 = .ok pa →
      WordRuns (word 0b001#3) (.sh rs1 rs2 imm) s (fun t => Stores s t pa 2 (s.readX rs2)))
    ∧ (ea.toNat % 4 = 0 → mmuTranslate s ea .store 4 = .ok pa →
      WordRuns (word 0b010#3) (.sw rs1 rs2 imm) s (fun t => Stores s t pa 4 (s.readX rs2)))

/-- A misaligned halfword or word access raises code 4 or 6 with ea as its value, whatever translation would say (R81). -/
def Obligations.MisalignedDataAccessTrapsFirst : Prop :=
  ∀ (rd rs1 rs2 : RegIdx) (imm : BitVec 12) (s : State),
    let ea := s.readX rs1 + imm.signExtend 32
    let traps (i : Instr) (code : Word) : Prop := ∃ t, exec i s = .next t ∧ EntersException s t code ea
    (ea.getLsbD 0 = true → traps (.lh rd rs1 imm) 4 ∧ traps (.lhu rd rs1 imm) 4 ∧ traps (.sh rs1 rs2 imm) 6)
    ∧ (ea.extractLsb' 0 2 ≠ 0#2 → traps (.lw rd rs1 imm) 4 ∧ traps (.sw rs1 rs2 imm) 6)
    ∧ dataAddress mmuTranslate s ea .load .byte = mmuTranslate s ea .load 1
    ∧ dataAddress mmuTranslate s ea .store .byte = mmuTranslate s ea .store 1

/-- An aligned load or store whose translation raises takes code 13 or 5, 15 or 7, with ea as its value, and writes nothing (43_load_store.md R259, 60_exceptions.md R303, 43_load_store.md R260). -/
def Obligations.DataAccessFaultsTrapWithTheirCause : Prop :=
  ∀ (rd rs1 rs2 : RegIdx) (imm : BitVec 12) (s : State) (r : Raised),
    let ea := s.readX rs1 + imm.signExtend 32
    let takes (i : Instr) (page access : Word) (pageCause accessCause : ExceptionCause) : Prop :=
      (r = .trap (.exception pageCause (some ea)) ∧ ∃ t, exec i s = .next t ∧ EntersException s t page ea)
      ∨ (r = .trap (.exception accessCause (some ea)) ∧ ∃ t, exec i s = .next t ∧ EntersException s t access ea)
    let load (i : Instr) : Prop := takes i 13 5 .loadPageFault .loadAccessFault
    let store (i : Instr) : Prop := takes i 15 7 .storePageFault .storeAccessFault
    (mmuTranslate s ea .load 1 = .error r → load (.lb rd rs1 imm) ∧ load (.lbu rd rs1 imm))
    ∧ (ea.toNat % 2 = 0 → mmuTranslate s ea .load 2 = .error r → load (.lh rd rs1 imm) ∧ load (.lhu rd rs1 imm))
    ∧ (ea.toNat % 4 = 0 → mmuTranslate s ea .load 4 = .error r → load (.lw rd rs1 imm))
    ∧ (mmuTranslate s ea .store 1 = .error r → store (.sb rs1 rs2 imm))
    ∧ (ea.toNat % 2 = 0 → mmuTranslate s ea .store 2 = .error r → store (.sh rs1 rs2 imm))
    ∧ (ea.toNat % 4 = 0 → mmuTranslate s ea .store 4 = .error r → store (.sw rs1 rs2 imm))

/-- FENCE decodes whatever its fields hold and only advances pc (R270). -/
def Obligations.FenceOnlyAdvancesPc : Prop :=
  ∀ (fm pred succ : BitVec 4) (rs1 rd : RegIdx) (s : State),
    let word (f3 : BitVec 3) : Word := fm ++ pred ++ succ ++ rs1 ++ f3 ++ rd ++ 0b0001111#7
    WordRuns (word 0b000#3) (.fence fm pred succ rs1 rd) s
      (fun t => MovesTo s t (s.pc + 4))
    ∧ ∃ t, execWord (word 0b001#3) s = .next t ∧ EntersException s t 2 (word 0b001#3)

/-- ECALL and EBREAK: their words and the exception each always takes (R271, R272). -/
def Obligations.EcallAndEbreakTakeTheirExceptions : Prop :=
  ∀ s : State,
    WordRuns 0x00000073 .ecall s (fun t => EntersException s t
      (match s.mode with
        | .user => 8
        | .supervisor => 9
        | .machine => 11) 0)
    ∧ WordRuns 0x00100073 .ebreak s (fun t => EntersException s t 3 0)

/-- MRET in M restores the mode and the interrupt enable and jumps to mepc; below M it is illegal (R274). -/
def Obligations.MretReturnsFromTheTrap : Prop :=
  ∀ s : State,
    (s.mode = .machine → WordRuns 0x30200073 .mret s (fun t =>
      t = { s with
            mode := s.csr.mstatus.mpp
            pc := s.csr.mepc
            csr := { s.csr with
                     mstatus := { s.csr.mstatus with
                                  mie := s.csr.mstatus.mpie
                                  mpie := true
                                  mpp := .user
                                  mprv := if s.csr.mstatus.mpp = .machine then s.csr.mstatus.mprv else false } } }))
    ∧ (s.mode ≠ .machine → WordRuns 0x30200073 .mret s (fun t => EntersException s t 2 0x30200073))

/-- MRET right after a trap entry resumes the interrupted pc and mode with the interrupt enable restored (44_fence_system.md R274, 60_exceptions.md R310, 60_exceptions.md R314). -/
def Obligations.TrapThenMretResumes : Prop :=
  ∀ (s : State) (tr : Trap), s.pc.extractLsb' 0 2 = 0#2 →
    ∃ t, exec .mret (takeTrap tr s) = .next t ∧ t.pc = s.pc ∧ t.mode = s.mode
      ∧ t.csr.mstatus.mie = s.csr.mstatus.mie ∧ t.csr.mstatus.sum = s.csr.mstatus.sum
      ∧ t.csr.mstatus.mxr = s.csr.mstatus.mxr ∧ t.x = s.x ∧ t.f = s.f ∧ t.mem = s.mem
      ∧ t.csr.mscratch = s.csr.mscratch ∧ t.csr.mtvec = s.csr.mtvec ∧ t.csr.mie = s.csr.mie ∧ t.csr.satp = s.csr.satp

/-- Nine CSR addresses have entries; M may access all, S only satp, U none, and every other access is illegal (R51). -/
def Obligations.CsrAddressesAndTheirPrivilege : Prop :=
  (∀ (a : CsrAddr) (c : Csr), Csr.ofAddr? a = some c ↔
      (a, c) ∈ [(0x180#12, Csr.satp), (0x300#12, .mstatus), (0x304#12, .mie), (0x305#12, .mtvec), (0x340#12, .mscratch),
        (0x341#12, .mepc), (0x342#12, .mcause), (0x343#12, .mtval), (0x344#12, .mip)])
    ∧ ∀ (insn : Word) (a : CsrAddr) (v : Word) (s : State),
        (checkedCsrRead loadedCsr insn a s = .error (.trap (.exception .illegalInstruction (some insn))) ↔ ¬ CsrLegal s.mode a)
        ∧ (checkedCsrWrite loadedCsr insn a v s = .error (.trap (.exception .illegalInstruction (some insn))) ↔ ¬ CsrLegal s.mode a)

/-- Checked CSR access raises illegal-instruction with the word without an entry or from too low a mode, else it is the entry's own read or write (R37, R38). -/
def Obligations.CheckedCsrAccessTestsEntryThenMode : Prop :=
  ∀ (insn : Word) (a : CsrAddr) (v : Word) (s : State),
    (∀ bank : CsrLookup,
      let refuses : Prop :=
        checkedCsrRead bank insn a s = .error (.trap (.exception .illegalInstruction (some insn)))
        ∧ checkedCsrWrite bank insn a v s = .error (.trap (.exception .illegalInstruction (some insn)))
      (bank a = none → refuses)
      ∧ ∀ e, bank a = some e →
          (s.mode.number.toNat < e.required.number.toNat → refuses)
          ∧ (e.required.number.toNat ≤ s.mode.number.toNat →
              checkedCsrRead bank insn a s = e.read s ∧ checkedCsrWrite bank insn a v s = e.write v s))
    ∧ ∀ c, Csr.ofAddr? a = some c → c.requiredMode.number.toNat ≤ s.mode.number.toNat →
        checkedCsrRead loadedCsr insn a s = .ok (s.readCsr c, s)
        ∧ checkedCsrWrite loadedCsr insn a v s = .ok (s.writeCsr c v)

/-- CSRRW and CSRRWI: rd gets the old value, the entry is written, nothing else changes; where the access is illegal, the trap (R281, R284). -/
def Obligations.CsrSwapResults : Prop :=
  ∀ (rd : RegIdx) (a : CsrAddr) (rs1 : RegIdx) (uimm : BitVec 5) (s : State),
    let word (src : BitVec 5) (f3 : BitVec 3) : Word := a ++ src ++ f3 ++ rd ++ 0b1110011#7
    let traps (w : Word) (i : Instr) : Prop := WordRuns w i s (fun t => EntersException s t 2 w)
    (∀ c, Csr.ofAddr? a = some c → CsrLegal s.mode a →
      WordRuns (word rs1 0b001#3) (.csrrw rd a rs1) s
        (fun t => WritesX (s.writeCsr c (s.readX rs1)) t rd (s.readCsr c) (s.pc + 4))
      ∧ WordRuns (word uimm 0b101#3) (.csrrwi rd a uimm) s
        (fun t => WritesX (s.writeCsr c (uimm.zeroExtend 32)) t rd (s.readCsr c) (s.pc + 4)))
    ∧ (¬ CsrLegal s.mode a → traps (word rs1 0b001#3) (.csrrw rd a rs1) ∧ traps (word uimm 0b101#3) (.csrrwi rd a uimm))

/-- CSRRS, CSRRC, CSRRSI, CSRRCI: rd gets the old value, bits are set or cleared, no write for x0 or uimm 0; where illegal, the trap (R282, R283, R285, R286). -/
def Obligations.CsrSetAndClearResults : Prop :=
  ∀ (rd : RegIdx) (a : CsrAddr) (rs1 : RegIdx) (uimm : BitVec 5) (s : State),
    let m := s.readX rs1
    let u : Word := uimm.zeroExtend 32
    let word (src : BitVec 5) (f3 : BitVec 3) : Word := a ++ src ++ f3 ++ rd ++ 0b1110011#7
    let traps (w : Word) (i : Instr) : Prop := WordRuns w i s (fun t => EntersException s t 2 w)
    let result (c : Csr) (src : BitVec 5) (v : Word) : State → Prop :=
      fun t => WritesX (if src = 0 then s else s.writeCsr c v) t rd (s.readCsr c) (s.pc + 4)
    (∀ c, Csr.ofAddr? a = some c → CsrLegal s.mode a →
      WordRuns (word rs1 0b010#3) (.csrrs rd a rs1) s (result c rs1 (s.readCsr c ||| m))
      ∧ WordRuns (word rs1 0b011#3) (.csrrc rd a rs1) s (result c rs1 (s.readCsr c &&& ~~~m))
      ∧ WordRuns (word uimm 0b110#3) (.csrrsi rd a uimm) s (result c uimm (s.readCsr c ||| u))
      ∧ WordRuns (word uimm 0b111#3) (.csrrci rd a uimm) s (result c uimm (s.readCsr c &&& ~~~u)))
    ∧ (¬ CsrLegal s.mode a →
        traps (word rs1 0b010#3) (.csrrs rd a rs1) ∧ traps (word rs1 0b011#3) (.csrrc rd a rs1)
        ∧ traps (word uimm 0b110#3) (.csrrsi rd a uimm) ∧ traps (word uimm 0b111#3) (.csrrci rd a uimm))

/-- What every entry reads after a write, and that a CSR write changes nothing but its own entry (R41). -/
def Obligations.CsrWritesFollowTheirMasks : Prop :=
  ∀ (s : State) (v : Word),
    let after (c : Csr) : Word := (s.writeCsr c v).readCsr c
    let masked (c : Csr) (wm : Word) : Prop := after c = (s.readCsr c &&& ~~~wm) ||| (v &&& wm)
    masked .satp 0x803FFFFF ∧ masked .mie 0x00000888 ∧ masked .mtvec 0xFFFFFFFD ∧ masked .mscratch 0xFFFFFFFF
    ∧ masked .mepc 0xFFFFFFFC ∧ masked .mcause 0xFFFFFFFF ∧ masked .mtval 0xFFFFFFFF
    ∧ after .mip = s.readCsr .mip
    ∧ (after .mstatus = if v.extractLsb' 11 2 = 2#2 then (v &&& 0x000E0088) ||| (s.readCsr .mstatus &&& 0x00001800)
                        else v &&& 0x000E1888)
    ∧ (∀ c d : Csr, d ≠ c → (s.writeCsr c v).readCsr d = s.readCsr d)
    ∧ (∀ c : Csr, s.writeCsr c v = { s with csr := (s.writeCsr c v).csr })
    ∧ (s.Inv → s.readCsr .satp &&& ~~~0x803FFFFF#32 = 0#32 ∧ s.readCsr .mstatus &&& ~~~0x000E1888#32 = 0#32
        ∧ s.readCsr .mie &&& ~~~0x00000888#32 = 0#32 ∧ s.readCsr .mtvec &&& ~~~0xFFFFFFFD#32 = 0#32
        ∧ s.readCsr .mepc &&& ~~~0xFFFFFFFC#32 = 0#32)

/-- Where each field of mstatus and mip stands in the word software reads (10_state.md R42, 10_state.md R50). -/
def Obligations.MstatusAndMipFieldPositions : Prop :=
  ∀ s : State,
    let w := s.readCsr .mstatus
    let m := s.csr.mstatus
    let p := s.readCsr .mip
    w.getLsbD 3 = m.mie ∧ w.getLsbD 7 = m.mpie ∧ w.getLsbD 17 = m.mprv ∧ w.getLsbD 18 = m.sum ∧ w.getLsbD 19 = m.mxr
    ∧ (w.extractLsb' 11 2 = match m.mpp with
        | .user => 0#2
        | .supervisor => 1#2
        | .machine => 3#2)
    ∧ w &&& ~~~0x000E1888#32 = 0#32
    ∧ p.getLsbD 3 = s.irq.msip ∧ p.getLsbD 7 = s.irq.mtip ∧ p.getLsbD 11 = s.irq.meip ∧ p &&& ~~~0x00000888#32 = 0#32

/-- Raw CSR access makes no mode test, keeps the entry's write, halts without an entry (then step is a fault: model's choice, log entry 9) (10_state.md R39, 40_sequencer_dispatch.md R178, 60_exceptions.md R318). -/
def Obligations.RawCsrAccessSkipsTheModeTestOnly : Prop :=
  ∀ (bank : CsrLookup) (s : State) (a : CsrAddr) (v : Word),
    (∀ e, bank a = some e →
      (∀ w t, e.read s = .ok (w, t) → hostReadRawCsr bank a s = (some w, t))
      ∧ ∀ t, e.write v s = .ok t → hostWriteRawCsr bank a v s = t)
    ∧ (∀ c, Csr.ofAddr? a = some c →
      hostReadRawCsr loadedCsr a s = (some (s.readCsr c), s) ∧ hostWriteRawCsr loadedCsr a v s = s.writeCsr c v)
    ∧ (bank a = none →
      hostReadRawCsr bank a s = (none, { s with runState := .halted, haltReason := some .contractViolation })
      ∧ hostWriteRawCsr bank a v s = { s with runState := .halted, haltReason := some .contractViolation }
      ∧ step (hostWriteRawCsr bank a v s) = .fault .coreHalted)
    ∧ ((∀ r ∈ [0x300#12, 0x341#12, 0x342#12, 0x343#12, 0x305#12], ∃ e, bank r = some e
          ∧ (∀ u, ∃ p, e.read u = .ok p) ∧ ∀ w u, ∃ t, e.write w u = .ok t) →
        ∀ tr : Trap, ∃ t, takeTrapRaw bank tr s = .ok t ∧ t.mode = .machine ∧ t.pc.extractLsb' 0 2 = 0#2)

/-- Over every step, mode is unchanged, or a trap is entered from exactly the state before, or MRET returns to MPP (60_exceptions.md R322, 60_exceptions.md R302, 60_exceptions.md R303, 10_state.md R34). -/
def Obligations.ModeChangesOnlyByTrapAndMret : Prop :=
  ∀ s t : State, step s = .next t →
    t.mode = s.mode
    ∨ TakesListedTrap s t
    ∨ (s.mode = .machine ∧ fetch s = .ok 0x30200073#32 ∧ t.mode = s.csr.mstatus.mpp)

/-- Below M an instruction enters a trap or leaves every machine-level CSR and the mode unchanged (10_state.md R51, 60_exceptions.md R342, 60_exceptions.md R346). -/
def Obligations.LowerModesCannotChangeMachineCsrs : Prop :=
  ∀ (i : Instr) (s t : State), exec i s = .next t →
    (s.mode = .user → TakesListedTrap s t ∨ (t.mode = .user ∧ t.csr = s.csr))
    ∧ (s.mode = .supervisor →
        TakesListedTrap s t ∨ (t.mode = .supervisor ∧ t.csr = { s.csr with satp := t.csr.satp }))

/-- An instruction that completes in U behaves the same whatever the machine-level CSRs hold, apart from mstatus.MXR (10_state.md R51, 20_memory.md R88, 20_memory.md R104). -/
def Obligations.UserModeLearnsNothingOfMachineCsrsApartFromMxr : Prop :=
  ∀ (i : Instr) (s t : State) (b : CsrBank),
    s.mode = .user → b.satp = s.csr.satp → b.mstatus.mxr = s.csr.mstatus.mxr →
    exec i s = .next t → t.mode = .user →
    exec i { s with csr := b } = .next { t with csr := b }

/-- Memory is changed by SB, SH and SW alone: no other instruction, trap entry or page-table walk writes it (10_state.md R61, 20_memory.md R106, 60_exceptions.md R310). -/
def Obligations.OnlyStoresChangeMemory : Prop :=
  ∀ s t : State, step s = .next t → t.mem ≠ s.mem →
    ∃ w rs1 rs2 imm, fetch s = .ok w
      ∧ (decode w = .ok (.sb rs1 rs2 imm) ∨ decode w = .ok (.sh rs1 rs2 imm) ∨ decode w = .ok (.sw rs1 rs2 imm))

/-- No step changes the f registers, the interrupt inputs, added CSR values, the run state or the host's address map (10_state.md R30, 10_state.md R56, 60_exceptions.md R336). -/
def Obligations.NoStepTouchesFloatFileInputsOrAddressMap : Prop :=
  ∀ s t : State, step s = .next t →
    t.f = s.f ∧ t.irq = s.irq ∧ t.added = s.added ∧ t.physMap = s.physMap ∧ t.runState = s.runState ∧ t.haltReason = s.haltReason

/-- The CSR bank changes only by a CSR instruction, a trap entry or MRET (10_state.md R41, 60_exceptions.md R310, 44_fence_system.md R274). -/
def Obligations.CsrsChangeOnlyByCsrInstructionsTrapsAndMret : Prop :=
  ∀ (i : Instr) (s t : State), exec i s = .next t →
    i.mnemonic ∉ ["CSRRW", "CSRRS", "CSRRC", "CSRRWI", "CSRRSI", "CSRRCI", "MRET"] →
    TakesListedTrap s t ∨ (t.csr = s.csr ∧ t.mode = s.mode)

/-- The f file returns the last FLEN-bit value stored, f[0] included, in files of either width (seen as 64 bits: model's choice, log entry 4) (10_state.md R30, 10_state.md R31). -/
def Obligations.FloatRegistersStoreFlenBits : Prop :=
  ∀ (file : FRegs) (i j : RegIdx) (v : BitVec 64),
    (file.write i v).flen = file.flen
    ∧ (file.write i v).read j =
        if j = i then
          match file.flen with
          | .f32 => (v.extractLsb' 0 32).zeroExtend 64
          | .f64 => v
        else file.read j

/-- The core constructed from the loaded modules, dispatching through its tables and CSR entries, steps exactly as step does where mepc[1:0] = 0 (70_reset_and_hazards.md R370, 30_encoding.md R135, 30_encoding.md R139, 40_sequencer_dispatch.md R182, 40_sequencer_dispatch.md R179, 10_state.md R39, 60_exceptions.md R318). -/
def Obligations.DefaultCoreStepsAsTheMachine : Prop :=
  ∀ (bus : Memory) (fill : ResetFill),
    ∃ (b : Cpu) (s₀ : State), construct defaultConfiguration bus fill = some (b, s₀)
      ∧ ∀ s : State, s.csr.mepc.extractLsb' 0 2 = 0#2 → b.step s = step s
end

