-- ==== Sys2Proof/Laws/State.lean ====
section
/-!
SUPPORT. One lemma per field per update of the state, so that no later proof unfolds a record update.
-/

namespace Sys2Proof.Machine

/-! ## `x[r] <- v` -/

@[simp] theorem State.writeX_pc (s : State) (r : RegIdx) (v : Word) : (s.writeX r v).pc = s.pc := by unfold State.writeX; split <;> rfl
@[simp] theorem State.writeX_f (s : State) (r : RegIdx) (v : Word) : (s.writeX r v).f = s.f := by unfold State.writeX; split <;> rfl
@[simp] theorem State.writeX_mode (s : State) (r : RegIdx) (v : Word) : (s.writeX r v).mode = s.mode := by unfold State.writeX; split <;> rfl
@[simp] theorem State.writeX_csr (s : State) (r : RegIdx) (v : Word) : (s.writeX r v).csr = s.csr := by unfold State.writeX; split <;> rfl
@[simp] theorem State.writeX_irq (s : State) (r : RegIdx) (v : Word) : (s.writeX r v).irq = s.irq := by unfold State.writeX; split <;> rfl
@[simp] theorem State.writeX_runState (s : State) (r : RegIdx) (v : Word) : (s.writeX r v).runState = s.runState := by unfold State.writeX; split <;> rfl
@[simp] theorem State.writeX_haltReason (s : State) (r : RegIdx) (v : Word) : (s.writeX r v).haltReason = s.haltReason := by unfold State.writeX; split <;> rfl
@[simp] theorem State.writeX_mem (s : State) (r : RegIdx) (v : Word) : (s.writeX r v).mem = s.mem := by unfold State.writeX; split <;> rfl
@[simp] theorem State.writeX_added (s : State) (r : RegIdx) (v : Word) : (s.writeX r v).added = s.added := by unfold State.writeX; split <;> rfl
@[simp] theorem State.writeX_physMap (s : State) (r : RegIdx) (v : Word) : (s.writeX r v).physMap = s.physMap := by unfold State.writeX; split <;> rfl

@[simp] theorem State.writeX_zero (s : State) (v : Word) : s.writeX 0#5 v = s := rfl

/-! ## `pc <- t` -/

@[simp] theorem State.setPc_pc (s : State) (t : Word) : (s.setPc t).pc = t := rfl
@[simp] theorem State.setPc_x (s : State) (t : Word) : (s.setPc t).x = s.x := rfl
@[simp] theorem State.setPc_f (s : State) (t : Word) : (s.setPc t).f = s.f := rfl
@[simp] theorem State.setPc_mode (s : State) (t : Word) : (s.setPc t).mode = s.mode := rfl
@[simp] theorem State.setPc_csr (s : State) (t : Word) : (s.setPc t).csr = s.csr := rfl
@[simp] theorem State.setPc_irq (s : State) (t : Word) : (s.setPc t).irq = s.irq := rfl
@[simp] theorem State.setPc_runState (s : State) (t : Word) : (s.setPc t).runState = s.runState := rfl
@[simp] theorem State.setPc_haltReason (s : State) (t : Word) : (s.setPc t).haltReason = s.haltReason := rfl
@[simp] theorem State.setPc_mem (s : State) (t : Word) : (s.setPc t).mem = s.mem := rfl
@[simp] theorem State.setPc_added (s : State) (t : Word) : (s.setPc t).added = s.added := rfl
@[simp] theorem State.setPc_physMap (s : State) (t : Word) : (s.setPc t).physMap = s.physMap := rfl

/-! ## `pc <- pc + 4` -/

@[simp] theorem State.nextPc_pc (s : State) : s.nextPc.pc = s.pc + 4 := rfl
@[simp] theorem State.nextPc_x (s : State) : (s.nextPc).x = s.x := rfl
@[simp] theorem State.nextPc_f (s : State) : (s.nextPc).f = s.f := rfl
@[simp] theorem State.nextPc_mode (s : State) : (s.nextPc).mode = s.mode := rfl
@[simp] theorem State.nextPc_csr (s : State) : (s.nextPc).csr = s.csr := rfl
@[simp] theorem State.nextPc_irq (s : State) : (s.nextPc).irq = s.irq := rfl
@[simp] theorem State.nextPc_runState (s : State) : (s.nextPc).runState = s.runState := rfl
@[simp] theorem State.nextPc_haltReason (s : State) : (s.nextPc).haltReason = s.haltReason := rfl
@[simp] theorem State.nextPc_mem (s : State) : (s.nextPc).mem = s.mem := rfl
@[simp] theorem State.nextPc_added (s : State) : (s.nextPc).added = s.added := rfl
@[simp] theorem State.nextPc_physMap (s : State) : (s.nextPc).physMap = s.physMap := rfl

/-! ## `x[rd] <- v`, `pc <- pc + 4` -/

@[simp] theorem State.retire_pc (s : State) (rd : RegIdx) (v : Word) : (s.retire rd v).pc = s.pc + 4 := by
  simp [State.retire]
@[simp] theorem State.retire_x (s : State) (rd : RegIdx) (v : Word) : (s.retire rd v).x = (s.writeX rd v).x := rfl
@[simp] theorem State.retire_f (s : State) (rd : RegIdx) (v : Word) : (s.retire rd v).f = s.f := by simp [State.retire]
@[simp] theorem State.retire_mode (s : State) (rd : RegIdx) (v : Word) : (s.retire rd v).mode = s.mode := by simp [State.retire]
@[simp] theorem State.retire_csr (s : State) (rd : RegIdx) (v : Word) : (s.retire rd v).csr = s.csr := by simp [State.retire]
@[simp] theorem State.retire_irq (s : State) (rd : RegIdx) (v : Word) : (s.retire rd v).irq = s.irq := by simp [State.retire]
@[simp] theorem State.retire_runState (s : State) (rd : RegIdx) (v : Word) : (s.retire rd v).runState = s.runState := by simp [State.retire]
@[simp] theorem State.retire_haltReason (s : State) (rd : RegIdx) (v : Word) : (s.retire rd v).haltReason = s.haltReason := by simp [State.retire]
@[simp] theorem State.retire_mem (s : State) (rd : RegIdx) (v : Word) : (s.retire rd v).mem = s.mem := by simp [State.retire]
@[simp] theorem State.retire_added (s : State) (rd : RegIdx) (v : Word) : (s.retire rd v).added = s.added := by simp [State.retire]
@[simp] theorem State.retire_physMap (s : State) (rd : RegIdx) (v : Word) : (s.retire rd v).physMap = s.physMap := by simp [State.retire]

/-! ## CSR writes -/

@[simp] theorem State.writeCsr_csr (s : State) (c : Csr) (v : Word) : (s.writeCsr c v).csr = s.csr.write c v := rfl
@[simp] theorem State.writeCsr_x (s : State) (c : Csr) (v : Word) : (s.writeCsr c v).x = s.x := rfl
@[simp] theorem State.writeCsr_pc (s : State) (c : Csr) (v : Word) : (s.writeCsr c v).pc = s.pc := rfl
@[simp] theorem State.writeCsr_f (s : State) (c : Csr) (v : Word) : (s.writeCsr c v).f = s.f := rfl
@[simp] theorem State.writeCsr_mode (s : State) (c : Csr) (v : Word) : (s.writeCsr c v).mode = s.mode := rfl
@[simp] theorem State.writeCsr_irq (s : State) (c : Csr) (v : Word) : (s.writeCsr c v).irq = s.irq := rfl
@[simp] theorem State.writeCsr_runState (s : State) (c : Csr) (v : Word) : (s.writeCsr c v).runState = s.runState := rfl
@[simp] theorem State.writeCsr_haltReason (s : State) (c : Csr) (v : Word) : (s.writeCsr c v).haltReason = s.haltReason := rfl
@[simp] theorem State.writeCsr_mem (s : State) (c : Csr) (v : Word) : (s.writeCsr c v).mem = s.mem := rfl
@[simp] theorem State.writeCsr_added (s : State) (c : Csr) (v : Word) : (s.writeCsr c v).added = s.added := rfl
@[simp] theorem State.writeCsr_physMap (s : State) (c : Csr) (v : Word) : (s.writeCsr c v).physMap = s.physMap := rfl

/-! ## Added CSR entries -/

@[simp] theorem State.writeAdded_x (s : State) (a : CsrAddr) (v : Word) : (s.writeAdded a v).x = s.x := rfl
@[simp] theorem State.writeAdded_pc (s : State) (a : CsrAddr) (v : Word) : (s.writeAdded a v).pc = s.pc := rfl
@[simp] theorem State.writeAdded_f (s : State) (a : CsrAddr) (v : Word) : (s.writeAdded a v).f = s.f := rfl
@[simp] theorem State.writeAdded_mode (s : State) (a : CsrAddr) (v : Word) : (s.writeAdded a v).mode = s.mode := rfl
@[simp] theorem State.writeAdded_csr (s : State) (a : CsrAddr) (v : Word) : (s.writeAdded a v).csr = s.csr := rfl
@[simp] theorem State.writeAdded_irq (s : State) (a : CsrAddr) (v : Word) : (s.writeAdded a v).irq = s.irq := rfl
@[simp] theorem State.writeAdded_runState (s : State) (a : CsrAddr) (v : Word) : (s.writeAdded a v).runState = s.runState := rfl
@[simp] theorem State.writeAdded_haltReason (s : State) (a : CsrAddr) (v : Word) :
    (s.writeAdded a v).haltReason = s.haltReason := rfl
@[simp] theorem State.writeAdded_mem (s : State) (a : CsrAddr) (v : Word) : (s.writeAdded a v).mem = s.mem := rfl
@[simp] theorem State.writeAdded_physMap (s : State) (a : CsrAddr) (v : Word) : (s.writeAdded a v).physMap = s.physMap := rfl

/-- What an added entry reads after a write: the value at the address written, where the address is registered. -/
theorem State.readAdded_writeAdded (s : State) (a b : CsrAddr) (v : Word) :
    (s.writeAdded a v).readAdded b = if b = a ∧ a ∈ s.added.map Prod.fst then v else s.readAdded b := by
  unfold State.readAdded State.writeAdded
  generalize s.added = l
  induction l with
  | nil => simp
  | cons e rest ih =>
    obtain ⟨k, u⟩ := e
    by_cases hk : k = a
    · by_cases hb : b = k
      · simp [hk, hb ▸ hk]
      · have hba : b ≠ a := hk ▸ hb
        simpa [List.lookup, hk, beq_false_of_ne hba, hba] using ih
    · by_cases hb : b = k
      · have hba : b ≠ a := hb ▸ hk
        simp [List.lookup, hk, hb]
      · simpa [List.lookup, hk, beq_false_of_ne hb, Ne.symm hk, eq_comm] using ih

/-! ## Taking a trap and returning from one -/

@[simp] theorem takeTrap_mode (t : Trap) (s : State) : (takeTrap t s).mode = .machine := rfl
@[simp] theorem takeTrap_pc (t : Trap) (s : State) :
    (takeTrap t s).pc = trapVector s.csr.mtvec t.isInterrupt t.code := rfl
@[simp] theorem takeTrap_mepc (t : Trap) (s : State) : (takeTrap t s).csr.mepc = s.pc &&& 0xFFFFFFFC := rfl
@[simp] theorem takeTrap_mcause (t : Trap) (s : State) : (takeTrap t s).csr.mcause = t.causeWord := rfl
@[simp] theorem takeTrap_mtval (t : Trap) (s : State) : (takeTrap t s).csr.mtval = t.valueWord := rfl
@[simp] theorem takeTrap_mstatus (t : Trap) (s : State) :
    (takeTrap t s).csr.mstatus = s.csr.mstatus.enterTrap s.mode := rfl
@[simp] theorem takeTrap_mie (t : Trap) (s : State) : (takeTrap t s).csr.mie = s.csr.mie := rfl
@[simp] theorem takeTrap_mtvec (t : Trap) (s : State) : (takeTrap t s).csr.mtvec = s.csr.mtvec := rfl
@[simp] theorem takeTrap_mscratch (t : Trap) (s : State) : (takeTrap t s).csr.mscratch = s.csr.mscratch := rfl
@[simp] theorem takeTrap_satp (t : Trap) (s : State) : (takeTrap t s).csr.satp = s.csr.satp := rfl
@[simp] theorem takeTrap_x (t : Trap) (s : State) : (takeTrap t s).x = s.x := rfl
@[simp] theorem takeTrap_f (t : Trap) (s : State) : (takeTrap t s).f = s.f := rfl
@[simp] theorem takeTrap_irq (t : Trap) (s : State) : (takeTrap t s).irq = s.irq := rfl
@[simp] theorem takeTrap_runState (t : Trap) (s : State) : (takeTrap t s).runState = s.runState := rfl
@[simp] theorem takeTrap_haltReason (t : Trap) (s : State) : (takeTrap t s).haltReason = s.haltReason := rfl
@[simp] theorem takeTrap_mem (t : Trap) (s : State) : (takeTrap t s).mem = s.mem := rfl
@[simp] theorem takeTrap_added (t : Trap) (s : State) : (takeTrap t s).added = s.added := rfl
@[simp] theorem takeTrap_physMap (t : Trap) (s : State) : (takeTrap t s).physMap = s.physMap := rfl

@[simp] theorem returnFromTrap_mode (s : State) : (returnFromTrap s).mode = s.csr.mstatus.mpp := rfl
@[simp] theorem returnFromTrap_pc (s : State) : (returnFromTrap s).pc = s.csr.mepc := rfl
@[simp] theorem returnFromTrap_csr (s : State) :
    (returnFromTrap s).csr = { s.csr with mstatus := s.csr.mstatus.leaveTrap } := rfl
@[simp] theorem returnFromTrap_x (s : State) : (returnFromTrap s).x = s.x := rfl
@[simp] theorem returnFromTrap_f (s : State) : (returnFromTrap s).f = s.f := rfl
@[simp] theorem returnFromTrap_irq (s : State) : (returnFromTrap s).irq = s.irq := rfl
@[simp] theorem returnFromTrap_runState (s : State) : (returnFromTrap s).runState = s.runState := rfl
@[simp] theorem returnFromTrap_haltReason (s : State) : (returnFromTrap s).haltReason = s.haltReason := rfl
@[simp] theorem returnFromTrap_mem (s : State) : (returnFromTrap s).mem = s.mem := rfl
@[simp] theorem returnFromTrap_added (s : State) : (returnFromTrap s).added = s.added := rfl
@[simp] theorem returnFromTrap_physMap (s : State) : (returnFromTrap s).physMap = s.physMap := rfl

/-! ## The host's inputs -/

@[simp] theorem driveIrq_irq (q : IrqInputs) (s : State) : (driveIrq q s).irq = q := rfl
@[simp] theorem driveIrq_x (q : IrqInputs) (s : State) : (driveIrq q s).x = s.x := rfl
@[simp] theorem driveIrq_pc (q : IrqInputs) (s : State) : (driveIrq q s).pc = s.pc := rfl
@[simp] theorem driveIrq_f (q : IrqInputs) (s : State) : (driveIrq q s).f = s.f := rfl
@[simp] theorem driveIrq_mode (q : IrqInputs) (s : State) : (driveIrq q s).mode = s.mode := rfl
@[simp] theorem driveIrq_csr (q : IrqInputs) (s : State) : (driveIrq q s).csr = s.csr := rfl
@[simp] theorem driveIrq_runState (q : IrqInputs) (s : State) : (driveIrq q s).runState = s.runState := rfl
@[simp] theorem driveIrq_haltReason (q : IrqInputs) (s : State) : (driveIrq q s).haltReason = s.haltReason := rfl
@[simp] theorem driveIrq_mem (q : IrqInputs) (s : State) : (driveIrq q s).mem = s.mem := rfl
@[simp] theorem driveIrq_added (q : IrqInputs) (s : State) : (driveIrq q s).added = s.added := rfl
@[simp] theorem driveIrq_physMap (q : IrqInputs) (s : State) : (driveIrq q s).physMap = s.physMap := rfl

/-! ## Registers: what reading sees after an update (R21, R22) -/

/-- Reading depends on the register file only. -/
theorem State.readX_congr {s t : State} (h : t.x = s.x) (r : RegIdx) : t.readX r = s.readX r := by
  simp [State.readX, h]

@[simp] theorem State.readX_zero (s : State) : s.readX 0#5 = 0#32 := rfl

@[simp] theorem State.readX_setPc (s : State) (t : Word) (r : RegIdx) : (s.setPc t).readX r = s.readX r := rfl
@[simp] theorem State.readX_nextPc (s : State) (r : RegIdx) : s.nextPc.readX r = s.readX r := rfl
@[simp] theorem State.readX_writeCsr (s : State) (c : Csr) (v : Word) (r : RegIdx) :
    (s.writeCsr c v).readX r = s.readX r := rfl
@[simp] theorem State.readX_takeTrap (t : Trap) (s : State) (r : RegIdx) : (takeTrap t s).readX r = s.readX r := rfl
@[simp] theorem State.readX_returnFromTrap (s : State) (r : RegIdx) : (returnFromTrap s).readX r = s.readX r := rfl

theorem State.readX_writeX (s : State) (rd : RegIdx) (v : Word) (r : RegIdx) :
    (s.writeX rd v).readX r = if r = rd ∧ rd ≠ 0#5 then v else s.readX r := by
  by_cases hd : rd = 0#5
  · subst hd
    simp
  · by_cases hr : r = rd
    · subst hr
      simp [State.writeX, State.readX, hd]
    · have hne : rd.toNat ≠ r.toNat := fun h => hr (BitVec.eq_of_toNat_eq h.symm)
      simp [State.writeX, State.readX, hd, hr, hne]

theorem State.readX_retire (s : State) (rd : RegIdx) (v : Word) (r : RegIdx) :
    (s.retire rd v).readX r = if r = rd ∧ rd ≠ 0#5 then v else s.readX r := by
  rw [← State.readX_writeX]
  rfl

/-- The stored entry of `x[0]` is never changed by a write. -/
theorem State.writeX_x0 (s : State) (rd : RegIdx) (v : Word) : (s.writeX rd v).x[0] = s.x[0] := by
  by_cases hd : rd = 0#5
  · simp [hd]
  · have hne : rd.toNat ≠ 0 := fun h => hd (BitVec.eq_of_toNat_eq h)
    simp [State.writeX, hd, hne]

/-- A retiring instruction leaves exactly what `WritesX` says. -/
theorem State.retire_writesX (s : State) (rd : RegIdx) (v : Word) : WritesX s (s.retire rd v) rd v (s.pc + 4) := by
  refine ⟨s.readX_retire rd v, by simp, ?_⟩
  by_cases hd : rd = 0#5 <;> simp [State.retire, State.writeX, State.nextPc, State.setPc, hd]

end Sys2Proof.Machine
end

