-- ==== Sys2Proof/Laws/Memory.lean ====
section
/-!
SUPPORT. The laws of memory: a read after a write, and that every memory operation keeps the canonical form.
-/

namespace Sys2Proof.Machine

/-! ## One byte -/

/-- Below the first listed address every byte is an unlisted one. -/
theorem Memory.read_of_lt_all {m : Memory} {a : Nat} (h : ∀ c ∈ m, a < c.1) : m.read a = Config.memFill := by
  induction m with
  | nil => rfl
  | cons c rest ih =>
    obtain ⟨k, b⟩ := c
    have hk : a < k := h (k, b) (by simp)
    have hne : k ≠ a := by omega
    simp only [Memory.read, if_neg hne]
    exact ih fun d hd => h d (by simp [hd])

theorem Memory.mem_write {m : Memory} {a : Nat} {b : Byte} {c : Host.Cell} (hc : c ∈ m.write a b) :
    c ∈ m ∨ (c = (a, b) ∧ b ≠ Config.memFill) := by
  induction m with
  | nil =>
    simp only [Memory.write] at hc
    split at hc <;> simp_all
  | cons d rest ih =>
    obtain ⟨k, e⟩ := d
    simp only [Memory.write] at hc
    split at hc
    · split at hc
      · exact .inl hc
      · rcases List.mem_cons.mp hc with h | h
        · exact .inr ⟨h, ‹_›⟩
        · exact .inl h
    · split at hc
      · split at hc
        · exact .inl (List.mem_cons_of_mem _ hc)
        · rcases List.mem_cons.mp hc with h | h
          · exact .inr ⟨h, ‹_›⟩
          · exact .inl (List.mem_cons_of_mem _ h)
      · rcases List.mem_cons.mp hc with h | h
        · exact .inl (by simp [h])
        · rcases ih h with h' | h'
          · exact .inl (List.mem_cons_of_mem _ h')
          · exact .inr h'

/-- Writing one byte keeps the canonical form. -/
theorem Memory.write_wf {m : Memory} (h : m.wf) (a : Nat) (b : Byte) : (m.write a b).wf := by
  refine ⟨?_, fun c hc => ?_⟩
  · have hs := h.1
    clear h
    induction m with
    | nil =>
      simp only [Memory.write]
      split <;> simp
    | cons d rest ih =>
      obtain ⟨k, e⟩ := d
      obtain ⟨hk, hrest⟩ := List.pairwise_cons.mp hs
      simp only [Memory.write]
      split
      · rename_i hlt
        split
        · exact hs
        · refine List.pairwise_cons.mpr ⟨fun c hc => ?_, hs⟩
          rcases List.mem_cons.mp hc with rfl | hc'
          · exact hlt
          · exact Nat.lt_trans hlt (hk c hc')
      · split
        · rename_i _ heq
          split
          · exact hrest
          · exact List.pairwise_cons.mpr ⟨fun c hc => by simpa [heq] using hk c hc, hrest⟩
        · refine List.pairwise_cons.mpr ⟨fun c hc => ?_, ih hrest⟩
          rcases Memory.mem_write hc with h' | ⟨rfl, _⟩
          · exact hk c h'
          · show k < a
            omega
  · rcases Memory.mem_write hc with h' | ⟨rfl, hb⟩
    · exact h.2 c h'
    · exact hb

/-- In a canonical memory a write is seen at its own address and nowhere else. -/
theorem Memory.read_write {m : Memory} (h : m.wf) (a : Nat) (b : Byte) (a' : Nat) :
    (m.write a b).read a' = if a' = a then b else m.read a' := by
  have hs := h.1
  clear h
  induction m with
  | nil =>
    simp only [Memory.write]
    split
    · rename_i hb
      split <;> simp [Memory.read, hb]
    · by_cases ha : a' = a
      · simp [Memory.read, ha]
      · simp [Memory.read, ha, Ne.symm ha]
  | cons d rest ih =>
    obtain ⟨k, e⟩ := d
    obtain ⟨hk, hrest⟩ := List.pairwise_cons.mp hs
    simp only [Memory.write]
    split
    · rename_i hlt
      split
      · rename_i hb
        by_cases ha : a' = a
        · rw [if_pos ha, hb, ha]
          refine Memory.read_of_lt_all fun c hc => ?_
          rcases List.mem_cons.mp hc with rfl | hc'
          · exact hlt
          · exact Nat.lt_trans hlt (hk c hc')
        · rw [if_neg ha]
      · by_cases ha : a' = a
        · simp [Memory.read, ha]
        · simp only [Memory.read, if_neg (Ne.symm ha), if_neg ha]
    · split
      · rename_i _ heq
        split
        · rename_i hb
          by_cases ha : a' = a
          · rw [if_pos ha, hb, ha]
            exact Memory.read_of_lt_all fun c hc => by simpa [heq] using hk c hc
          · have hka : k ≠ a' := by omega
            simp only [Memory.read, if_neg ha, if_neg hka]
        · by_cases ha : a' = a
          · simp [Memory.read, ha]
          · have hka : k ≠ a' := by omega
            simp only [Memory.read, if_neg (Ne.symm ha), if_neg ha, if_neg hka]
      · by_cases hka : k = a'
        · have ha : a' ≠ a := by omega
          simp only [Memory.read, if_pos hka, if_neg ha]
        · simp only [Memory.read, if_neg hka, ih hrest]

/-! ## The bus's widths (R74) -/

theorem Memory.write8_wf {m : Memory} (h : m.wf) {palen : Nat} (pa : BitVec palen) (v : BitVec 8) : (m.write8 pa v).wf :=
  Memory.write_wf h _ _

theorem Memory.write16_wf {m : Memory} (h : m.wf) {palen : Nat} (pa : BitVec palen) (v : BitVec 16) : (m.write16 pa v).wf :=
  Memory.write_wf (Memory.write_wf h _ _) _ _

theorem Memory.write32_wf {m : Memory} (h : m.wf) {palen : Nat} (pa : BitVec palen) (v : BitVec 32) : (m.write32 pa v).wf :=
  Memory.write_wf (Memory.write_wf (Memory.write_wf (Memory.write_wf h _ _) _ _) _ _) _ _

theorem Memory.read_write16 {m : Memory} (h : m.wf) {palen : Nat} (pa : BitVec palen) (v : BitVec 16) (a : Nat) :
    (m.write16 pa v).read a =
      if a = pa.toNat + 1 then v.extractLsb' 8 8 else if a = pa.toNat then v.extractLsb' 0 8 else m.read a := by
  rw [Memory.write16, Memory.read_write (Memory.write_wf h _ _), Memory.read_write h]

theorem Memory.read_write32 {m : Memory} (h : m.wf) {palen : Nat} (pa : BitVec palen) (v : BitVec 32) (a : Nat) :
    (m.write32 pa v).read a =
      if a = pa.toNat + 3 then byteOf v 3 else if a = pa.toNat + 2 then byteOf v 2
      else if a = pa.toNat + 1 then byteOf v 1 else if a = pa.toNat then byteOf v 0 else m.read a := by
  have h1 := Memory.write_wf h pa.toNat (byteOf v 0)
  have h2 := Memory.write_wf h1 (pa.toNat + 1) (byteOf v 1)
  have h3 := Memory.write_wf h2 (pa.toNat + 2) (byteOf v 2)
  rw [Memory.write32, Memory.read_write h3, Memory.read_write h2, Memory.read_write h1, Memory.read_write h]

/-- A word is its four bytes (R74). -/
theorem wordOfBytes_byteOf (v : Word) : wordOfBytes (byteOf v 0) (byteOf v 1) (byteOf v 2) (byteOf v 3) = v := by
  apply BitVec.eq_of_getLsbD_eq
  intro k hk
  simp only [wordOfBytes, byteOf, BitVec.getLsbD_append, BitVec.getLsbD_extractLsb']
  interval_cases k <;> simp

/-- The word just written is the word read. -/
theorem Memory.read32_write32 {m : Memory} (h : m.wf) {palen : Nat} (pa : BitVec palen) (v : Word) : (m.write32 pa v).read32 pa = v := by
  conv_rhs => rw [← wordOfBytes_byteOf v]
  simp [Memory.read32, Memory.read_write32 h]

/-- Two canonical memories that read alike are equal. -/
theorem Memory.ext_read {m n : Memory} (hm : m.wf) (hn : n.wf) (h : ∀ a, m.read a = n.read a) : m = n := by
  induction m generalizing n with
  | nil =>
    cases n with
    | nil => rfl
    | cons d rest =>
      obtain ⟨k, e⟩ := d
      exact absurd (by simpa [Memory.read] using (h k).symm) (hn.2 (k, e) (by simp))
  | cons c rest ih =>
    obtain ⟨k, b⟩ := c
    obtain ⟨hk, hrest⟩ := List.pairwise_cons.mp hm.1
    have hb : b ≠ Config.memFill := hm.2 (k, b) (by simp)
    cases n with
    | nil => exact absurd (by simpa [Memory.read] using h k) hb
    | cons d rest' =>
      obtain ⟨k', b'⟩ := d
      obtain ⟨hk', hrest'⟩ := List.pairwise_cons.mp hn.1
      have hb' : b' ≠ Config.memFill := hn.2 (k', b') (by simp)
      have below {r : Memory} {j : Nat} (hr : ∀ c ∈ r, j < c.1) (i : Nat) (hi : i ≤ j) :
          Memory.read r i = Config.memFill := Memory.read_of_lt_all fun c hc => Nat.lt_of_le_of_lt hi (hr c hc)
      have hkk : k = k' := by
        rcases Nat.lt_trichotomy k k' with hlt | heq | hgt
        · have := h k
          simp only [Memory.read, if_true, if_neg (Nat.ne_of_gt hlt), below hk' k hlt.le] at this
          exact absurd this hb
        · exact heq
        · have := h k'
          simp only [Memory.read, if_true, if_neg (Nat.ne_of_gt hgt), below hk k' hgt.le] at this
          exact absurd this.symm hb'
      subst hkk
      have hbb : b = b' := by simpa [Memory.read] using h k
      subst hbb
      have := ih ⟨hrest, fun c hc => hm.2 c (List.mem_cons_of_mem _ hc)⟩
        ⟨hrest', fun c hc => hn.2 c (List.mem_cons_of_mem _ hc)⟩ (fun a => by
          by_cases ha : k = a
          · subst ha
            rw [below hk k (Nat.le_refl _), below hk' k (Nat.le_refl _)]
          · simpa [Memory.read, ha] using h a)
      rw [this]

end Sys2Proof.Machine
end

