-- ==== Sys2Proof/Laws/Ops.lean ====
section
/-!
SUPPORT. One lemma per shared operation, saying once everything it can answer; later proofs cite these and unfold nothing.
-/

namespace Sys2Proof.Machine

/-! ## What raises -/

/-- Where an operation raises, it raises a trap of the loaded configuration's lists, never an unrecoverable error. -/
def OnlyListed {α : Type} (r : Result α) : Prop := ∀ e, r = .error e → ∃ t : Trap, e = .trap t ∧ t.Listed

theorem OnlyListed.ok {α : Type} (a : α) : OnlyListed (.ok a) := fun _ h => nomatch h

theorem OnlyListed.trap {α : Type} {t : Trap} (h : t.Listed) : OnlyListed (α := α) (.error (.trap t)) :=
  fun _ he => ⟨t, (Except.error.inj he).symm, h⟩

theorem OnlyListed.map {α β : Type} {r : Result α} (h : OnlyListed r) (f : α → β) : OnlyListed (r.map f) := by
  cases r with
  | ok a => exact .ok (f a)
  | error e => exact fun e' he => h e' (congrArg Except.error (Except.error.inj he))

theorem illegalInstruction_listed (insn : Word) : (illegalInstruction insn).Listed := by
  simp [illegalInstruction, Trap.Listed]

theorem pageFault_listed (intent : Intent) (va : Word) : (pageFault intent va).Listed := by
  cases intent <;> simp [pageFault, Trap.Listed]

theorem accessFault_listed (intent : Intent) (va : Word) : (accessFault intent va).Listed := by
  cases intent <;> simp [accessFault, Trap.Listed]

theorem misaligned_listed (intent : Intent) (va : Word) : (misaligned intent va).Listed := by
  cases intent <;> simp [misaligned, Trap.Listed]

theorem pendingInterrupt_listed {s : State} {t : Trap} (h : pendingInterrupt s = some t) : t.Listed := by
  unfold pendingInterrupt selectInterrupt at h
  dsimp only at h
  repeat' split at h
  all_goals first | (cases h; done) | (cases h; simp [Trap.Listed])

/-! ## Completing an instruction -/

/-- An instruction that can raise answers a next state: its own, or the trap entry of the state before it. -/
theorem complete_cases {s t : State} {r : Result State} (listed : OnlyListed r) (h : complete s r = .next t) :
    r = .ok t ∨ ∃ tr : Trap, tr.Listed ∧ r = .error (.trap tr) ∧ t = takeTrap tr s := by
  cases r with
  | ok u => exact .inl (by simpa [complete, completeWith] using h)
  | error e =>
    obtain ⟨tr, rfl, htr⟩ := listed e rfl
    exact .inr ⟨tr, htr, rfl, by simpa [complete, completeWith, recover] using h.symm⟩

@[simp] theorem complete_ok (s t : State) : complete s (.ok t) = .next t := rfl
@[simp] theorem complete_trap (s : State) (tr : Trap) : complete s (.error (.trap tr)) = .next (takeTrap tr s) := rfl

theorem complete_answers (s : State) (r : Result State) : ∃ t, complete s r = .next t := by
  cases r <;> exact ⟨_, rfl⟩

/-- R231: the two things a transfer can do. -/
theorem transfer_cases (t : Word) (s : State) :
    (t.extractLsb' 0 2 = 0#2 ∧ transfer t s = .ok (s.setPc t)) ∨
    (t.extractLsb' 0 2 ≠ 0#2 ∧ transfer t s = .error (.trap (.exception .instrAddressMisaligned (some t)))) := by
  by_cases h : t.extractLsb' 0 2 = 0#2
  · exact .inl ⟨h, by simp [transfer, h]⟩
  · exact .inr ⟨h, by simp [transfer, h]⟩

theorem transfer_listed (t : Word) (s : State) : OnlyListed (transfer t s) := by
  rcases transfer_cases t s with ⟨_, h⟩ | ⟨_, h⟩ <;> rw [h]
  · exact .ok _
  · exact .trap (by simp [Trap.Listed])

/-- A branch moves `pc` to `pc + 4` or to its aligned target, or raises on its misaligned target. -/
theorem branch_cases (cond : Word → Word → Bool) (rs1 rs2 : RegIdx) (off : BitVec 13) (s : State) :
    (cond (s.readX rs1) (s.readX rs2) = false ∧ branch cond rs1 rs2 off s = .ok s.nextPc) ∨
    (cond (s.readX rs1) (s.readX rs2) = true ∧ (s.pc + branchOffset off).extractLsb' 0 2 = 0#2 ∧
      branch cond rs1 rs2 off s = .ok (s.setPc (s.pc + branchOffset off))) ∨
    (cond (s.readX rs1) (s.readX rs2) = true ∧ (s.pc + branchOffset off).extractLsb' 0 2 ≠ 0#2 ∧
      branch cond rs1 rs2 off s =
        .error (.trap (.exception .instrAddressMisaligned (some (s.pc + branchOffset off))))) := by
  cases hc : cond (s.readX rs1) (s.readX rs2) with
  | false => exact .inl ⟨rfl, by simp [branch, hc]⟩
  | true =>
    rcases transfer_cases (s.pc + branchOffset off) s with ⟨ha, ht⟩ | ⟨ha, ht⟩
    · exact .inr (.inl ⟨rfl, ha, by simp [branch, hc, ht]⟩)
    · exact .inr (.inr ⟨rfl, ha, by simp [branch, hc, ht]⟩)

theorem branch_listed (cond : Word → Word → Bool) (rs1 rs2 : RegIdx) (off : BitVec 13) (s : State) :
    OnlyListed (branch cond rs1 rs2 off s) := by
  unfold branch
  split
  · exact transfer_listed _ _
  · exact .ok _

/-! ## The CSR bank -/

/-- R37, R38: what the legality test can answer, in any bank. -/
theorem csrCheck_cases (bank : CsrLookup) (insn : Word) (a : CsrAddr) (s : State) :
    (∃ e, bank a = some e ∧ s.mode.meets e.required = true ∧ csrCheck bank insn a s = .ok e) ∨
    ((∀ e, bank a = some e → s.mode.meets e.required = false) ∧
      csrCheck bank insn a s = .error (.trap (illegalInstruction insn))) := by
  cases hc : bank a with
  | none => exact .inr ⟨by simp, by simp [csrCheck, hc]⟩
  | some e =>
    cases hm : s.mode.meets e.required with
    | true => exact .inl ⟨e, rfl, hm, by simp [csrCheck, hc, hm]⟩
    | false => exact .inr ⟨by simp_all, by simp [csrCheck, hc, hm]⟩

/-- R281, R284, R287, R288: once an access is found legal no second test is made, whatever the entry's read leaves. -/
theorem csrSwap_legal {bank : CsrLookup} {insn : Word} {rd : RegIdx} {a : CsrAddr} {v : Word} {s : State} {e : CsrEntry}
    (h : csrCheck bank insn a s = .ok e) :
    csrSwap bank insn rd a v s =
      if rd = 0#5 then (e.write v s).map State.nextPc
      else (e.read s).bind fun p => (e.write v p.2).map fun u => u.retire rd p.1 := by
  simp only [csrSwap, h]
  split <;> rfl

/-- R282, R283, R285 to R288: likewise for the set and clear forms. -/
theorem csrUpdate_legal {bank : CsrLookup} {insn : Word} {rd : RegIdx} {a : CsrAddr} {writes : Bool} {update : Word → Word}
    {s : State} {e : CsrEntry} (h : csrCheck bank insn a s = .ok e) :
    csrUpdate bank insn rd a writes update s =
      (e.read s).bind fun p =>
        if writes then (e.write (update p.1) p.2).map fun u => u.retire rd p.1 else .ok (p.2.retire rd p.1) := by
  simp only [csrUpdate, h]
  cases writes <;> rfl

theorem csrSwap_illegal {bank : CsrLookup} {insn : Word} {a : CsrAddr} {s : State} {r : Raised}
    (h : csrCheck bank insn a s = .error r) (rd : RegIdx) (v : Word) : csrSwap bank insn rd a v s = .error r := by
  simp only [csrSwap, h]
  rfl

theorem csrUpdate_illegal {bank : CsrLookup} {insn : Word} {a : CsrAddr} {s : State} {r : Raised}
    (h : csrCheck bank insn a s = .error r) (rd : RegIdx) (writes : Bool) (update : Word → Word) :
    csrUpdate bank insn rd a writes update s = .error r := by
  simp only [csrUpdate, h]
  rfl

/-- The loaded bank holds the loaded entries and no others (R40). -/
theorem loadedCsr_eq (a : CsrAddr) : loadedCsr a = (Csr.ofAddr? a).map Csr.entry := rfl

/-- Every loaded entry is found at its own address. -/
@[simp] theorem loadedCsr_addr (c : Csr) : loadedCsr c.addr = some c.entry := by cases c <;> rfl

@[simp] theorem csrReadRaw_loaded (c : Csr) (s : State) : csrReadRaw loadedCsr c.addr s = .ok (s.readCsr c, s) := by
  simp [csrReadRaw, Csr.entry]

@[simp] theorem csrWriteRaw_loaded (c : Csr) (v : Word) (s : State) :
    csrWriteRaw loadedCsr c.addr v s = .ok (s.writeCsr c v) := by
  simp [csrWriteRaw, Csr.entry]

/-- R37, R38, R40: what the legality test can answer in the loaded bank. -/
theorem loadedCsr_check_cases (insn : Word) (a : CsrAddr) (s : State) :
    (∃ c, Csr.ofAddr? a = some c ∧ s.mode.meets c.requiredMode = true ∧ csrCheck loadedCsr insn a s = .ok c.entry) ∨
    ((∀ c, Csr.ofAddr? a = some c → s.mode.meets c.requiredMode = false) ∧
      csrCheck loadedCsr insn a s = .error (.trap (illegalInstruction insn))) := by
  rcases csrCheck_cases loadedCsr insn a s with ⟨e, he, hm, hk⟩ | ⟨hn, hk⟩
  · obtain ⟨c, hc, rfl⟩ := Option.map_eq_some_iff.mp he
    exact .inl ⟨c, hc, hm, hk⟩
  · exact .inr ⟨fun c hc => hn c.entry (by simp [loadedCsr_eq, hc]), hk⟩

/-- What `CSRRW` and `CSRRWI` can do: write the entry and give `rd` its old value, or raise. -/
theorem csrSwap_cases (insn : Word) (rd : RegIdx) (a : CsrAddr) (v : Word) (s : State) :
    (∃ c, Csr.ofAddr? a = some c ∧ s.mode.meets c.requiredMode = true ∧
      csrSwap loadedCsr insn rd a v s = .ok ((s.writeCsr c v).retire rd (s.readCsr c))) ∨
    ((∀ c, Csr.ofAddr? a = some c → s.mode.meets c.requiredMode = false) ∧
      csrSwap loadedCsr insn rd a v s = .error (.trap (illegalInstruction insn))) := by
  rcases loadedCsr_check_cases insn a s with ⟨c, hc, hm, hk⟩ | ⟨hn, hk⟩
  · refine .inl ⟨c, hc, hm, ?_⟩
    rw [csrSwap_legal hk]
    split
    · rename_i hd
      simp [Csr.entry, Except.map, State.retire, hd]
    · rfl
  · exact .inr ⟨hn, csrSwap_illegal hk rd v⟩

/-- What the set and clear forms can do: give `rd` the old value and write the entry when the form writes, or raise. -/
theorem csrUpdate_cases (insn : Word) (rd : RegIdx) (a : CsrAddr) (writes : Bool) (update : Word → Word) (s : State) :
    (∃ c, Csr.ofAddr? a = some c ∧ s.mode.meets c.requiredMode = true ∧
      csrUpdate loadedCsr insn rd a writes update s =
        .ok ((if writes then s.writeCsr c (update (s.readCsr c)) else s).retire rd (s.readCsr c))) ∨
    ((∀ c, Csr.ofAddr? a = some c → s.mode.meets c.requiredMode = false) ∧
      csrUpdate loadedCsr insn rd a writes update s = .error (.trap (illegalInstruction insn))) := by
  rcases loadedCsr_check_cases insn a s with ⟨c, hc, hm, hk⟩ | ⟨hn, hk⟩
  · refine .inl ⟨c, hc, hm, ?_⟩
    rw [csrUpdate_legal hk]
    cases writes <;> rfl
  · exact .inr ⟨hn, csrUpdate_illegal hk rd writes update⟩

theorem csrSwap_listed (insn : Word) (rd : RegIdx) (a : CsrAddr) (v : Word) (s : State) :
    OnlyListed (csrSwap loadedCsr insn rd a v s) := by
  rcases csrSwap_cases insn rd a v s with ⟨_, _, _, h⟩ | ⟨_, h⟩ <;> rw [h]
  · exact .ok _
  · exact .trap (illegalInstruction_listed insn)

theorem csrUpdate_listed (insn : Word) (rd : RegIdx) (a : CsrAddr) (writes : Bool) (update : Word → Word) (s : State) :
    OnlyListed (csrUpdate loadedCsr insn rd a writes update s) := by
  rcases csrUpdate_cases insn rd a writes update s with ⟨_, _, _, h⟩ | ⟨_, h⟩ <;> rw [h]
  · exact .ok _
  · exact .trap (illegalInstruction_listed insn)

/-- Bits of a masked write outside the mask that were 0 stay 0. -/
theorem maskedWrite_outside {mask s : Word} (h : s &&& ~~~mask = 0#32) (v : Word) :
    maskedWrite mask s v &&& ~~~mask = 0#32 := by
  have hcommon : v &&& mask &&& ~~~mask = 0#32 := by
    rw [BitVec.and_assoc]
    simp
  have hself : s &&& ~~~mask &&& ~~~mask = s &&& ~~~mask := by rw [BitVec.and_assoc, BitVec.and_self]
  have hdistrib (a b c : Word) : (a ||| b) &&& c = (a &&& c) ||| (b &&& c) := by
    apply BitVec.eq_of_getLsbD_eq
    intro k _
    simp only [BitVec.getLsbD_and, BitVec.getLsbD_or, Bool.and_or_distrib_right]
  rw [maskedWrite, hdistrib, hself, hcommon, h, BitVec.or_zero]

/-- U and S reach no entry but `satp`, and U reaches none (R51). -/
theorem Mode.user_meets (c : Csr) : Mode.meets .user c.requiredMode = false := by cases c <;> decide

theorem Mode.machine_meets (m : Mode) : Mode.meets .machine m = true := by cases m <;> decide

/-! ## Translation and the checked memory path -/

/-- R108: an address `Translate` returns exists on the host's bus. -/
theorem mmuTranslate_ok {s : State} {va : Word} {intent : Intent} {n : Nat} {pa : PAddr}
    (h : mmuTranslate s va intent n = .ok pa) : s.physValid pa n = true := by
  unfold mmuTranslate at h
  split at h
  · cases h
  · split at h
    · cases h
      assumption
    · cases h

theorem leafAddress_error {s : State} {intent : Intent} {va : Word} {level : Nat} {pte : Word} {r : Raised}
    (h : leafAddress s intent va level pte = .error r) : r = .trap (pageFault intent va) := by
  unfold leafAddress at h
  repeat' split at h
  all_goals first | exact (Except.error.inj h).symm | cases h

/-- A walk raises the page fault or the access fault of its intent. -/
theorem walk_error {s : State} {intent : Intent} {va : Word} {level : Nat} {table : PAddr} {r : Raised}
    (h : walk s intent va level table = .error r) : r = .trap (pageFault intent va) ∨ r = .trap (accessFault intent va) := by
  induction level generalizing table with
  | zero =>
    unfold walk at h
    dsimp only at h
    repeat' split at h
    all_goals first | exact .inr (Except.error.inj h).symm | exact .inl (Except.error.inj h).symm | exact .inl (leafAddress_error h)
  | succ below ih =>
    unfold walk at h
    dsimp only at h
    repeat' split at h
    all_goals first
      | exact .inr (Except.error.inj h).symm
      | exact .inl (Except.error.inj h).symm
      | exact .inl (leafAddress_error h)
      | exact ih h

/-- R86, R108: translation raises the page fault or the access fault of its intent. -/
theorem mmuTranslate_error {s : State} {va : Word} {intent : Intent} {n : Nat} {r : Raised}
    (h : mmuTranslate s va intent n = .error r) : r = .trap (pageFault intent va) ∨ r = .trap (accessFault intent va) := by
  unfold mmuTranslate at h
  split at h
  · rename_i r' hr
    cases h
    split at hr
    · exact walk_error hr
    · cases hr
  · split at h
    · cases h
    · exact .inr (Except.error.inj h).symm

theorem mmuTranslate_listed (s : State) (va : Word) (intent : Intent) (n : Nat) : OnlyListed (mmuTranslate s va intent n) := by
  intro r h
  rcases mmuTranslate_error h with rfl | rfl
  · exact ⟨_, rfl, pageFault_listed intent va⟩
  · exact ⟨_, rfl, accessFault_listed intent va⟩

theorem fetch_listed (s : State) : OnlyListed (fetch s) := (mmuTranslate_listed _ _ _ _).map _

theorem dataAddress_listed (s : State) (va : Word) (intent : Intent) (w : Width) :
    OnlyListed (dataAddress mmuTranslate s va intent w) := by
  unfold dataAddress
  split
  · exact .trap (misaligned_listed intent va)
  · exact mmuTranslate_listed _ _ _ _

/-- R78, R79: an aligned data access goes to the address `Translate` returns. -/
theorem dataAddress_aligned {palen : Nat} {tr : Translator palen} {s : State} {va : Word} {intent : Intent} {w : Width}
    (h : va.toNat % w.bytes = 0) : dataAddress tr s va intent w = tr s va intent w.bytes := by simp [dataAddress, h]

/-- R81: a misaligned data access raises before translation. -/
theorem dataAddress_misaligned {palen : Nat} {tr : Translator palen} {s : State} {va : Word} {intent : Intent} {w : Width}
    (h : va.toNat % w.bytes ≠ 0) : dataAddress tr s va intent w = .error (.trap (misaligned intent va)) := by
  simp [dataAddress, h]

/-- A load retires with the value read, or raises. -/
theorem loadInto_cases (rd : RegIdx) (r : Result Word) (s : State) :
    (∃ v, r = .ok v ∧ loadInto rd r s = .ok (s.retire rd v)) ∨ (∃ t, r = .error t ∧ loadInto rd r s = .error t) := by
  cases r with
  | ok v => exact .inl ⟨v, rfl, rfl⟩
  | error t => exact .inr ⟨t, rfl, rfl⟩

/-- A store advances `pc` in the state its write left, or raises. -/
theorem storeDone_cases (r : Result State) :
    (∃ u, r = .ok u ∧ storeDone r = .ok u.nextPc) ∨ (∃ t, r = .error t ∧ storeDone r = .error t) := by
  cases r with
  | ok u => exact .inl ⟨u, rfl, rfl⟩
  | error t => exact .inr ⟨t, rfl, rfl⟩

/-- A checked store changes memory only, at the address its data access has. -/
theorem memWrite8_ok {palen : Nat} {tr : Translator palen} {s u : State} {va : Word} {v : BitVec 8}
    (h : memWrite8 tr s va v = .ok u) :
    ∃ pa, dataAddress tr s va .store .byte = .ok pa ∧ u = { s with mem := s.mem.write8 pa v } := by
  unfold memWrite8 at h
  cases hd : dataAddress tr s va .store .byte with
  | error t => simp [hd, Except.map] at h
  | ok pa => exact ⟨pa, rfl, by simpa [hd, Except.map] using h.symm⟩

theorem memWrite16_ok {palen : Nat} {tr : Translator palen} {s u : State} {va : Word} {v : BitVec 16}
    (h : memWrite16 tr s va v = .ok u) :
    ∃ pa, dataAddress tr s va .store .half = .ok pa ∧ u = { s with mem := s.mem.write16 pa v } := by
  unfold memWrite16 at h
  cases hd : dataAddress tr s va .store .half with
  | error t => simp [hd, Except.map] at h
  | ok pa => exact ⟨pa, rfl, by simpa [hd, Except.map] using h.symm⟩

theorem memWrite32_ok {palen : Nat} {tr : Translator palen} {s u : State} {va : Word} {v : BitVec 32}
    (h : memWrite32 tr s va v = .ok u) :
    ∃ pa, dataAddress tr s va .store .word = .ok pa ∧ u = { s with mem := s.mem.write32 pa v } := by
  unfold memWrite32 at h
  cases hd : dataAddress tr s va .store .word with
  | error t => simp [hd, Except.map] at h
  | ok pa => exact ⟨pa, rfl, by simpa [hd, Except.map] using h.symm⟩

/-! ## The sequencer -/

/-- R170: everything a step can do. -/
theorem step_cases (s : State) :
    (s.runState = .halted ∧ step s = .fault .coreHalted) ∨
    (s.runState = .running ∧ ∃ t : Trap, pendingInterrupt s = some t ∧ t.Listed ∧ step s = .next (takeTrap t s)) ∨
    (s.runState = .running ∧ pendingInterrupt s = none ∧
      ((∃ t : Trap, fetch s = .error (.trap t) ∧ t.Listed ∧ step s = .next (takeTrap t s)) ∨
       ∃ insn, fetch s = .ok insn ∧
        ((∃ i, decode insn = .ok i ∧ step s = exec i s) ∨
         ∃ e, decode insn = .error e ∧ step s = .next (takeTrap (illegalInstruction insn) s)))) := by
  unfold step sequencerStep
  cases hr : s.runState with
  | halted => exact .inl ⟨rfl, rfl⟩
  | running =>
    refine .inr ?_
    cases hp : pendingInterrupt s with
    | some t => exact .inl ⟨rfl, t, rfl, pendingInterrupt_listed hp, rfl⟩
    | none =>
      refine .inr ⟨rfl, rfl, ?_⟩
      unfold runOne
      cases hf : fetch s with
      | error r =>
        obtain ⟨t, rfl, ht⟩ := fetch_listed s r hf
        exact .inl ⟨t, rfl, ht, rfl⟩
      | ok insn =>
        refine .inr ⟨insn, rfl, ?_⟩
        cases hd : decode insn with
        | ok i => exact .inl ⟨i, rfl, by simp [execWord, hd]⟩
        | error e => exact .inr ⟨e, rfl, by simp [execWord, hd]⟩

/-! ## Alignment of `pc` (R28) -/

/-- The trap vector is aligned, in direct and in vectored mode (R312). -/
theorem trapVector_aligned (mtvec : Word) (intr : Bool) (code : BitVec 31) :
    (trapVector mtvec intr code).extractLsb' 0 2 = 0#2 := by
  apply BitVec.eq_of_toNat_eq
  have hbase : (mtvec &&& 0xFFFFFFFC#32).toNat % 4 = 0 := by
    have : (mtvec &&& 0xFFFFFFFC#32).extractLsb' 0 2 = 0#2 := by
      apply BitVec.eq_of_getLsbD_eq
      intro k hk
      simp only [BitVec.getLsbD_extractLsb', BitVec.getLsbD_and]
      interval_cases k <;> simp
    have := congrArg BitVec.toNat this
    simpa [BitVec.extractLsb'_toNat] using this
  unfold trapVector
  split <;> simp [BitVec.extractLsb'_toNat, BitVec.toNat_add, BitVec.toNat_mul] at * <;> omega

theorem add_four_aligned {w : Word} (h : w.extractLsb' 0 2 = 0#2) : (w + 4#32).extractLsb' 0 2 = 0#2 := by
  apply BitVec.eq_of_toNat_eq
  have := congrArg BitVec.toNat h
  simp [BitVec.extractLsb'_toNat, BitVec.toNat_add] at *
  omega

end Sys2Proof.Machine
end

