-- ==== Sys2Proof/Laws/RawPath.lean ====
section
/-!
SUPPORT. The raw path (R39): over the loaded entries of R318 the trap path and the MMU do what the operations over the stored
CSRs say, and neither fails.
-/

namespace Sys2Proof.Machine

/-! ## `mstatus` as a word (R42) -/

/-- The fields of a word composed from fields are those fields. -/
theorem Mstatus.ofWord?_toWord (m : Mstatus) : Mstatus.ofWord? m.toWord = some m := by
  rcases m with ⟨_ | _, _ | _, _ | _ | _, _ | _, _ | _, _ | _⟩ <;> rfl

theorem Mstatus.mpp_toWord (m : Mstatus) : Mode.ofNumber? (m.toWord.extractLsb' 11 2) = some m.mpp := by
  rcases m with ⟨_ | _, _ | _, _ | _ | _, _ | _, _ | _, _ | _⟩ <;> rfl

theorem Mstatus.mie_toWord (m : Mstatus) : m.toWord.getLsbD 3 = m.mie := by
  rcases m with ⟨_ | _, _ | _, _ | _ | _, _ | _, _ | _, _ | _⟩ <;> rfl

/-- R310's changes to the word are those to the fields. -/
theorem Mstatus.write_enterTrap (m : Mstatus) (mode : Mode) : m.write (mstatusEnterTrap m.toWord mode) = m.enterTrap mode := by
  rcases m with ⟨_ | _, _ | _, _ | _ | _, _ | _, _ | _, _ | _⟩ <;> cases mode <;> rfl

/-- R274's changes to the word are those to the fields. -/
theorem Mstatus.write_leaveTrap (m : Mstatus) : m.write (mstatusLeaveTrap m.toWord m.mpp) = m.leaveTrap := by
  rcases m with ⟨_ | _, _ | _, _ | _ | _, _ | _, _ | _, _ | _⟩ <;> rfl

/-! ## Raw accesses of the loaded entries -/

theorem csrReadRaw_of_loadedRaw {bank : CsrLookup} (h : LoadedRaw bank) {c : Csr} (hc : c.addr ∈ Config.rawCsrs) (s : State) :
    csrReadRaw bank c.addr s = .ok (s.readCsr c, s) := by
  rw [csrReadRaw, h _ hc, loadedCsr_addr]
  rfl

theorem csrWriteRaw_of_loadedRaw {bank : CsrLookup} (h : LoadedRaw bank) {c : Csr} (hc : c.addr ∈ Config.rawCsrs) (v : Word)
    (s : State) : csrWriteRaw bank c.addr v s = .ok (s.writeCsr c v) := by
  rw [csrWriteRaw, h _ hc, loadedCsr_addr]
  rfl

theorem loadedRaw_loadedCsr : LoadedRaw loadedCsr := fun _ _ => rfl

/-! ## The trap path -/

/-- A write through the mask of `mepc` or of a register with a full mask stores what R310 writes. -/
theorem maskedWrite_full (s v : Word) : maskedWrite 0xFFFFFFFF s v = v := by
  rw [maskedWrite, show ~~~(0xFFFFFFFF : Word) = 0#32 from rfl, BitVec.and_zero, BitVec.zero_or]
  exact BitVec.and_allOnes

theorem maskedWrite_mepc {s : Word} (h : s.extractLsb' 0 2 = 0#2) (v : Word) :
    maskedWrite 0xFFFFFFFC s (v &&& 0xFFFFFFFC) = v &&& 0xFFFFFFFC := by
  have low (k : Nat) (hk : k < 2) : s.getLsbD k = false := by
    have := congrArg (fun b => b.getLsbD k) h
    simpa [hk] using this
  have h0 : s[0] = false := low 0 (by decide)
  have h1 : s[1] = false := low 1 (by decide)
  apply BitVec.eq_of_getLsbD_eq
  intro k hk
  simp only [maskedWrite, BitVec.getLsbD_or, BitVec.getLsbD_and]
  interval_cases k <;> simp [h0, h1]

/-- R310: over the loaded entries the raw `TakeTrap` is the one over the stored CSRs, in every state whose `mepc[1:0]` is 0, as
R46 has it. -/
theorem takeTrapRaw_of_loadedRaw {bank : CsrLookup} (h : LoadedRaw bank) (t : Trap) {s : State}
    (mepc : s.csr.mepc.extractLsb' 0 2 = 0#2) : takeTrapRaw bank t s = .ok (takeTrap t s) := by
  have inRaw : ∀ c ∈ [Csr.mstatus, .mtvec, .mepc, .mcause, .mtval], c.addr ∈ Config.rawCsrs := by decide
  simp only [takeTrapRaw, csrReadRaw_of_loadedRaw h (inRaw .mstatus (by decide)),
    csrReadRaw_of_loadedRaw h (inRaw .mtvec (by decide)), csrWriteRaw_of_loadedRaw h (inRaw .mepc (by decide)),
    csrWriteRaw_of_loadedRaw h (inRaw .mcause (by decide)), csrWriteRaw_of_loadedRaw h (inRaw .mtval (by decide)),
    csrWriteRaw_of_loadedRaw h (inRaw .mstatus (by decide)), bind, Except.bind, pure, Except.pure, State.writeCsr,
    CsrBank.write, State.readCsr, takeTrap, Csr.writeMask, maskedWrite_full, maskedWrite_mepc mepc, Mstatus.write_enterTrap]

/-- R274: over the loaded entries the raw return is the one over the stored CSRs. -/
theorem returnFromTrapRaw_of_loadedRaw {bank : CsrLookup} (h : LoadedRaw bank) (s : State) :
    returnFromTrapRaw bank s = .ok (returnFromTrap s) := by
  have inRaw : ∀ c ∈ [Csr.mstatus, .mepc], c.addr ∈ Config.rawCsrs := by decide
  simp only [returnFromTrapRaw, csrReadRaw_of_loadedRaw h (inRaw .mstatus (by decide)),
    csrReadRaw_of_loadedRaw h (inRaw .mepc (by decide)), csrWriteRaw_of_loadedRaw h (inRaw .mstatus (by decide)), bind,
    Except.bind, pure, Except.pure, State.readCsr, Mstatus.mpp_toWord, State.writeCsr, CsrBank.write, Mstatus.write_leaveTrap,
    returnFromTrap, State.setPc]

/-- R332: over the loaded entries the raw interrupt test is the one over the stored CSRs, and changes nothing. -/
theorem pendingInterruptRaw_of_loadedRaw {bank : CsrLookup} (h : LoadedRaw bank) (s : State) :
    pendingInterruptRaw bank s = .ok (pendingInterrupt s, s) := by
  have inRaw : ∀ c ∈ [Csr.mip, .mie, .mstatus], c.addr ∈ Config.rawCsrs := by decide
  simp only [pendingInterruptRaw, csrReadRaw_of_loadedRaw h (inRaw .mip (by decide)),
    csrReadRaw_of_loadedRaw h (inRaw .mie (by decide)), csrReadRaw_of_loadedRaw h (inRaw .mstatus (by decide)), bind,
    Except.bind, pure, Except.pure, State.readCsr, pendingInterrupt, Mstatus.mie_toWord]
  split
  · rfl
  · cases s.mode <;> cases s.csr.mstatus.mie <;> simp

/-- R108: over the loaded entries the MMU that reads raw is the one over the stored CSRs. -/
theorem mmuVia_of_loadedRaw {bank : CsrLookup} (h : LoadedRaw bank) : mmuVia bank = mmuTranslate := by
  have inRaw : ∀ c ∈ [Csr.satp, .mstatus], c.addr ∈ Config.rawCsrs := by decide
  funext s va intent n
  simp only [mmuVia, csrReadRaw_of_loadedRaw h (inRaw .satp (by decide)),
    csrReadRaw_of_loadedRaw h (inRaw .mstatus (by decide)), bind, Except.bind, State.readCsr, Mstatus.ofWord?_toWord]

/-- R274: what `MRET` can do in the loaded bank. -/
theorem behaveMret_cases (insn : Word) (s : State) :
    (s.mode = .machine ∧ behaveMret loadedCsr insn s = .ok (returnFromTrap s)) ∨
    (s.mode ≠ .machine ∧ behaveMret loadedCsr insn s = .error (.trap (illegalInstruction insn))) := by
  unfold behaveMret
  rw [returnFromTrapRaw_of_loadedRaw loadedRaw_loadedCsr]
  cases s.mode <;> simp [Mode.meets, Mode.number]

theorem behaveMret_listed (insn : Word) (s : State) : OnlyListed (behaveMret loadedCsr insn s) := by
  rcases behaveMret_cases insn s with ⟨_, h⟩ | ⟨_, h⟩ <;> rw [h]
  · exact .ok _
  · exact .trap (illegalInstruction_listed insn)

theorem behaveMret_ok {insn : Word} {s t : State} (h : behaveMret loadedCsr insn s = .ok t) :
    s.mode = .machine ∧ t = returnFromTrap s := by
  rcases behaveMret_cases insn s with ⟨hm, h'⟩ | ⟨_, h'⟩
  · exact ⟨hm, (Except.ok.inj (h'.symm.trans h)).symm⟩
  · cases h'.symm.trans h

end Sys2Proof.Machine
end

