-- ==== Sys2Proof/Laws/Exec.lean ====
section
/-!
SUPPORT. Inversion of `exec` and of `step`: everything an instruction can leave behind, said once, with the lemmas of the
shared shapes it rests on.
-/

namespace Sys2Proof.Machine

/-- The mnemonics of the instructions that can write a CSR other than by a trap. -/
def csrWriters : List String := ["CSRRW", "CSRRS", "CSRRC", "CSRRWI", "CSRRSI", "CSRRCI"]

/-- Everything the instruction `i` can leave behind when it takes `s` to `t`. -/
inductive ExecEffect (i : Instr) (s t : State) : Prop where
  /-- It raised, and the trap was taken on the state before it. -/
  | trap (tr : Trap) (listed : tr.Listed) (after : t = takeTrap tr s)
  /-- It wrote one x register and advanced `pc`. -/
  | retire (rd : RegIdx) (v : Word) (after : t = s.retire rd v)
  /-- It linked and jumped to an aligned target. -/
  | jump (rd : RegIdx) (v target : Word) (aligned : target.extractLsb' 0 2 = 0#2) (after : t = (s.writeX rd v).setPc target)
  /-- It branched to an aligned target. -/
  | branch (target : Word) (aligned : target.extractLsb' 0 2 = 0#2) (after : t = s.setPc target)
  /-- It only advanced `pc`. -/
  | advance (after : t = s.nextPc)
  | storeByte (rs1 rs2 : RegIdx) (imm : BitVec 12) (pa : PAddr) (v : BitVec 8) (is : i = .sb rs1 rs2 imm)
      (after : t = { s with mem := s.mem.write8 pa v }.nextPc)
  | storeHalf (rs1 rs2 : RegIdx) (imm : BitVec 12) (pa : PAddr) (v : BitVec 16) (is : i = .sh rs1 rs2 imm)
      (after : t = { s with mem := s.mem.write16 pa v }.nextPc)
  | storeWord (rs1 rs2 : RegIdx) (imm : BitVec 12) (pa : PAddr) (v : BitVec 32) (is : i = .sw rs1 rs2 imm)
      (after : t = { s with mem := s.mem.write32 pa v }.nextPc)
  /-- It wrote a CSR the mode may access, and then retired with a value for `rd`. -/
  | csrWrite (c : Csr) (v : Word) (rd : RegIdx) (old : Word) (is : i.mnemonic ∈ csrWriters)
      (legal : s.mode.meets c.requiredMode = true) (after : t = (s.writeCsr c v).retire rd old)
  /-- It returned from a trap. -/
  | trapReturn (is : i = .mret) (legal : s.mode = .machine) (after : t = returnFromTrap s)

/-! ## The shared shapes -/

/-- What a behaviour answers when its instruction completes with `next t`. -/
theorem ExecEffect.of_complete {i : Instr} {s t : State} {r : Result State} (listed : OnlyListed r)
    (h : complete s r = .next t) (ok : r = .ok t → ExecEffect i s t) : ExecEffect i s t := by
  rcases complete_cases listed h with hr | ⟨tr, htr, _, after⟩
  · exact ok hr
  · exact .trap tr htr after

theorem transfer_effect {i : Instr} {s t : State} {rd : RegIdx} {v target : Word}
    (h : transfer target (s.writeX rd v) = .ok t) : ExecEffect i s t := by
  rcases transfer_cases target (s.writeX rd v) with ⟨aligned, h'⟩ | ⟨_, h'⟩
  · exact .jump rd v target aligned (Except.ok.inj (h'.symm.trans h)).symm
  · cases h'.symm.trans h

theorem branch_effect {i : Instr} {s t : State} {cond : Word → Word → Bool} {rs1 rs2 : RegIdx} {off : BitVec 13}
    (h : branch cond rs1 rs2 off s = .ok t) : ExecEffect i s t := by
  rcases branch_cases cond rs1 rs2 off s with ⟨_, h'⟩ | ⟨_, aligned, h'⟩ | ⟨_, _, h'⟩
  · exact .advance (Except.ok.inj (h'.symm.trans h)).symm
  · exact .branch _ aligned (Except.ok.inj (h'.symm.trans h)).symm
  · cases h'.symm.trans h

theorem loadInto_effect {i : Instr} {s t : State} {rd : RegIdx} {r : Result Word}
    (h : loadInto rd r s = .ok t) : ExecEffect i s t := by
  rcases loadInto_cases rd r s with ⟨v, _, h'⟩ | ⟨tr, _, h'⟩
  · exact .retire rd v (Except.ok.inj (h'.symm.trans h)).symm
  · cases h'.symm.trans h

/-- A store that completes is its write with `pc` advanced. -/
theorem storeDone_ok {r : Result State} {t : State} (h : storeDone r = .ok t) : ∃ u, r = .ok u ∧ t = u.nextPc := by
  rcases storeDone_cases r with ⟨u, hu, h'⟩ | ⟨tr, _, h'⟩
  · exact ⟨u, hu, (Except.ok.inj (h'.symm.trans h)).symm⟩
  · cases h'.symm.trans h

theorem csrSwap_effect {i : Instr} {s t : State} {insn : Word} {rd : RegIdx} {a : CsrAddr} {v : Word}
    (is : i.mnemonic ∈ csrWriters) (h : csrSwap loadedCsr insn rd a v s = .ok t) : ExecEffect i s t := by
  rcases csrSwap_cases insn rd a v s with ⟨c, _, legal, h'⟩ | ⟨_, h'⟩
  · rw [h'] at h
    exact .csrWrite c v rd _ is legal (Except.ok.inj h).symm
  · cases h'.symm.trans h

theorem csrUpdate_effect {i : Instr} {s t : State} {insn : Word} {rd : RegIdx} {a : CsrAddr} {writes : Bool}
    {update : Word → Word} (is : i.mnemonic ∈ csrWriters)
    (h : csrUpdate loadedCsr insn rd a writes update s = .ok t) : ExecEffect i s t := by
  rcases csrUpdate_cases insn rd a writes update s with ⟨c, _, legal, h'⟩ | ⟨_, h'⟩
  · rw [h'] at h
    cases writes with
    | false => exact .retire rd _ (Except.ok.inj h).symm
    | true => exact .csrWrite c _ rd _ is legal (Except.ok.inj h).symm
  · cases h'.symm.trans h

/-! ## `exec` and `step` -/

/-- Every next state an instruction answers is one of the effects above. -/
theorem exec_effect {i : Instr} {s t : State} (h : exec i s = .next t) : ExecEffect i s t := by
  cases i with
  | jal => exact .of_complete (transfer_listed _ _) h transfer_effect
  | jalr => exact .of_complete (transfer_listed _ _) h transfer_effect
  | beq => exact .of_complete (branch_listed _ _ _ _ _) h (branch_effect (cond := fun a b => a == b))
  | bne => exact .of_complete (branch_listed _ _ _ _ _) h (branch_effect (cond := fun a b => a != b))
  | blt => exact .of_complete (branch_listed _ _ _ _ _) h (branch_effect (cond := ltSigned))
  | bge => exact .of_complete (branch_listed _ _ _ _ _) h (branch_effect (cond := fun a b => !ltSigned a b))
  | bltu => exact .of_complete (branch_listed _ _ _ _ _) h (branch_effect (cond := ltUnsigned))
  | bgeu => exact .of_complete (branch_listed _ _ _ _ _) h (branch_effect (cond := fun a b => !ltUnsigned a b))
  | lb => exact .of_complete ((((dataAddress_listed _ _ _ _).map _).map _).map _) h loadInto_effect
  | lh => exact .of_complete ((((dataAddress_listed _ _ _ _).map _).map _).map _) h loadInto_effect
  | lw => exact .of_complete (((dataAddress_listed _ _ _ _).map _).map _) h loadInto_effect
  | lbu => exact .of_complete ((((dataAddress_listed _ _ _ _).map _).map _).map _) h loadInto_effect
  | lhu => exact .of_complete ((((dataAddress_listed _ _ _ _).map _).map _).map _) h loadInto_effect
  | sb =>
    refine .of_complete (((dataAddress_listed _ _ _ _).map _).map _) h fun hr => ?_
    obtain ⟨u, hu, rfl⟩ := storeDone_ok hr
    obtain ⟨pa, _, rfl⟩ := memWrite8_ok hu
    exact .storeByte _ _ _ pa _ rfl rfl
  | sh =>
    refine .of_complete (((dataAddress_listed _ _ _ _).map _).map _) h fun hr => ?_
    obtain ⟨u, hu, rfl⟩ := storeDone_ok hr
    obtain ⟨pa, _, rfl⟩ := memWrite16_ok hu
    exact .storeHalf _ _ _ pa _ rfl rfl
  | sw =>
    refine .of_complete (((dataAddress_listed _ _ _ _).map _).map _) h fun hr => ?_
    obtain ⟨u, hu, rfl⟩ := storeDone_ok hr
    obtain ⟨pa, _, rfl⟩ := memWrite32_ok hu
    exact .storeWord _ _ _ pa _ rfl rfl
  | fence => exact .advance (Host.Outcome.next.inj h).symm
  | ecall => exact .trap _ (by cases s.mode <;> simp [envCallCause, Trap.Listed]) (Host.Outcome.next.inj h).symm
  | ebreak => exact .trap _ (by simp [Trap.Listed]) (Host.Outcome.next.inj h).symm
  | mret =>
    refine .of_complete (behaveMret_listed _ s) h fun hr => ?_
    obtain ⟨legal, after⟩ := behaveMret_ok hr
    exact .trapReturn rfl legal after
  | csrrw => exact .of_complete (csrSwap_listed _ _ _ _ _) h (csrSwap_effect (by simp [csrWriters, Instr.mnemonic]))
  | csrrwi => exact .of_complete (csrSwap_listed _ _ _ _ _) h (csrSwap_effect (by simp [csrWriters, Instr.mnemonic]))
  | csrrs => exact .of_complete (csrUpdate_listed _ _ _ _ _ _) h (csrUpdate_effect (by simp [csrWriters, Instr.mnemonic]))
  | csrrc => exact .of_complete (csrUpdate_listed _ _ _ _ _ _) h (csrUpdate_effect (by simp [csrWriters, Instr.mnemonic]))
  | csrrsi => exact .of_complete (csrUpdate_listed _ _ _ _ _ _) h (csrUpdate_effect (by simp [csrWriters, Instr.mnemonic]))
  | csrrci => exact .of_complete (csrUpdate_listed _ _ _ _ _ _) h (csrUpdate_effect (by simp [csrWriters, Instr.mnemonic]))
  | _ => exact .retire _ _ (Host.Outcome.next.inj h).symm

/-- `MRET` in machine mode returns from the trap, and below it is illegal. -/
theorem exec_mret (s : State) :
    exec .mret s = .next (if s.mode = .machine then returnFromTrap s else takeTrap (illegalInstruction (encode .mret)) s) := by
  rcases behaveMret_cases (encode .mret) s with ⟨hm, h⟩ | ⟨hm, h⟩ <;> simp [exec, execMret, h, hm]

/-- No instruction stops the machine: each answers a next state from every state (R178). -/
theorem exec_answers (i : Instr) (s : State) : ∃ t, exec i s = .next t := by
  cases i <;> first | exact ⟨_, rfl⟩ | exact complete_answers _ _

/-- Every next state a step answers is a trap entry or the effect of the instruction fetched. -/
theorem step_effect {s t : State} (h : step s = .next t) :
    TakesListedTrap s t ∨ ∃ w i, fetch s = .ok w ∧ decode w = .ok i ∧ ExecEffect i s t := by
  rcases step_cases s with ⟨_, h'⟩ | ⟨_, tr, _, ht, h'⟩ | ⟨_, _, ⟨tr, _, ht, h'⟩ | ⟨w, hf, ⟨i, hd, h'⟩ | ⟨e, _, h'⟩⟩⟩
  · rw [h'] at h
    cases h
  · exact .inl ⟨tr, ht, (Host.Outcome.next.inj (h'.symm.trans h)).symm⟩
  · exact .inl ⟨tr, ht, (Host.Outcome.next.inj (h'.symm.trans h)).symm⟩
  · exact .inr ⟨w, i, hf, hd, exec_effect (h'.symm.trans h)⟩
  · exact .inl ⟨_, illegalInstruction_listed w, (Host.Outcome.next.inj (h'.symm.trans h)).symm⟩

/-! ## What a trap entry, `mstatus` and `mip` look like -/

/-- Taking an exception leaves what `EntersException` says. -/
theorem takeTrap_entersException (c : ExceptionCause) (v : Option Word) (s : State) :
    EntersException s (takeTrap (.exception c v) s) (0#1 ++ c) (v.getD 0) := by
  simp [EntersException, EntersTrap, exceptionVector, takeTrap, trapVector, Trap.isInterrupt, Trap.code, Trap.causeWord,
    Trap.valueWord, Mstatus.enterTrap]

/-- The bits of `mstatus` as a word (R42). -/
theorem Mstatus.getLsbD_toWord (m : Mstatus) {k : Nat} (hk : k < 32) :
    m.toWord.getLsbD k =
      match k with
      | 3 => m.mie
      | 7 => m.mpie
      | 11 => m.mpp.number.getLsbD 0
      | 12 => m.mpp.number.getLsbD 1
      | 17 => m.mprv
      | 18 => m.sum
      | 19 => m.mxr
      | _ => false := by
  simp only [Mstatus.toWord, BitVec.getLsbD_append]
  interval_cases k <;> simp

/-- The bits of `mip` (R50). -/
theorem IrqInputs.getLsbD_mip (q : IrqInputs) {k : Nat} (hk : k < 32) :
    q.mip.getLsbD k =
      match k with
      | 3 => q.msip
      | 7 => q.mtip
      | 11 => q.meip
      | _ => false := by
  simp only [IrqInputs.mip, BitVec.getLsbD_append]
  interval_cases k <;> simp

end Sys2Proof.Machine
end

