-- ==== Sys2Proof/Laws/Cpu.lean ====
section
/-!
SUPPORT. Constructed cores: what construction answers, and everything a step of one can do.
-/

namespace Sys2Proof.Machine

/-- A list is free of collisions when no two of its members, at different places, collide. -/
theorem noCollision_iff {α : Type} (collides : α → α → Bool) (l : List α) :
    noCollision collides l = true ↔ l.Pairwise fun a b => collides a b = false := by
  induction l with
  | nil => simp [noCollision]
  | cons a rest ih => simp [noCollision, ih]

/-- R370: what construction answers, when it answers. -/
theorem construct_cases {c : Configuration} {bus : Memory} {fill : ResetFill} {b : Cpu} {s : State}
    (h : construct c bus fill = some (b, s)) :
    c.wellFormed = true ∧ b = c.build ∧
      s = c.build.resetTo c.resetVector fill
        { State.reset with f := FRegs.fill c.flen fill.f, mem := bus, physMap := c.physMap } := by
  unfold construct at h
  split at h
  · rename_i hw
    cases h
    exact ⟨hw, rfl, rfl⟩
  · cases h

/-- R136, R52: the dispatch keys and the CSR addresses of an accepted configuration are each used once. -/
theorem Configuration.wellFormed_iff (c : Configuration) :
    c.wellFormed = true ↔
      (c.instructions.map Instruction.row).Pairwise (fun d e => d.collides e = false) ∧
      (c.csrs.map CsrEntry.addr).Nodup ∧
      (∀ a ∈ Config.rawCsrs, a ∈ c.csrs.map CsrEntry.addr) ∧
      c.resetVector.extractLsb' 0 2 = 0#2 := by
  simp [Configuration.wellFormed, noCollision_iff, List.Nodup, and_assoc]

/-- An entry of the bank is found at its address (R36). -/
theorem Cpu.csr_isSome (b : Cpu) (a : CsrAddr) : (b.csr a).isSome = true ↔ a ∈ b.bank.map CsrEntry.addr := by
  simp [Cpu.csr, List.find?_isSome]

/-- The bank the loaded modules compose is the one of R40. -/
theorem defaultConfiguration_csr : defaultConfiguration.build.csr = loadedCsr := by
  funext a
  unfold loadedCsr
  cases h : Csr.ofAddr? a with
  | some c =>
    have : a = c.addr := by
      unfold Csr.ofAddr? at h
      split at h <;> cases h <;> rfl
    subst this
    cases c <;> rfl
  | none =>
    have absent : ∀ e ∈ loadedCsrs, ¬ (e.addr == a) = true := by
      intro e he hb
      obtain ⟨c, -, rfl⟩ := List.mem_map.mp he
      have : c.addr = a := by simpa [Csr.entry] using hb
      subst this
      cases c <;> cases h
    exact List.find?_eq_none.mpr absent

/-- R318: in an accepted configuration every CSR that the core uses raw is registered. -/
theorem Cpu.csr_raw {c : Configuration} (h : c.wellFormed = true) {a : CsrAddr} (ha : a ∈ Config.rawCsrs) :
    ∃ e, c.build.csr a = some e :=
  Option.isSome_iff_exists.mp ((c.build.csr_isSome a).mpr ((c.wellFormed_iff.mp h).2.2.1 a ha))

/-- R179, R318: the trap path fails for no want of an entry: where every entry it uses answers, it answers. -/
theorem takeTrapRaw_answers {bank : CsrLookup}
    (h : ∀ a ∈ [0x300#12, 0x341#12, 0x342#12, 0x343#12, 0x305#12], ∃ e, bank a = some e ∧ (∀ s, ∃ p, e.read s = .ok p) ∧
      ∀ v s, ∃ u, e.write v s = .ok u)
    (t : Trap) (s : State) : ∃ u, takeTrapRaw bank t s = .ok u ∧ u.mode = .machine ∧ u.pc.extractLsb' 0 2 = 0#2 := by
  have read {a : CsrAddr} (ha : a ∈ [0x300#12, 0x341#12, 0x342#12, 0x343#12, 0x305#12]) (s : State) : ∃ p, csrReadRaw bank a s = .ok p := by
    obtain ⟨e, he, hr, _⟩ := h a ha
    simpa [csrReadRaw, he] using hr s
  have write {a : CsrAddr} (ha : a ∈ [0x300#12, 0x341#12, 0x342#12, 0x343#12, 0x305#12]) (v : Word) (s : State) :
      ∃ u, csrWriteRaw bank a v s = .ok u := by
    obtain ⟨e, he, _, hw⟩ := h a ha
    simpa [csrWriteRaw, he] using hw v s
  obtain ⟨p, hp⟩ := read (a := Csr.mstatus.addr) (by decide) s
  obtain ⟨q, hq⟩ := read (a := Csr.mtvec.addr) (by decide) p.2
  obtain ⟨u1, h1⟩ := write (a := Csr.mepc.addr) (by decide) (s.pc &&& 0xFFFFFFFC) q.2
  obtain ⟨u2, h2⟩ := write (a := Csr.mcause.addr) (by decide) t.causeWord u1
  obtain ⟨u3, h3⟩ := write (a := Csr.mtval.addr) (by decide) t.valueWord u2
  obtain ⟨u4, h4⟩ := write (a := Csr.mstatus.addr) (by decide) (mstatusEnterTrap p.1 s.mode) u3
  refine ⟨{ u4 with mode := .machine, pc := trapVector q.1 t.isInterrupt t.code }, by simp only [takeTrapRaw, hp, hq, h1, h2, h3, h4, bind, Except.bind, pure,
    Except.pure], rfl, trapVector_aligned _ _ _⟩

/-- Where the raw entries are the loaded ones, a core takes a trap as `takeTrap` says. -/
theorem Cpu.takeTrap_of_loadedRaw {b : Cpu} (h : LoadedRaw b.csr) (t : Trap) {s : State}
    (mepc : s.csr.mepc.extractLsb' 0 2 = 0#2) : b.takeTrap t s = Machine.takeTrap t s := by
  simp [Cpu.takeTrap, takeTrapRaw_of_loadedRaw h t mepc]

/-- R136: the Instruction an accepted table finds for a word is the one that selects it. -/
theorem Cpu.decode_build {c : Configuration} (h : c.wellFormed = true) {insn : Word} {e : Instruction}
    (mem : e ∈ c.instructions) (selects : e.row.selects insn = true) : c.build.decode insn = some e := by
  have apart := (c.wellFormed_iff.mp h).1
  have overlap {d d' : Descriptor} (hd : d.selects insn = true) (hd' : d'.selects insn = true) : d.collides d' = true := by
    simp only [Descriptor.selects, beq_iff_eq] at hd hd'
    simp only [Descriptor.collides, ← hd, ← hd', beq_iff_eq]
    apply BitVec.eq_of_getLsbD_eq
    intro k _
    simp only [BitVec.getLsbD_and, BitVec.getLsbD_xor]
    cases insn.getLsbD k <;> cases d.mask.getLsbD k <;> cases d'.mask.getLsbD k <;> simp
  simp only [List.pairwise_map] at apart
  show c.instructions.find? _ = some e
  generalize c.instructions = l at mem apart
  induction l with
  | nil => cases mem
  | cons d rest ih =>
    simp only [List.pairwise_cons] at apart
    rcases List.mem_cons.mp mem with rfl | hm
    · simp [selects]
    · cases hd : d.row.selects insn with
      | true => exact absurd (apart.1 e hm) (by simp [overlap hd selects])
      | false => simpa [hd] using ih hm apart.2

/-- R170, R174, R175: everything a step of a core can do. -/
theorem Cpu.step_cases (b : Cpu) (s : State) :
    (s.runState = .halted ∧ b.step s = .fault .coreHalted) ∨
    (s.runState = .running ∧
      ((∃ r, pendingInterruptRaw b.csr s = .error r ∧ ∃ reason, b.step s = .next (halt reason s)) ∨
       (∃ t u, pendingInterruptRaw b.csr s = .ok (some t, u) ∧ b.step s = .next (b.takeTrap t u)) ∨
       ∃ u, pendingInterruptRaw b.csr s = .ok (none, u) ∧
        ((∃ r, fetchVia (b.translate b.csr) u = .error r ∧ b.step s = .next (recover b.takeTrap u r)) ∨
         ∃ insn, fetchVia (b.translate b.csr) u = .ok insn ∧
          b.step s = completeWith b.takeTrap u (b.execute insn u)))) := by
  unfold Cpu.step
  cases hr : s.runState with
  | halted => exact .inl ⟨rfl, rfl⟩
  | running =>
    refine .inr ⟨rfl, ?_⟩
    cases hp : pendingInterruptRaw b.csr s with
    | error r => exact .inl ⟨r, rfl, by cases r <;> exact ⟨_, rfl⟩⟩
    | ok p =>
      obtain ⟨_ | t, u⟩ := p
      · refine .inr (.inr ⟨u, rfl, ?_⟩)
        simp only [Cpu.runOne, Cpu.paths]
        cases hf : fetchVia (b.translate b.csr) u with
        | error r => exact .inl ⟨r, rfl, rfl⟩
        | ok insn => exact .inr ⟨insn, rfl, rfl⟩
      · exact .inr (.inl ⟨t, u, rfl, rfl⟩)

end Sys2Proof.Machine
end

