-- ==== Sys2Proof/Laws/Encoding.lean ====
section
/-!
SUPPORT. The fields of an encoded word: what each field extractor of the decoder reads from each format of the encoder
(30_encoding.md R131 to R133).
-/

namespace Sys2Proof

/-! ## R-type -/

@[simp] theorem opcodeOf_encodeR (f7 : BitVec 7) (rs2 rs1 : RegIdx) (f3 : BitVec 3) (rd : RegIdx) (op : BitVec 7) :
    opcodeOf (encodeR f7 rs2 rs1 f3 rd op) = op := by
  apply BitVec.eq_of_getLsbD_eq
  intro k hk
  simp only [encodeR, opcodeOf, BitVec.getLsbD_extractLsb', BitVec.getLsbD_append]
  interval_cases k <;> simp

@[simp] theorem rdOf_encodeR (f7 : BitVec 7) (rs2 rs1 : RegIdx) (f3 : BitVec 3) (rd : RegIdx) (op : BitVec 7) :
    rdOf (encodeR f7 rs2 rs1 f3 rd op) = rd := by
  apply BitVec.eq_of_getLsbD_eq
  intro k hk
  simp only [encodeR, rdOf, BitVec.getLsbD_extractLsb', BitVec.getLsbD_append]
  interval_cases k <;> simp

@[simp] theorem funct3Of_encodeR (f7 : BitVec 7) (rs2 rs1 : RegIdx) (f3 : BitVec 3) (rd : RegIdx) (op : BitVec 7) :
    funct3Of (encodeR f7 rs2 rs1 f3 rd op) = f3 := by
  apply BitVec.eq_of_getLsbD_eq
  intro k hk
  simp only [encodeR, funct3Of, BitVec.getLsbD_extractLsb', BitVec.getLsbD_append]
  interval_cases k <;> simp

@[simp] theorem rs1Of_encodeR (f7 : BitVec 7) (rs2 rs1 : RegIdx) (f3 : BitVec 3) (rd : RegIdx) (op : BitVec 7) :
    rs1Of (encodeR f7 rs2 rs1 f3 rd op) = rs1 := by
  apply BitVec.eq_of_getLsbD_eq
  intro k hk
  simp only [encodeR, rs1Of, BitVec.getLsbD_extractLsb', BitVec.getLsbD_append]
  interval_cases k <;> simp

@[simp] theorem rs2Of_encodeR (f7 : BitVec 7) (rs2 rs1 : RegIdx) (f3 : BitVec 3) (rd : RegIdx) (op : BitVec 7) :
    rs2Of (encodeR f7 rs2 rs1 f3 rd op) = rs2 := by
  apply BitVec.eq_of_getLsbD_eq
  intro k hk
  simp only [encodeR, rs2Of, BitVec.getLsbD_extractLsb', BitVec.getLsbD_append]
  interval_cases k <;> simp

@[simp] theorem shamtOf_encodeR (f7 : BitVec 7) (rs2 rs1 : RegIdx) (f3 : BitVec 3) (rd : RegIdx) (op : BitVec 7) :
    shamtOf (encodeR f7 rs2 rs1 f3 rd op) = rs2 := by
  apply BitVec.eq_of_getLsbD_eq
  intro k hk
  simp only [encodeR, shamtOf, BitVec.getLsbD_extractLsb', BitVec.getLsbD_append]
  interval_cases k <;> simp

@[simp] theorem funct7Of_encodeR (f7 : BitVec 7) (rs2 rs1 : RegIdx) (f3 : BitVec 3) (rd : RegIdx) (op : BitVec 7) :
    funct7Of (encodeR f7 rs2 rs1 f3 rd op) = f7 := by
  apply BitVec.eq_of_getLsbD_eq
  intro k hk
  simp only [encodeR, funct7Of, BitVec.getLsbD_extractLsb', BitVec.getLsbD_append]
  interval_cases k <;> simp

/-! ## I-type -/

@[simp] theorem opcodeOf_encodeI (imm : BitVec 12) (rs1 : RegIdx) (f3 : BitVec 3) (rd : RegIdx) (op : BitVec 7) :
    opcodeOf (encodeI imm rs1 f3 rd op) = op := by
  apply BitVec.eq_of_getLsbD_eq
  intro k hk
  simp only [encodeI, opcodeOf, BitVec.getLsbD_extractLsb', BitVec.getLsbD_append]
  interval_cases k <;> simp

@[simp] theorem rdOf_encodeI (imm : BitVec 12) (rs1 : RegIdx) (f3 : BitVec 3) (rd : RegIdx) (op : BitVec 7) :
    rdOf (encodeI imm rs1 f3 rd op) = rd := by
  apply BitVec.eq_of_getLsbD_eq
  intro k hk
  simp only [encodeI, rdOf, BitVec.getLsbD_extractLsb', BitVec.getLsbD_append]
  interval_cases k <;> simp

@[simp] theorem funct3Of_encodeI (imm : BitVec 12) (rs1 : RegIdx) (f3 : BitVec 3) (rd : RegIdx) (op : BitVec 7) :
    funct3Of (encodeI imm rs1 f3 rd op) = f3 := by
  apply BitVec.eq_of_getLsbD_eq
  intro k hk
  simp only [encodeI, funct3Of, BitVec.getLsbD_extractLsb', BitVec.getLsbD_append]
  interval_cases k <;> simp

@[simp] theorem rs1Of_encodeI (imm : BitVec 12) (rs1 : RegIdx) (f3 : BitVec 3) (rd : RegIdx) (op : BitVec 7) :
    rs1Of (encodeI imm rs1 f3 rd op) = rs1 := by
  apply BitVec.eq_of_getLsbD_eq
  intro k hk
  simp only [encodeI, rs1Of, BitVec.getLsbD_extractLsb', BitVec.getLsbD_append]
  interval_cases k <;> simp

@[simp] theorem uimmOf_encodeI (imm : BitVec 12) (rs1 : RegIdx) (f3 : BitVec 3) (rd : RegIdx) (op : BitVec 7) :
    uimmOf (encodeI imm rs1 f3 rd op) = rs1 := by
  apply BitVec.eq_of_getLsbD_eq
  intro k hk
  simp only [encodeI, uimmOf, BitVec.getLsbD_extractLsb', BitVec.getLsbD_append]
  interval_cases k <;> simp

@[simp] theorem immIOf_encodeI (imm : BitVec 12) (rs1 : RegIdx) (f3 : BitVec 3) (rd : RegIdx) (op : BitVec 7) :
    immIOf (encodeI imm rs1 f3 rd op) = imm := by
  apply BitVec.eq_of_getLsbD_eq
  intro k hk
  simp only [encodeI, immIOf, BitVec.getLsbD_extractLsb', BitVec.getLsbD_append]
  interval_cases k <;> simp

@[simp] theorem csrOf_encodeI (imm : BitVec 12) (rs1 : RegIdx) (f3 : BitVec 3) (rd : RegIdx) (op : BitVec 7) :
    csrOf (encodeI imm rs1 f3 rd op) = imm := by
  apply BitVec.eq_of_getLsbD_eq
  intro k hk
  simp only [encodeI, csrOf, BitVec.getLsbD_extractLsb', BitVec.getLsbD_append]
  interval_cases k <;> simp

@[simp] theorem fmOf_encodeI (fm pred succ : BitVec 4) (rs1 : RegIdx) (f3 : BitVec 3) (rd : RegIdx) (op : BitVec 7) :
    fmOf (encodeI (fm ++ pred ++ succ) rs1 f3 rd op) = fm := by
  apply BitVec.eq_of_getLsbD_eq
  intro k hk
  simp only [encodeI, fmOf, BitVec.getLsbD_extractLsb', BitVec.getLsbD_append]
  interval_cases k <;> simp

@[simp] theorem predOf_encodeI (fm pred succ : BitVec 4) (rs1 : RegIdx) (f3 : BitVec 3) (rd : RegIdx) (op : BitVec 7) :
    predOf (encodeI (fm ++ pred ++ succ) rs1 f3 rd op) = pred := by
  apply BitVec.eq_of_getLsbD_eq
  intro k hk
  simp only [encodeI, predOf, BitVec.getLsbD_extractLsb', BitVec.getLsbD_append]
  interval_cases k <;> simp

@[simp] theorem succOf_encodeI (fm pred succ : BitVec 4) (rs1 : RegIdx) (f3 : BitVec 3) (rd : RegIdx) (op : BitVec 7) :
    succOf (encodeI (fm ++ pred ++ succ) rs1 f3 rd op) = succ := by
  apply BitVec.eq_of_getLsbD_eq
  intro k hk
  simp only [encodeI, succOf, BitVec.getLsbD_extractLsb', BitVec.getLsbD_append]
  interval_cases k <;> simp

/-! ## S-type -/

@[simp] theorem opcodeOf_encodeS (imm : BitVec 12) (rs2 rs1 : RegIdx) (f3 : BitVec 3) (op : BitVec 7) :
    opcodeOf (encodeS imm rs2 rs1 f3 op) = op := by
  apply BitVec.eq_of_getLsbD_eq
  intro k hk
  simp only [encodeS, opcodeOf, BitVec.getLsbD_extractLsb', BitVec.getLsbD_append]
  interval_cases k <;> simp

@[simp] theorem funct3Of_encodeS (imm : BitVec 12) (rs2 rs1 : RegIdx) (f3 : BitVec 3) (op : BitVec 7) :
    funct3Of (encodeS imm rs2 rs1 f3 op) = f3 := by
  apply BitVec.eq_of_getLsbD_eq
  intro k hk
  simp only [encodeS, funct3Of, BitVec.getLsbD_extractLsb', BitVec.getLsbD_append]
  interval_cases k <;> simp

@[simp] theorem rs1Of_encodeS (imm : BitVec 12) (rs2 rs1 : RegIdx) (f3 : BitVec 3) (op : BitVec 7) :
    rs1Of (encodeS imm rs2 rs1 f3 op) = rs1 := by
  apply BitVec.eq_of_getLsbD_eq
  intro k hk
  simp only [encodeS, rs1Of, BitVec.getLsbD_extractLsb', BitVec.getLsbD_append]
  interval_cases k <;> simp

@[simp] theorem rs2Of_encodeS (imm : BitVec 12) (rs2 rs1 : RegIdx) (f3 : BitVec 3) (op : BitVec 7) :
    rs2Of (encodeS imm rs2 rs1 f3 op) = rs2 := by
  apply BitVec.eq_of_getLsbD_eq
  intro k hk
  simp only [encodeS, rs2Of, BitVec.getLsbD_extractLsb', BitVec.getLsbD_append]
  interval_cases k <;> simp

@[simp] theorem immSOf_encodeS (imm : BitVec 12) (rs2 rs1 : RegIdx) (f3 : BitVec 3) (op : BitVec 7) :
    immSOf (encodeS imm rs2 rs1 f3 op) = imm := by
  apply BitVec.eq_of_getLsbD_eq
  intro k hk
  simp only [encodeS, immSOf, BitVec.getLsbD_extractLsb', BitVec.getLsbD_append]
  interval_cases k <;> simp

/-! ## B-type -/

@[simp] theorem opcodeOf_encodeB (off : BitVec 13) (rs2 rs1 : RegIdx) (f3 : BitVec 3) (op : BitVec 7) :
    opcodeOf (encodeB off rs2 rs1 f3 op) = op := by
  apply BitVec.eq_of_getLsbD_eq
  intro k hk
  simp only [encodeB, opcodeOf, BitVec.getLsbD_extractLsb', BitVec.getLsbD_append]
  interval_cases k <;> simp

@[simp] theorem funct3Of_encodeB (off : BitVec 13) (rs2 rs1 : RegIdx) (f3 : BitVec 3) (op : BitVec 7) :
    funct3Of (encodeB off rs2 rs1 f3 op) = f3 := by
  apply BitVec.eq_of_getLsbD_eq
  intro k hk
  simp only [encodeB, funct3Of, BitVec.getLsbD_extractLsb', BitVec.getLsbD_append]
  interval_cases k <;> simp

@[simp] theorem rs1Of_encodeB (off : BitVec 13) (rs2 rs1 : RegIdx) (f3 : BitVec 3) (op : BitVec 7) :
    rs1Of (encodeB off rs2 rs1 f3 op) = rs1 := by
  apply BitVec.eq_of_getLsbD_eq
  intro k hk
  simp only [encodeB, rs1Of, BitVec.getLsbD_extractLsb', BitVec.getLsbD_append]
  interval_cases k <;> simp

@[simp] theorem rs2Of_encodeB (off : BitVec 13) (rs2 rs1 : RegIdx) (f3 : BitVec 3) (op : BitVec 7) :
    rs2Of (encodeB off rs2 rs1 f3 op) = rs2 := by
  apply BitVec.eq_of_getLsbD_eq
  intro k hk
  simp only [encodeB, rs2Of, BitVec.getLsbD_extractLsb', BitVec.getLsbD_append]
  interval_cases k <;> simp

/-- An even offset comes back whole: bit 0 is the hard 0 of the format (R133). -/
theorem immBOf_encodeB (off : BitVec 13) (rs2 rs1 : RegIdx) (f3 : BitVec 3) (op : BitVec 7) (h : evenOffset off = true) :
    immBOf (encodeB off rs2 rs1 f3 op) = off := by
  have h0 : off.getLsbD 0 = false := by simpa [evenOffset] using h
  apply BitVec.eq_of_getLsbD_eq
  intro k hk
  simp only [encodeB, immBOf, BitVec.getLsbD_extractLsb', BitVec.getLsbD_append]
  interval_cases k <;> simp_all

/-! ## U-type -/

@[simp] theorem opcodeOf_encodeU (imm : BitVec 20) (rd : RegIdx) (op : BitVec 7) :
    opcodeOf (encodeU imm rd op) = op := by
  apply BitVec.eq_of_getLsbD_eq
  intro k hk
  simp only [encodeU, opcodeOf, BitVec.getLsbD_extractLsb', BitVec.getLsbD_append]
  interval_cases k <;> simp

@[simp] theorem rdOf_encodeU (imm : BitVec 20) (rd : RegIdx) (op : BitVec 7) :
    rdOf (encodeU imm rd op) = rd := by
  apply BitVec.eq_of_getLsbD_eq
  intro k hk
  simp only [encodeU, rdOf, BitVec.getLsbD_extractLsb', BitVec.getLsbD_append]
  interval_cases k <;> simp

@[simp] theorem immUOf_encodeU (imm : BitVec 20) (rd : RegIdx) (op : BitVec 7) :
    immUOf (encodeU imm rd op) = imm := by
  apply BitVec.eq_of_getLsbD_eq
  intro k hk
  simp only [encodeU, immUOf, BitVec.getLsbD_extractLsb', BitVec.getLsbD_append]
  interval_cases k <;> simp

/-! ## J-type -/

@[simp] theorem opcodeOf_encodeJ (off : BitVec 21) (rd : RegIdx) (op : BitVec 7) :
    opcodeOf (encodeJ off rd op) = op := by
  apply BitVec.eq_of_getLsbD_eq
  intro k hk
  simp only [encodeJ, opcodeOf, BitVec.getLsbD_extractLsb', BitVec.getLsbD_append]
  interval_cases k <;> simp

@[simp] theorem rdOf_encodeJ (off : BitVec 21) (rd : RegIdx) (op : BitVec 7) :
    rdOf (encodeJ off rd op) = rd := by
  apply BitVec.eq_of_getLsbD_eq
  intro k hk
  simp only [encodeJ, rdOf, BitVec.getLsbD_extractLsb', BitVec.getLsbD_append]
  interval_cases k <;> simp

/-- An even offset comes back whole: bit 0 is the hard 0 of the format (R133). -/
theorem immJOf_encodeJ (off : BitVec 21) (rd : RegIdx) (op : BitVec 7) (h : evenOffset off = true) :
    immJOf (encodeJ off rd op) = off := by
  have h0 : off.getLsbD 0 = false := by simpa [evenOffset] using h
  apply BitVec.eq_of_getLsbD_eq
  intro k hk
  simp only [encodeJ, immJOf, BitVec.getLsbD_extractLsb', BitVec.getLsbD_append]
  interval_cases k <;> simp_all

/-- The bytes of a word, low byte first, are decoded as the word (R73, R130). -/
theorem decodeBytes_bytesOf (w : Word) (rest : List Byte) :
    decodeBytes (byteOf w 0 :: byteOf w 1 :: byteOf w 2 :: byteOf w 3 :: rest) =
      match decode w with
      | .ok i => .ok (i, rest)
      | .error e => .error e := by
  cases h : decode w <;> simp [decodeBytes, Machine.wordOfBytes_byteOf, h]

end Sys2Proof
end

