-- ==== Sys2Proof/Laws/PerInstr.lean ====
section
/-!
SUPPORT. Statements made of every instruction, one lemma per constructor of Instr.
TableRow: the instruction has a row in the opcode table, of its own mnemonic, and its encoded word is one the row selects
(30_encoding.md R139, R140).
-/

namespace Sys2Proof.Laws.TableRow

/-- The instruction's row exists and selects its encoding: no fixed bit of the row is encoded wrongly. -/
def Statement (i : Instr) : Prop := ∃ d, i.descriptor? = some d ∧ d.name = i.mnemonic ∧ d.selects (encode i) = true

/-! ## The fixed bits of each format under each mask of R139 -/

theorem encodeR_fixed (f7 : BitVec 7) (rs2 rs1 : RegIdx) (f3 : BitVec 3) (rd : RegIdx) (op : BitVec 7) :
    encodeR f7 rs2 rs1 f3 rd op &&& 0xFE00707F#32 = f7 ++ 0#10 ++ f3 ++ 0#5 ++ op := by
  apply BitVec.eq_of_getLsbD_eq
  intro k hk
  simp only [encodeR, BitVec.getLsbD_and, BitVec.getLsbD_append]
  interval_cases k <;> simp

theorem encodeI_fixed (imm : BitVec 12) (rs1 : RegIdx) (f3 : BitVec 3) (rd : RegIdx) (op : BitVec 7) :
    encodeI imm rs1 f3 rd op &&& 0x0000707F#32 = 0#17 ++ f3 ++ 0#5 ++ op := by
  apply BitVec.eq_of_getLsbD_eq
  intro k hk
  simp only [encodeI, BitVec.getLsbD_and, BitVec.getLsbD_append]
  interval_cases k <;> simp

theorem encodeS_fixed (imm : BitVec 12) (rs2 rs1 : RegIdx) (f3 : BitVec 3) (op : BitVec 7) :
    encodeS imm rs2 rs1 f3 op &&& 0x0000707F#32 = 0#17 ++ f3 ++ 0#5 ++ op := by
  apply BitVec.eq_of_getLsbD_eq
  intro k hk
  simp only [encodeS, BitVec.getLsbD_and, BitVec.getLsbD_append]
  interval_cases k <;> simp

theorem encodeB_fixed (off : BitVec 13) (rs2 rs1 : RegIdx) (f3 : BitVec 3) (op : BitVec 7) :
    encodeB off rs2 rs1 f3 op &&& 0x0000707F#32 = 0#17 ++ f3 ++ 0#5 ++ op := by
  apply BitVec.eq_of_getLsbD_eq
  intro k hk
  simp only [encodeB, BitVec.getLsbD_and, BitVec.getLsbD_append]
  interval_cases k <;> simp

theorem encodeU_fixed (imm : BitVec 20) (rd : RegIdx) (op : BitVec 7) :
    encodeU imm rd op &&& 0x0000007F#32 = 0#17 ++ 0#3 ++ 0#5 ++ op := by
  apply BitVec.eq_of_getLsbD_eq
  intro k hk
  simp only [encodeU, BitVec.getLsbD_and, BitVec.getLsbD_append]
  interval_cases k <;> simp

theorem encodeJ_fixed (off : BitVec 21) (rd : RegIdx) (op : BitVec 7) :
    encodeJ off rd op &&& 0x0000007F#32 = 0#17 ++ 0#3 ++ 0#5 ++ op := by
  apply BitVec.eq_of_getLsbD_eq
  intro k hk
  simp only [encodeJ, BitVec.getLsbD_and, BitVec.getLsbD_append]
  interval_cases k <;> simp

/-! ## One lemma per constructor -/

/-- A row selects a word whose fixed bits are its match value. -/
theorem selects_of_fixed {d : Descriptor} {w : Word} (h : w &&& d.mask = d.matchWord) : d.selects w = true := by
  simp [Descriptor.selects, h]

theorem lui (rd : RegIdx) (imm : BitVec 20) : Statement (.lui rd imm) :=
  ⟨_, rfl, rfl, selects_of_fixed (encodeU_fixed ..)⟩
theorem auipc (rd : RegIdx) (imm : BitVec 20) : Statement (.auipc rd imm) :=
  ⟨_, rfl, rfl, selects_of_fixed (encodeU_fixed ..)⟩
theorem addi (rd rs1 : RegIdx) (imm : BitVec 12) : Statement (.addi rd rs1 imm) :=
  ⟨_, rfl, rfl, selects_of_fixed (encodeI_fixed ..)⟩
theorem slti (rd rs1 : RegIdx) (imm : BitVec 12) : Statement (.slti rd rs1 imm) :=
  ⟨_, rfl, rfl, selects_of_fixed (encodeI_fixed ..)⟩
theorem sltiu (rd rs1 : RegIdx) (imm : BitVec 12) : Statement (.sltiu rd rs1 imm) :=
  ⟨_, rfl, rfl, selects_of_fixed (encodeI_fixed ..)⟩
theorem xori (rd rs1 : RegIdx) (imm : BitVec 12) : Statement (.xori rd rs1 imm) :=
  ⟨_, rfl, rfl, selects_of_fixed (encodeI_fixed ..)⟩
theorem ori (rd rs1 : RegIdx) (imm : BitVec 12) : Statement (.ori rd rs1 imm) :=
  ⟨_, rfl, rfl, selects_of_fixed (encodeI_fixed ..)⟩
theorem andi (rd rs1 : RegIdx) (imm : BitVec 12) : Statement (.andi rd rs1 imm) :=
  ⟨_, rfl, rfl, selects_of_fixed (encodeI_fixed ..)⟩
theorem slli (rd rs1 : RegIdx) (shamt : BitVec 5) : Statement (.slli rd rs1 shamt) :=
  ⟨_, rfl, rfl, selects_of_fixed (encodeR_fixed ..)⟩
theorem srli (rd rs1 : RegIdx) (shamt : BitVec 5) : Statement (.srli rd rs1 shamt) :=
  ⟨_, rfl, rfl, selects_of_fixed (encodeR_fixed ..)⟩
theorem srai (rd rs1 : RegIdx) (shamt : BitVec 5) : Statement (.srai rd rs1 shamt) :=
  ⟨_, rfl, rfl, selects_of_fixed (encodeR_fixed ..)⟩
theorem add (rd rs1 rs2 : RegIdx) : Statement (.add rd rs1 rs2) :=
  ⟨_, rfl, rfl, selects_of_fixed (encodeR_fixed ..)⟩
theorem sub (rd rs1 rs2 : RegIdx) : Statement (.sub rd rs1 rs2) :=
  ⟨_, rfl, rfl, selects_of_fixed (encodeR_fixed ..)⟩
theorem sll (rd rs1 rs2 : RegIdx) : Statement (.sll rd rs1 rs2) :=
  ⟨_, rfl, rfl, selects_of_fixed (encodeR_fixed ..)⟩
theorem slt (rd rs1 rs2 : RegIdx) : Statement (.slt rd rs1 rs2) :=
  ⟨_, rfl, rfl, selects_of_fixed (encodeR_fixed ..)⟩
theorem sltu (rd rs1 rs2 : RegIdx) : Statement (.sltu rd rs1 rs2) :=
  ⟨_, rfl, rfl, selects_of_fixed (encodeR_fixed ..)⟩
theorem xor (rd rs1 rs2 : RegIdx) : Statement (.xor rd rs1 rs2) :=
  ⟨_, rfl, rfl, selects_of_fixed (encodeR_fixed ..)⟩
theorem srl (rd rs1 rs2 : RegIdx) : Statement (.srl rd rs1 rs2) :=
  ⟨_, rfl, rfl, selects_of_fixed (encodeR_fixed ..)⟩
theorem sra (rd rs1 rs2 : RegIdx) : Statement (.sra rd rs1 rs2) :=
  ⟨_, rfl, rfl, selects_of_fixed (encodeR_fixed ..)⟩
theorem or (rd rs1 rs2 : RegIdx) : Statement (.or rd rs1 rs2) :=
  ⟨_, rfl, rfl, selects_of_fixed (encodeR_fixed ..)⟩
theorem and (rd rs1 rs2 : RegIdx) : Statement (.and rd rs1 rs2) :=
  ⟨_, rfl, rfl, selects_of_fixed (encodeR_fixed ..)⟩
theorem jal (rd : RegIdx) (off : BitVec 21) : Statement (.jal rd off) :=
  ⟨_, rfl, rfl, selects_of_fixed (encodeJ_fixed ..)⟩
theorem jalr (rd rs1 : RegIdx) (imm : BitVec 12) : Statement (.jalr rd rs1 imm) :=
  ⟨_, rfl, rfl, selects_of_fixed (encodeI_fixed ..)⟩
theorem beq (rs1 rs2 : RegIdx) (off : BitVec 13) : Statement (.beq rs1 rs2 off) :=
  ⟨_, rfl, rfl, selects_of_fixed (encodeB_fixed ..)⟩
theorem bne (rs1 rs2 : RegIdx) (off : BitVec 13) : Statement (.bne rs1 rs2 off) :=
  ⟨_, rfl, rfl, selects_of_fixed (encodeB_fixed ..)⟩
theorem blt (rs1 rs2 : RegIdx) (off : BitVec 13) : Statement (.blt rs1 rs2 off) :=
  ⟨_, rfl, rfl, selects_of_fixed (encodeB_fixed ..)⟩
theorem bge (rs1 rs2 : RegIdx) (off : BitVec 13) : Statement (.bge rs1 rs2 off) :=
  ⟨_, rfl, rfl, selects_of_fixed (encodeB_fixed ..)⟩
theorem bltu (rs1 rs2 : RegIdx) (off : BitVec 13) : Statement (.bltu rs1 rs2 off) :=
  ⟨_, rfl, rfl, selects_of_fixed (encodeB_fixed ..)⟩
theorem bgeu (rs1 rs2 : RegIdx) (off : BitVec 13) : Statement (.bgeu rs1 rs2 off) :=
  ⟨_, rfl, rfl, selects_of_fixed (encodeB_fixed ..)⟩
theorem lb (rd rs1 : RegIdx) (imm : BitVec 12) : Statement (.lb rd rs1 imm) :=
  ⟨_, rfl, rfl, selects_of_fixed (encodeI_fixed ..)⟩
theorem lh (rd rs1 : RegIdx) (imm : BitVec 12) : Statement (.lh rd rs1 imm) :=
  ⟨_, rfl, rfl, selects_of_fixed (encodeI_fixed ..)⟩
theorem lw (rd rs1 : RegIdx) (imm : BitVec 12) : Statement (.lw rd rs1 imm) :=
  ⟨_, rfl, rfl, selects_of_fixed (encodeI_fixed ..)⟩
theorem lbu (rd rs1 : RegIdx) (imm : BitVec 12) : Statement (.lbu rd rs1 imm) :=
  ⟨_, rfl, rfl, selects_of_fixed (encodeI_fixed ..)⟩
theorem lhu (rd rs1 : RegIdx) (imm : BitVec 12) : Statement (.lhu rd rs1 imm) :=
  ⟨_, rfl, rfl, selects_of_fixed (encodeI_fixed ..)⟩
theorem sb (rs1 rs2 : RegIdx) (imm : BitVec 12) : Statement (.sb rs1 rs2 imm) :=
  ⟨_, rfl, rfl, selects_of_fixed (encodeS_fixed ..)⟩
theorem sh (rs1 rs2 : RegIdx) (imm : BitVec 12) : Statement (.sh rs1 rs2 imm) :=
  ⟨_, rfl, rfl, selects_of_fixed (encodeS_fixed ..)⟩
theorem sw (rs1 rs2 : RegIdx) (imm : BitVec 12) : Statement (.sw rs1 rs2 imm) :=
  ⟨_, rfl, rfl, selects_of_fixed (encodeS_fixed ..)⟩
theorem fence (fm pred succ : BitVec 4) (rs1 rd : RegIdx) : Statement (.fence fm pred succ rs1 rd) :=
  ⟨_, rfl, rfl, selects_of_fixed (encodeI_fixed ..)⟩
theorem ecall : Statement (.ecall) :=
  ⟨_, rfl, rfl, by decide⟩
theorem ebreak : Statement (.ebreak) :=
  ⟨_, rfl, rfl, by decide⟩
theorem mret : Statement (.mret) :=
  ⟨_, rfl, rfl, by decide⟩
theorem csrrw (rd : RegIdx) (csr : CsrAddr) (rs1 : RegIdx) : Statement (.csrrw rd csr rs1) :=
  ⟨_, rfl, rfl, selects_of_fixed (encodeI_fixed ..)⟩
theorem csrrs (rd : RegIdx) (csr : CsrAddr) (rs1 : RegIdx) : Statement (.csrrs rd csr rs1) :=
  ⟨_, rfl, rfl, selects_of_fixed (encodeI_fixed ..)⟩
theorem csrrc (rd : RegIdx) (csr : CsrAddr) (rs1 : RegIdx) : Statement (.csrrc rd csr rs1) :=
  ⟨_, rfl, rfl, selects_of_fixed (encodeI_fixed ..)⟩
theorem csrrwi (rd : RegIdx) (csr : CsrAddr) (uimm : BitVec 5) : Statement (.csrrwi rd csr uimm) :=
  ⟨_, rfl, rfl, selects_of_fixed (encodeI_fixed ..)⟩
theorem csrrsi (rd : RegIdx) (csr : CsrAddr) (uimm : BitVec 5) : Statement (.csrrsi rd csr uimm) :=
  ⟨_, rfl, rfl, selects_of_fixed (encodeI_fixed ..)⟩
theorem csrrci (rd : RegIdx) (csr : CsrAddr) (uimm : BitVec 5) : Statement (.csrrci rd csr uimm) :=
  ⟨_, rfl, rfl, selects_of_fixed (encodeI_fixed ..)⟩

end Sys2Proof.Laws.TableRow
end

