-- ==== Sys2Proof/Tests/Slice0.lean ====
section
/-!
SUPPORT. The model's own tests. Expected values are those the spec writes out: 95_test_vectors.md (the section is named above
each group), the examples in the rules, and words composed from the formats of 30_encoding.md R132.
-/

namespace Sys2Proof.Tests

open Sys2Proof Sys2Proof.Machine

/-! ## Helpers: the start states of 95_test_vectors.md -/

/-- The conventions of 95_test_vectors.md: `pc = 0x1000`, `mode = M`, everything else 0, and `mtvec = 0x80`. -/
def base : State := { State.reset with pc := 0x1000, csr := { State.reset.csr with mtvec := 0x80 } }

/-- Some x registers set. -/
def withX (s : State) : List (RegIdx × Word) → State
  | [] => s
  | (r, v) :: rest => withX (s.writeX r v) rest

/-- Some CSRs set. -/
def withCsrs (s : State) : List (Csr × Word) → State
  | [] => s
  | (c, v) :: rest => withCsrs (s.writeCsr c v) rest

/-- Some words of physical memory set, as the host sets them. -/
def withWords (s : State) : List (PAddr × Word) → State
  | [] => s
  | (a, v) :: rest => withWords (hostWriteRawMem32 a v s) rest

/-- Another start address. -/
def atPc (s : State) (pc : Word) : State := s.setPc pc

/-- Another start mode. -/
def inMode (s : State) (m : Mode) : State := hostWriteMode m s

/-- The next state of an outcome. -/
def nextOf : Host.Outcome State Fault Refusal → Option State
  | .next t => some t
  | .fault _ => none
  | .refused _ => none

/-- The state after one step with a word placed where the step fetches. -/
def after (s : State) (w : Nat) : Option State := nextOf (step (s.withFetchWord 32 w))

/-- The page tables of 95_test_vectors.md section 3.1, with the data words they lead to. -/
def tables : List (PAddr × Word) :=
  [(0x10000, 0x4401), (0x10004, 0x100000D7), (0x10008, 0x404D7), (0x11004, 0x45B), (0x11008, 0x14D7), (0x11010, 0x1857),
   (0x11014, 0x1C17), (0x11018, 0x2057), (0x1101C, 0x24C7), (0x5000, 0x89ABCDEF), (0x40000124, 0xCAFEF00D)]

/-- Section 3.1's set-up in a mode. -/
def paged (m : Mode) (mstatus : Word) : State :=
  inMode (withCsrs (withWords base tables) [(.satp, 0x80000010), (.mstatus, mstatus)]) m

/-! ## Well-formedness: each check refuses an ill-formed term (R133, R230 f) -/

theorem test_jal_odd_offset_is_ill_formed :
    (Instr.jal 1 0x000801).wellFormed = false ∧ (Instr.jal 1 0x000800).wellFormed = true := by
  decide

theorem test_branch_odd_offset_is_ill_formed :
    (Instr.beq 1 2 0x0011).wellFormed = false ∧ (Instr.bne 1 2 0x0011).wellFormed = false
      ∧ (Instr.blt 1 2 0x0011).wellFormed = false ∧ (Instr.bge 1 2 0x0011).wellFormed = false
      ∧ (Instr.bltu 1 2 0x0011).wellFormed = false ∧ (Instr.bgeu 1 2 0x0011).wellFormed = false := by
  decide

theorem test_ill_formed_terms_do_not_round_trip :
    decode (encode (.jal 1 0x000801)) = .ok (.jal 1 0x000800) ∧ decode (encode (.beq 1 2 0x0011)) = .ok (.beq 1 2 0x0010) := by
  decide

/-! ## Configurations (R7, R136) -/

theorem test_default_configuration_is_well_formed : defaultConfiguration.wellFormed = true := by decide

/-- The state construction leaves, when it accepts. -/
def constructed (c : Configuration) : Option State := (construct c [] ResetFill.zero).map Prod.snd

theorem test_configuration_with_a_key_twice_is_refused :
    constructed { defaultConfiguration with modules := [rv32i, rv32i, zicsr, privM] } = none := by
  decide

theorem test_configuration_without_the_raw_csrs_is_refused :
    constructed { defaultConfiguration with modules := [rv32i, zicsr] } = none := by
  decide

theorem test_configuration_with_a_csr_twice_is_refused :
    constructed { defaultConfiguration with
      modules := [rv32i, zicsr, { privM with csrs := Csr.mstatus.entry :: privM.csrs }] } = none := by
  decide

theorem test_configuration_with_a_misaligned_vector_is_refused :
    constructed { defaultConfiguration with resetVector := 2 } = none := by
  decide

theorem test_table_has_forty_seven_rows : opcodeTable.length = 47 := by decide

/-! ## Cores of other configurations (R6, R36, R52, R85, R134, R135, R150, R152) -/

/-- The state after one step of the core a configuration constructs, a word placed at `pc` of the given state. -/
def afterIn (c : Configuration) (s : State) (w : Word) : Option State :=
  (construct c [] ResetFill.zero).bind fun p => nextOf (p.1.step (withWords s [(s.pc.zeroExtend 34, w)]))

/-- The cause and the value of the trap a step takes, and where it goes. -/
def trapped (o : Option State) : Option (Word × Word × Word) := o.map fun t => (t.readCsr .mcause, t.readCsr .mtval, t.pc)

/-- R150: without `Zicsr` its words match no entry. -/
def withoutZicsr : Configuration := { defaultConfiguration with modules := [rv32i, privM] }

theorem test_core_without_zicsr_has_no_csrrw :
    trapped (afterIn withoutZicsr base 0x340292F3) = some (2, 0x340292F3, 0x80)
      ∧ (afterIn withoutZicsr base 0x00128313).map (fun t => (t.readX 6, t.pc)) = some (1, 0x1004) := by
  decide

/-- R7 asks for eight of the nine CSRs; this configuration registers no other. -/
def withoutMscratch : Configuration :=
  { defaultConfiguration with
    modules := [rv32i, zicsr, { privM with csrs := privM.csrs.filter fun e => e.addr != 0x340 }] }

theorem test_core_without_an_mscratch_entry_traps_on_it :
    trapped (afterIn withoutMscratch base 0x340292F3) = some (2, 0x340292F3, 0x80)
      ∧ (afterIn withoutMscratch base 0x342022F3).map (fun t => (t.readX 5, t.pc)) = some (0, 0x1004) := by
  decide

/-- A module on the free opcode `custom-0` (R152): one instruction that raises nothing and adds 7 to `rd`, one CSR. -/
def customModule : IsaModule where
  name := "X"
  instructions :=
    [{ row := ⟨"SEVEN", .i, 0b0001011#7, none, .none⟩
       behaviour := fun _ w s => .ok (s.retire (rdOf w) (s.readX (rdOf w) + 7)) }]
  csrs := [CsrEntry.register 0x800 .user 0xFF 0x55]

/-- The loaded modules with it. -/
def withCustom : Configuration := { defaultConfiguration with modules := loadedModules ++ [customModule] }

theorem test_custom_instruction_runs_where_its_module_is_supplied :
    (afterIn withCustom (withX base [(6, 1)]) 0x0000030B).map (fun t => (t.readX 6, t.pc)) = some (8, 0x1004)
      ∧ trapped (after base 0x0000030B) = some (2, 0x0000030B, 0x80) := by
  decide

theorem test_added_csr_has_its_reset_value_mask_and_mode :
    (constructed withCustom).map (fun s => s.readAdded 0x800) = some 0x55
      ∧ (afterIn withCustom (inMode (withX { base with added := [(0x800, 0x55)] } [(5, 0x1FF)]) .user) 0x800292F3).map
          (fun t => (t.readX 5, t.readAdded 0x800, t.pc)) = some (0x55, 0xFF, 0x1004)
      ∧ trapped (after base 0x800292F3) = some (2, 0x800292F3, 0x80) := by
  decide

/-- A replacement `Translate` with a `PALEN` of 32: fetches at their own address, data 0x100 higher. -/
def withOtherTranslate : Configuration :=
  { defaultConfiguration with
    palen := 32
    translate := fun _ s va intent n =>
      let pa : Word := if intent = .fetch then va else va + 0x100
      if s.physValid pa n then .ok pa else .error (.trap (accessFault intent va)) }

theorem test_replaced_translate_is_the_one_used :
    (afterIn withOtherTranslate (withWords (withX base [(5, 0x2000)]) [(0x2000, 1), (0x2100, 0x89ABCDEF)]) 0x0002A303).map
      (fun t => (t.readX 6, t.pc)) = some (0x89ABCDEF, 0x1004) := by
  decide

/-- A module whose code raises: `TRAP` an Interrupt with cause 16 (R301 lets a cause be any 31-bit number, R338 any code raise
one), reads and writes of CSR 0x801 an Exception with cause 24, and a read of CSR 0x7C0 enters U-mode. -/
def raisingModule : IsaModule where
  name := "Y"
  instructions :=
    [{ row := ⟨"TRAP", .i, 0b0001011#7, none, .none⟩
       behaviour := fun _ _ _ => .error (.trap (.interrupt 16 (some 0xAB))) }]
  csrs :=
    [{ CsrEntry.register 0x801 .user 0xFFFFFFFF 0 with
       read := fun _ => .error (.trap (.exception 24 (some 9)))
       write := fun v _ => .error (.trap (.exception 24 (some v))) },
     { CsrEntry.register 0x7C0 .machine 0xFFFFFFFF 0 with
       read := fun s => .ok (s.readAdded 0x7C0, hostWriteMode .user s) }]

/-- The loaded modules with it. -/
def withRaising : Configuration := { defaultConfiguration with modules := loadedModules ++ [raisingModule] }

theorem test_supplied_code_raises_causes_outside_r303 :
    trapped (afterIn withRaising (withCsrs base [(.mtvec, 0x101)]) 0x0000030B) = some (0x80000010, 0xAB, 0x140)
      ∧ trapped (afterIn withRaising base 0x80102373) = some (24, 9, 0x80)
      ∧ trapped (afterIn withRaising base 0x8013D073) = some (24, 7, 0x80) := by
  decide

/-- R288: the write is not tested again, in the mode the read left. -/
theorem test_csr_legality_is_tested_once :
    (afterIn withRaising (withX { base with added := [(0x7C0, 5)] } [(5, 8)]) 0x7C02A373).map
      (fun t => (t.readX 6, t.readAdded 0x7C0, t.mode, t.pc)) = some (5, 13, .user, 0x1004) := by
  decide

/-- A module that registers its own `mepc` (R7 asks for an entry at 0x341, not for the loaded one). -/
def withOwnMepc : Configuration :=
  { defaultConfiguration with
    modules := [rv32i, zicsr, { privM with
      csrs := CsrEntry.register 0x341 .machine 0xFFFFFFFC 0 :: privM.csrs.filter fun e => e.addr != 0x341 }] }

/-- R39, R318: the trap path writes it, and `MRET` returns to it. -/
theorem test_trap_path_uses_the_registered_entries :
    (afterIn withOwnMepc { base with added := [(0x341, 0)] } 0x00000073).map
        (fun t => (t.readAdded 0x341, t.csr.mepc, t.readCsr .mcause, t.pc)) = some (0x1000, 0, 11, 0x80)
      ∧ (afterIn withOwnMepc { base with added := [(0x341, 0x2004)] } 0x30200073).map (fun t => (t.pc, t.mode))
        = some (0x2004, .user) := by
  decide

/-- Shapes R139 does not list (log entry 13): a `funct7` with no `funct3` collides with a row of that `funct7`, and not with
one of another. -/
theorem test_funct7_without_funct3_masks_no_funct3 :
    (⟨"F", .r, 0b0110011#7, none, .funct7 0b0000000#7⟩ : Descriptor).selects 0x0062A3B3 = true
      ∧ (⟨"F", .r, 0b0110011#7, none, .funct7 0b0000000#7⟩ : Descriptor).collides
          ⟨"SLT", .r, 0b0110011#7, some 0b010#3, .funct7 0b0000000#7⟩ = true
      ∧ (⟨"F", .r, 0b0110011#7, none, .funct7 0b0000001#7⟩ : Descriptor).collides
          ⟨"SLT", .r, 0b0110011#7, some 0b010#3, .funct7 0b0000000#7⟩ = false := by
  decide

/-! ## Decoding: every row of R140 by a word of 95_test_vectors.md section 2, and one word per format composed of its fields -/

theorem test_decode_upper :
    decode 0x12345337 = .ok (.lui 6 0x12345) ∧ decode 0x80000317 = .ok (.auipc 6 0x80000) := by
  decide

theorem test_decode_immediate :
    decode 0xFFF28313 = .ok (.addi 6 5 0xFFF) ∧ decode 0xFFF2A313 = .ok (.slti 6 5 0xFFF)
      ∧ decode 0xFFF2B313 = .ok (.sltiu 6 5 0xFFF) ∧ decode 0xFFF2C313 = .ok (.xori 6 5 0xFFF)
      ∧ decode 0x7F02E313 = .ok (.ori 6 5 0x7F0) ∧ decode 0xFF02F313 = .ok (.andi 6 5 0xFF0)
      ∧ decode 0x01F29313 = .ok (.slli 6 5 31) ∧ decode 0x0042D313 = .ok (.srli 6 5 4)
      ∧ decode 0x4042D313 = .ok (.srai 6 5 4) := by
  decide

theorem test_decode_register :
    decode 0x006283B3 = .ok (.add 7 5 6) ∧ decode 0x406283B3 = .ok (.sub 7 5 6) ∧ decode 0x006293B3 = .ok (.sll 7 5 6)
      ∧ decode 0x0062A3B3 = .ok (.slt 7 5 6) ∧ decode 0x0062B3B3 = .ok (.sltu 7 5 6) ∧ decode 0x0062C3B3 = .ok (.xor 7 5 6)
      ∧ decode 0x0062D3B3 = .ok (.srl 7 5 6) ∧ decode 0x4062D3B3 = .ok (.sra 7 5 6) ∧ decode 0x0062E3B3 = .ok (.or 7 5 6)
      ∧ decode 0x0062F3B3 = .ok (.and 7 5 6) := by
  decide

theorem test_decode_transfer :
    decode 0x001000EF = .ok (.jal 1 0x800) ∧ decode 0x7FFFF0EF = .ok (.jal 1 0xFFFFE) ∧ decode 0x004282E7 = .ok (.jalr 5 5 4)
      ∧ decode 0x00208863 = .ok (.beq 1 2 16) ∧ decode 0x80000063 = .ok (.beq 0 0 0x1000)
      ∧ decode 0x00209863 = .ok (.bne 1 2 16) ∧ decode 0x0020C863 = .ok (.blt 1 2 16) ∧ decode 0x0020D863 = .ok (.bge 1 2 16)
      ∧ decode 0x0020E863 = .ok (.bltu 1 2 16) ∧ decode 0x0020F863 = .ok (.bgeu 1 2 16) := by
  decide

theorem test_decode_memory :
    decode 0x00528303 = .ok (.lb 6 5 5) ∧ decode 0x00229303 = .ok (.lh 6 5 2) ∧ decode 0xFFC2A303 = .ok (.lw 6 5 0xFFC)
      ∧ decode 0x0052C303 = .ok (.lbu 6 5 5) ∧ decode 0x0022D303 = .ok (.lhu 6 5 2) ∧ decode 0x006280A3 = .ok (.sb 5 6 1)
      ∧ decode 0x00629123 = .ok (.sh 5 6 2) ∧ decode 0x8062A023 = .ok (.sw 5 6 0x800) := by
  decide

theorem test_decode_fence_and_system :
    decode 0x8332830F = .ok (.fence 8 3 3 5 6) ∧ decode 0x00000073 = .ok .ecall ∧ decode 0x00100073 = .ok .ebreak
      ∧ decode 0x30200073 = .ok .mret ∧ decode 0x34029373 = .ok (.csrrw 6 0x340 5) ∧ decode 0x3402A373 = .ok (.csrrs 6 0x340 5)
      ∧ decode 0x3402B373 = .ok (.csrrc 6 0x340 5) ∧ decode 0x340FD373 = .ok (.csrrwi 6 0x340 31)
      ∧ decode 0x30046373 = .ok (.csrrsi 6 0x300 8) ∧ decode 0x30047373 = .ok (.csrrci 6 0x300 8) := by
  decide

theorem test_decode_words_composed_of_fields :
    decode (0b0100000#7 ++ 0b00110#5 ++ 0b00101#5 ++ 0b000#3 ++ 0b00111#5 ++ 0b0110011#7) = .ok (.sub 7 5 6)
      ∧ decode (0b111111111101#12 ++ 0b00101#5 ++ 0b000#3 ++ 0b00110#5 ++ 0b0010011#7) = .ok (.addi 6 5 0xFFD)
      ∧ decode (0b1111111#7 ++ 0b00110#5 ++ 0b00101#5 ++ 0b010#3 ++ 0b11100#5 ++ 0b0100011#7) = .ok (.sw 5 6 0xFFC)
      ∧ decode (0b1#1 ++ 0b111111#6 ++ 0b00010#5 ++ 0b00001#5 ++ 0b000#3 ++ 0b1000#4 ++ 0b1#1 ++ 0b1100011#7)
          = .ok (.beq 1 2 0x1FF0)
      ∧ decode (0b00010010001101000101#20 ++ 0b00101#5 ++ 0b0110111#7) = .ok (.lui 5 0x12345)
      ∧ decode (0b1#1 ++ 0b1111111110#10 ++ 0b1#1 ++ 0b11111111#8 ++ 0b00001#5 ++ 0b1101111#7) = .ok (.jal 1 0x1FFFFC) := by
  decide

theorem test_decode_bytes_low_byte_first :
    decodeBytes [0x13, 0x83, 0xD2, 0xFF, 0xAA] = .ok (.addi 6 5 0xFFD, [0xAA])
      ∧ decodeBytes [0x13, 0x83, 0xD2] = .error .truncated
      ∧ decodeTableWord 32 0xFFD28313 = some (.addi 6 5 0xFFD) ∧ decodeTableWord 32 0 = none := by
  decide

/-- 95_test_vectors.md section 2.7. -/
theorem test_words_without_a_table_entry :
    [0x00000000, 0xFFFFFFFF, 0x00000001, 0x0000007F, 0x0000000B, 0x02000033, 0x40001033, 0x02001013, 0x40001013, 0x80005013,
     0x4200D013].all (fun w => decodeTableWord 32 w == none)
    ∧ [0x00003003, 0x00006003, 0x00003023, 0x00002063, 0x00001067, 0x00004073, 0x0000400F, 0x00000057, 0x0000002F, 0x00000007,
       0x00000053, 0x10500073, 0x10200073, 0x12000073, 0x000000F3, 0x00008073].all (fun w => decodeTableWord 32 w == none) := by
  decide

/-! ## Reset (95_test_vectors.md section 2.8) -/

theorem test_reset_is_the_default_construction : constructed defaultConfiguration = some State.reset := by decide

theorem test_reset_memory_is_canonical : State.reset.mem.wf := by decide

theorem test_construction_with_another_vector :
    (constructed { defaultConfiguration with resetVector := 0x80000000, flen := .f64 }).map (fun t => (t.pc, t.f.flen))
      = some (0x80000000, .f64) := by
  decide

theorem test_first_step_from_reset_runs_the_placed_word :
    (after (driveIrq ⟨true, true, true⟩ { State.reset with csr := { State.reset.csr with mie := 0x888 } }) 0x00100313).map
      (fun t => (t.readX 6, t.pc)) = some (1, 4) := by
  decide

theorem test_unwritten_memory_is_an_illegal_instruction :
    (nextOf (step State.reset)).map (fun t => (t.readCsr .mcause, t.readCsr .mtval, t.pc)) = some (2, 0, 0) := by
  decide

theorem test_raw_csr_write_keeps_the_mask :
    (hostReadRawCsr loadedCsr 0x300 (hostWriteRawCsr loadedCsr 0x300 0xFFFFFFFF base)).1 = some 0x000E1888 := by
  decide

theorem test_raw_access_without_an_entry_halts :
    (hostReadRawCsr loadedCsr 0xF14 base).2.runState = .halted ∧ nextOf (step (hostReadRawCsr loadedCsr 0xF14 base).2) = none
      ∧ (hostReset defaultConfiguration.build 0 ResetFill.zero (hostReadRawCsr loadedCsr 0xF14 base).2).map State.runState
          = some .running := by
  decide

theorem test_host_pc_write_must_be_aligned :
    hostWritePc 6 base = none ∧ (hostWritePc 8 base).map State.pc = some 8 := by
  decide

theorem test_float_file_truncates_to_its_width :
    hostReadF 0 (hostWriteF 0 0x1122334455667788 base) = 0x55667788
      ∧ hostReadF 0 (hostWriteF 0 0x1122334455667788 { base with f := .f64 (Vector.replicate 32 0) }) = 0x1122334455667788 := by
  decide

/-! ## One step of each instruction (95_test_vectors.md sections 2.1 to 2.5) -/

theorem test_addi_overflow_is_ignored :
    (after (withX base [(5, 0x7FFFFFFF)]) 0x00128313).map (fun t => (t.readX 6, t.pc)) =
      some (0x80000000, 0x1004) := by
  decide

theorem test_addi_wraps_into_its_source :
    (after (withX base [(5, 0xFFFFFFFF)]) 0x00128293).map (fun t => (t.readX 5, t.pc)) =
      some (0x0, 0x1004) := by
  decide

theorem test_slti_is_signed :
    (after (withX base [(5, 0x80000000)]) 0xFFF2A313).map (fun t => (t.readX 6, t.pc)) =
      some (0x1, 0x1004) := by
  decide

theorem test_sltiu_extends_then_compares :
    (after (withX base [(5, 0xFFFFFFFE)]) 0xFFF2B313).map (fun t => (t.readX 6, t.pc)) =
      some (0x1, 0x1004) := by
  decide

theorem test_xori_minus_one_inverts :
    (after (withX base [(5, 0x12345678)]) 0xFFF2C313).map (fun t => (t.readX 6, t.pc)) =
      some (0xEDCBA987, 0x1004) := by
  decide

theorem test_ori :
    (after (withX base [(5, 0xF)]) 0x7F02E313).map (fun t => (t.readX 6, t.pc)) =
      some (0x7FF, 0x1004) := by
  decide

theorem test_andi_sign_extends :
    (after (withX base [(5, 0x12345678)]) 0xFF02F313).map (fun t => (t.readX 6, t.pc)) =
      some (0x12345670, 0x1004) := by
  decide

theorem test_slli_loses_bits :
    (after (withX base [(5, 0x3)]) 0x01F29313).map (fun t => (t.readX 6, t.pc)) =
      some (0x80000000, 0x1004) := by
  decide

theorem test_srli_zero_fills :
    (after (withX base [(5, 0xF0000000)]) 0x0042D313).map (fun t => (t.readX 6, t.pc)) =
      some (0xF000000, 0x1004) := by
  decide

theorem test_srai_sign_fills :
    (after (withX base [(5, 0xF0000000)]) 0x4042D313).map (fun t => (t.readX 6, t.pc)) =
      some (0xFF000000, 0x1004) := by
  decide

theorem test_lui_clears_low_bits :
    (after (withX base [(6, 0xFFFFFFFF)]) 0x12345337).map (fun t => (t.readX 6, t.pc)) =
      some (0x12345000, 0x1004) := by
  decide

theorem test_auipc_wraps :
    (after (atPc base 0x1000) 0xFFFFF317).map (fun t => (t.readX 6, t.pc)) =
      some (0x0, 0x1004) := by
  decide

theorem test_add_wraps :
    (after (withX base [(5, 0xFFFFFFFF), (6, 0x1)]) 0x006283B3).map (fun t => (t.readX 7, t.pc)) =
      some (0x0, 0x1004) := by
  decide

theorem test_sub_wraps :
    (after (withX base [(5, 0x80000000), (6, 0x1)]) 0x406283B3).map (fun t => (t.readX 7, t.pc)) =
      some (0x7FFFFFFF, 0x1004) := by
  decide

theorem test_sll_amount_is_low_five_bits :
    (after (withX base [(5, 0x1), (6, 0x3F)]) 0x006293B3).map (fun t => (t.readX 7, t.pc)) =
      some (0x80000000, 0x1004) := by
  decide

theorem test_sll_by_32_is_by_0 :
    (after (withX base [(5, 0x1), (6, 0x20)]) 0x006293B3).map (fun t => (t.readX 7, t.pc)) =
      some (0x1, 0x1004) := by
  decide

theorem test_slt_is_signed :
    (after (withX base [(5, 0x80000000), (6, 0x7FFFFFFF)]) 0x0062A3B3).map (fun t => (t.readX 7, t.pc)) =
      some (0x1, 0x1004) := by
  decide

theorem test_sltu_is_unsigned :
    (after (withX base [(5, 0x80000000), (6, 0x7FFFFFFF)]) 0x0062B3B3).map (fun t => (t.readX 7, t.pc)) =
      some (0x0, 0x1004) := by
  decide

theorem test_xor :
    (after (withX base [(5, 0xFF00FF00), (6, 0xFF00FF0)]) 0x0062C3B3).map (fun t => (t.readX 7, t.pc)) =
      some (0xF0F0F0F0, 0x1004) := by
  decide

theorem test_srl :
    (after (withX base [(5, 0x80000000), (6, 0x21)]) 0x0062D3B3).map (fun t => (t.readX 7, t.pc)) =
      some (0x40000000, 0x1004) := by
  decide

theorem test_sra :
    (after (withX base [(5, 0x80000000), (6, 0x21)]) 0x4062D3B3).map (fun t => (t.readX 7, t.pc)) =
      some (0xC0000000, 0x1004) := by
  decide

theorem test_or :
    (after (withX base [(5, 0xFF00FF00), (6, 0xFF00FF0)]) 0x0062E3B3).map (fun t => (t.readX 7, t.pc)) =
      some (0xFFF0FFF0, 0x1004) := by
  decide

theorem test_and :
    (after (withX base [(5, 0xFF00FF00), (6, 0xFF00FF0)]) 0x0062F3B3).map (fun t => (t.readX 7, t.pc)) =
      some (0xF000F00, 0x1004) := by
  decide

theorem test_jal_misaligned_does_not_link :
    (after (withX (atPc base 0x1000) [(1, 0x55)]) 0x7FFFF0EF).map (fun t => (t.readCsr .mcause, t.readCsr .mtval, t.readCsr .mepc, t.readX 1, t.pc, t.mode)) =
      some (0x0, 0x100FFE, 0x1000, 0x55, 0x80, .machine) := by
  decide

theorem test_jal_wraps_below_zero :
    (after (atPc base 0x4) 0xFF9FF0EF).map (fun t => (t.readX 1, t.pc)) =
      some (0x8, 0xFFFFFFFC) := by
  decide

theorem test_jalr_misaligned_reports_cleared_target :
    (after (withX base [(5, 0x2000), (1, 0x55)]) 0x003280E7).map (fun t => (t.readCsr .mcause, t.readCsr .mtval, t.readCsr .mepc, t.readX 1, t.pc, t.mode)) =
      some (0x0, 0x2002, 0x1000, 0x55, 0x80, .machine) := by
  decide

theorem test_jalr_target_uses_old_register :
    (after (withX base [(5, 0x2000)]) 0x004282E7).map (fun t => (t.readX 5, t.pc)) =
      some (0x1004, 0x2004) := by
  decide

theorem test_blt_is_signed :
    (after (withX base [(1, 0x80000000), (2, 0x1)]) 0x0020C863).map (fun t => (t.pc)) =
      some (0x1010) := by
  decide

theorem test_bge_is_signed :
    (after (withX base [(1, 0x80000000), (2, 0x1)]) 0x0020D863).map (fun t => (t.pc)) =
      some (0x1004) := by
  decide

theorem test_bge_equal_is_taken :
    (after (withX base [(1, 0x5)]) 0x0010D463).map (fun t => (t.pc)) =
      some (0x1008) := by
  decide

theorem test_bltu_is_unsigned :
    (after (withX base [(1, 0x80000000), (2, 0x1)]) 0x0020E863).map (fun t => (t.pc)) =
      some (0x1004) := by
  decide

theorem test_bgeu_is_unsigned :
    (after (withX base [(1, 0x80000000), (2, 0x1)]) 0x0020F863).map (fun t => (t.pc)) =
      some (0x1010) := by
  decide

theorem test_beq_most_negative_offset :
    (after (atPc base 0x2000) 0x80000063).map (fun t => (t.pc)) =
      some (0x1000) := by
  decide

theorem test_beq_misaligned_traps :
    (after base 0x7E000FE3).map (fun t => (t.readCsr .mcause, t.readCsr .mtval, t.readCsr .mepc, t.pc, t.mode)) =
      some (0x0, 0x1FFE, 0x1000, 0x80, .machine) := by
  decide

theorem test_bne_not_taken_never_traps :
    (after base 0x7E001FE3).map (fun t => (t.pc)) =
      some (0x1004) := by
  decide

theorem test_lb_sign_extends :
    (after (withWords (withX base [(5, 0x2000)]) [(0x2000, 0x89ABCDEF), (0x2004, 0x0000807F)]) 0x00528303).map (fun t => (t.readX 6, t.pc)) =
      some (0xFFFFFF80, 0x1004) := by
  decide

theorem test_lbu_zero_extends :
    (after (withWords (withX base [(5, 0x2000)]) [(0x2000, 0x89ABCDEF), (0x2004, 0x0000807F)]) 0x0052C303).map (fun t => (t.readX 6, t.pc)) =
      some (0x80, 0x1004) := by
  decide

theorem test_lh_sign_extends :
    (after (withWords (withX base [(5, 0x2000)]) [(0x2000, 0x89ABCDEF), (0x2004, 0x0000807F)]) 0x00029303).map (fun t => (t.readX 6, t.pc)) =
      some (0xFFFFCDEF, 0x1004) := by
  decide

theorem test_lhu_zero_extends :
    (after (withWords (withX base [(5, 0x2000)]) [(0x2000, 0x89ABCDEF), (0x2004, 0x0000807F)]) 0x0022D303).map (fun t => (t.readX 6, t.pc)) =
      some (0x89AB, 0x1004) := by
  decide

theorem test_lw_address_wraps_to_the_top_word :
    (after (withWords (withX base [(5, 0x0)]) [(0x2000, 0x89ABCDEF), (0x2004, 0x0000807F), (0xFFFFFFFC, 0xA5A5A5A5)]) 0xFFC2A303).map (fun t => (t.readX 6, t.pc)) =
      some (0xA5A5A5A5, 0x1004) := by
  decide

theorem test_lw_misaligned :
    (after (withWords (withX base [(5, 0x2000), (6, 0x55)]) [(0x2000, 0x89ABCDEF), (0x2004, 0x0000807F)]) 0x0012A303).map (fun t => (t.readCsr .mcause, t.readCsr .mtval, t.readCsr .mepc, t.readX 6, t.pc, t.mode)) =
      some (0x4, 0x2001, 0x1000, 0x55, 0x80, .machine) := by
  decide

theorem test_sb_writes_one_byte :
    (after (withWords (withX base [(5, 0x2000), (6, 0x11223344)]) [(0x2000, 0x89ABCDEF), (0x2004, 0x0000807F)]) 0x006281A3).map (fun t => (t.mem.read 0x2000, t.mem.read 0x2001, t.mem.read 0x2002, t.mem.read 0x2003, t.mem.read 0x2004, t.mem.read 0x2005, t.mem.read 0x2006, t.mem.read 0x2007, t.pc)) =
      some (0xEF, 0xCD, 0xAB, 0x44, 0x7F, 0x80, 0x0, 0x0, 0x1004) := by
  decide

theorem test_sh_is_little_endian :
    (after (withWords (withX base [(5, 0x2000), (6, 0x1234BEEF)]) [(0x2000, 0x89ABCDEF), (0x2004, 0x0000807F)]) 0x00629123).map (fun t => (t.mem.read 0x2000, t.mem.read 0x2001, t.mem.read 0x2002, t.mem.read 0x2003, t.mem.read 0x2004, t.mem.read 0x2005, t.mem.read 0x2006, t.mem.read 0x2007, t.pc)) =
      some (0xEF, 0xCD, 0xEF, 0xBE, 0x7F, 0x80, 0x0, 0x0, 0x1004) := by
  decide

theorem test_sw_negative_offset :
    (after (withWords (withX base [(5, 0x2800), (6, 0xDEADBEEF)]) [(0x2000, 0x89ABCDEF), (0x2004, 0x0000807F)]) 0x8062A023).map (fun t => (t.mem.read 0x2000, t.mem.read 0x2001, t.mem.read 0x2002, t.mem.read 0x2003, t.mem.read 0x2004, t.mem.read 0x2005, t.mem.read 0x2006, t.mem.read 0x2007, t.pc)) =
      some (0xEF, 0xBE, 0xAD, 0xDE, 0x7F, 0x80, 0x0, 0x0, 0x1004) := by
  decide

theorem test_sh_misaligned_writes_nothing :
    (after (withWords (withX base [(5, 0x2000), (6, 0x11223344)]) [(0x2000, 0x89ABCDEF), (0x2004, 0x0000807F)]) 0x006290A3).map (fun t => (t.readCsr .mcause, t.readCsr .mtval, t.pc, t.mode)) =
      some (0x6, 0x2001, 0x80, .machine) := by
  decide

theorem test_ecall_from_user :
    (after (withCsrs (inMode base .user) [(.mstatus, 0x8)]) 0x00000073).map (fun t => (t.pc, t.readCsr .mstatus, t.readCsr .mepc, t.readCsr .mcause, t.readCsr .mtval, t.mode)) =
      some (0x80, 0x80, 0x1000, 0x8, 0x0, .machine) := by
  decide

theorem test_ebreak :
    (after (withCsrs base [(.mstatus, 0x8)]) 0x00100073).map (fun t => (t.pc, t.readCsr .mstatus, t.readCsr .mepc, t.readCsr .mcause, t.readCsr .mtval, t.mode)) =
      some (0x80, 0x1880, 0x1000, 0x3, 0x0, .machine) := by
  decide

theorem test_mret_to_supervisor_clears_mprv :
    (after (withCsrs base [(.mstatus, 0x20880), (.mepc, 0x2000)]) 0x30200073).map (fun t => (t.pc, t.readCsr .mstatus, t.mode)) =
      some (0x2000, 0x88, .supervisor) := by
  decide

theorem test_mret_from_supervisor_is_illegal :
    (after (withCsrs (inMode base .supervisor) [(.mstatus, 0x80), (.mepc, 0x2000)]) 0x30200073).map (fun t => (t.pc, t.readCsr .mcause, t.readCsr .mtval, t.readCsr .mepc, t.readCsr .mstatus, t.mode)) =
      some (0x80, 0x2, 0x30200073, 0x1000, 0x800, .machine) := by
  decide

theorem test_fence :
    (after (inMode base .user) 0x0FF0000F).map (fun t => (t.pc)) =
      some (0x1004) := by
  decide

theorem test_fence_i_is_illegal :
    (after (withCsrs base [(.mstatus, 0x0)]) 0x0000100F).map (fun t => (t.readCsr .mcause, t.readCsr .mtval, t.readCsr .mstatus, t.pc, t.mode)) =
      some (0x2, 0x100F, 0x1800, 0x80, .machine) := by
  decide

theorem test_csrrw_swaps :
    (after (withCsrs (withX base [(5, 0xAAAA5555)]) [(.mscratch, 0x11111111)]) 0x340292F3).map (fun t => (t.readX 5, t.readCsr .mscratch, t.pc)) =
      some (0x11111111, 0xAAAA5555, 0x1004) := by
  decide

theorem test_csrrs_sets_bits :
    (after (withCsrs (withX base [(5, 0xF00F)]) [(.mscratch, 0x11111111)]) 0x3402A373).map (fun t => (t.readX 6, t.readCsr .mscratch, t.pc)) =
      some (0x11111111, 0x1111F11F, 0x1004) := by
  decide

theorem test_csrrc_clears_bits :
    (after (withCsrs (withX base [(5, 0xF00F)]) [(.mscratch, 0x11111111)]) 0x3402B373).map (fun t => (t.readX 6, t.readCsr .mscratch, t.pc)) =
      some (0x11111111, 0x11110110, 0x1004) := by
  decide

theorem test_csrrwi_zero_is_written :
    (after (withCsrs base [(.mscratch, 0x11111111)]) 0x34005373).map (fun t => (t.readX 6, t.readCsr .mscratch, t.pc)) =
      some (0x11111111, 0x0, 0x1004) := by
  decide

theorem test_csrrsi :
    (after (withCsrs base [(.mstatus, 0x80)]) 0x30046373).map (fun t => (t.readX 6, t.readCsr .mstatus, t.pc)) =
      some (0x80, 0x88, 0x1004) := by
  decide

theorem test_csrrci :
    (after (withCsrs base [(.mstatus, 0x88)]) 0x30047373).map (fun t => (t.readX 6, t.readCsr .mstatus, t.pc)) =
      some (0x88, 0x80, 0x1004) := by
  decide

theorem test_csrrw_keeps_mpp_for_a_reserved_value :
    (after (withCsrs (withX base [(5, 0x1008)]) [(.mstatus, 0x800)]) 0x30029373).map (fun t => (t.readX 6, t.readCsr .mstatus, t.pc)) =
      some (0x800, 0x808, 0x1004) := by
  decide

theorem test_csrrs_from_user_is_illegal :
    (after (inMode base .user) 0x30002373).map (fun t => (t.readCsr .mcause, t.readCsr .mtval, (t.readCsr .mstatus).extractLsb' 11 2, t.pc, t.mode)) =
      some (0x2, 0x30002373, 0x0, 0x80, .machine) := by
  decide

theorem test_illegal_word_traps_with_its_value :
    (after base 0x02000033).map (fun t => (t.readCsr .mcause, t.readCsr .mtval, t.readCsr .mepc, t.readCsr .mstatus, t.pc)) =
      some (2, 0x02000033, 0x1000, 0x1800, 0x80) := by
  decide

/-! ## Interrupts (95_test_vectors.md section 2.6) -/

/-- The start state of a row of section 2.6. -/
def irqState (q : IrqInputs) (m : Mode) (mstatus mie mtvec : Word) : State :=
  driveIrq q (withCsrs (inMode base m) [(.mstatus, mstatus), (.mie, mie), (.mtvec, mtvec)])

theorem test_interrupt_external_first_vectored :
    (after (irqState ⟨true, true, true⟩ .machine 8 0x888 0x101) 0x00100313).map
      (fun t => (t.pc, t.readCsr .mcause, t.readCsr .mstatus, t.readCsr .mepc, t.readX 6, t.readCsr .mip)) =
      some (0x12C, 0x8000000B, 0x1880, 0x1000, 0, 0x888) := by
  decide

theorem test_interrupt_software_before_timer :
    (after (irqState ⟨false, true, true⟩ .machine 8 0x888 0x101) 0x00100313).map
      (fun t => (t.pc, t.readCsr .mcause, t.readCsr .mip)) = some (0x10C, 0x80000003, 0x88) := by
  decide

theorem test_interrupt_masked_in_machine_mode :
    (after (irqState ⟨false, true, false⟩ .machine 0 0x80 0x100) 0x00100313).map (fun t => (t.pc, t.readX 6)) =
      some (0x1004, 1) := by
  decide

theorem test_interrupt_taken_in_user_mode_whatever_mie_holds :
    (after (irqState ⟨false, true, false⟩ .user 0 0x80 0x100) 0x00100313).map
      (fun t => (t.pc, t.mode, t.readCsr .mcause, t.readCsr .mstatus)) = some (0x100, .machine, 0x80000007, 0) := by
  decide

theorem test_interrupt_schedule_is_sampled_each_step :
    (nextOf (defaultConfiguration.build.runSchedule [⟨false, false, false⟩, ⟨false, true, false⟩]
      (withWords (irqState ⟨false, false, false⟩ .machine 8 0x80 0x100) [(0x1000, 0x00100313)]))).map
      (fun t => (t.pc, t.readCsr .mepc, t.readX 6)) = some (0x100, 0x1004, 1) := by
  decide

/-! ## Sv32 (95_test_vectors.md section 3.2), by the translation each row makes -/

/-- What a translation answers: the address, or the cause and value of its exception. -/
def translated (s : State) (va : Word) (intent : Intent) (n : Nat) : PAddr ⊕ Word × Word :=
  match mmuTranslate s va intent n with
  | .ok pa => .inl pa
  | .error (.trap t) => .inr (t.causeWord, t.valueWord)
  | .error (.fatal _) => .inr (0xFFFFFFFF, 0xFFFFFFFF)

theorem test_sv32_maps_pages :
    translated (paged .user 0) 0x2000 .load 4 = .inl 0x5000
      ∧ translated (paged .user 0) 0x2004 .store 4 = .inl 0x5004
      ∧ translated (paged .user 0) 0x4000 .load 4 = .inl 0x6000
      ∧ translated (paged .user 0) 0x400124 .load 4 = .inl 0x40000124 := by
  decide

theorem test_sv32_page_faults :
    translated (paged .user 0) 0x3000 .load 4 = .inr (13, 0x3000)
      ∧ translated (paged .user 0) 0x4000 .store 4 = .inr (15, 0x4000)
      ∧ translated (paged .user 0) 0x5000 .load 4 = .inr (13, 0x5000)
      ∧ translated (paged .user 0) 0x6000 .store 4 = .inr (15, 0x6000)
      ∧ translated (paged .user 0) 0x7000 .load 4 = .inr (13, 0x7000)
      ∧ translated (paged .user 0) 0x800000 .load 4 = .inr (13, 0x800000)
      ∧ translated (paged .user 0) 0x2000 .fetch 4 = .inr (12, 0x2000)
      ∧ translated (paged .supervisor 0) 0x1000 .fetch 4 = .inr (12, 0x1000) := by
  decide

theorem test_sv32_mprv_sum_and_mxr :
    translated (paged .machine 0x20000) 0x3000 .load 4 = .inr (13, 0x3000)
      ∧ translated (paged .machine 0x20000) 0x1000 .fetch 4 = .inl 0x1000
      ∧ translated (paged .machine 0) 0x3000 .load 4 = .inl 0x3000
      ∧ translated (paged .supervisor 0) 0x2000 .load 4 = .inr (13, 0x2000)
      ∧ translated (paged .supervisor 0x40000) 0x2000 .load 4 = .inl 0x5000
      ∧ translated (withWords (paged .user 0) [(0x11004, 0x459)]) 0x1000 .load 4 = .inr (13, 0x1000)
      ∧ translated (withWords (paged .user 0x80000) [(0x11004, 0x459)]) 0x1000 .load 4 = .inl 0x1000 := by
  decide

theorem test_sv32_access_faults_and_bad_entries :
    translated (withWords (paged .user 0) [(0x11008, 0x400014D7)]) 0x2000 .load 4 = .inr (5, 0x2000)
      ∧ translated (withWords (paged .user 0) [(0x10000, 0x40004401)]) 0x1000 .fetch 4 = .inr (1, 0x1000)
      ∧ translated (withWords (paged .user 0) [(0x11008, 0x14D5)]) 0x2000 .load 4 = .inr (13, 0x2000)
      ∧ translated (withWords (paged .user 0) [(0x11008, 0x1401)]) 0x2000 .load 4 = .inr (13, 0x2000) := by
  decide

/-! ## Witnesses: for every statement with hypotheses, a state and operands that meet them, each clause at a boundary -/

/-- A state with a data address in x5 and a value in x6. -/
def dataState (s : State) (address : Word) : State := withX s [(5, address), (6, 0x11223344)]

theorem witness_DecodeOfEncodeIsTheInstruction :
    (Instr.jal 31 0x1FFFFE).wellFormed = true ∧ (Instr.bgeu 31 31 0x1000).wellFormed = true := by
  decide

theorem witness_EncodeOfDecodeIsTheWord : decode 0x800000EF = .ok (.jal 1 0x100000) := by decide

theorem witness_DecoderAgreesWithTheFlatTable :
    decode 0x00000073 = .ok .ecall ∧ decode 0 = .error (.unknownOpcode 0)
      ∧ (∀ d ∈ opcodeTable, d.selects 0 = false) ∧ ∀ d ∈ opcodeTable, d.selects 0xFFFFFFFF = false := by
  decide

theorem witness_AtMostOneRowSelectsAWord :
    (∃ d ∈ opcodeTable, d.selects 0x30200073 = true) ∧ ∃ d ∈ opcodeTable, d.selects 0x40005013 = true := by
  decide

theorem witness_ConstructionAcceptsExactlyWellFormed :
    (∃ p, construct { withCustom with resetVector := 0xFFFFFFFC } [] ResetFill.zero = some p)
      ∧ constructed { withCustom with resetVector := 0xFFFFFFFD } = none :=
  ⟨⟨_, rfl⟩, by decide⟩

theorem witness_ResetLeavesTheSpecifiedState :
    (0xFFFFFFFC : Word).extractLsb' 0 2 = 0#2 ∧ (0xFFFFFFFE : Word).extractLsb' 0 2 ≠ 0#2
      ∧ (1 : Word).extractLsb' 0 2 ≠ 0#2 := by
  decide

theorem witness_FirstFetchAfterResetIsUntranslated :
    (∃ t, hostReset withCustom.build 0xFFFFFFFC ResetFill.zero base = some t ∧ t.physValid (0xFFFFFFFC : PAddr) 4 = true)
      ∧ ∃ t, hostReset defaultConfiguration.build 0 ResetFill.zero { base with physMap := [] } = some t
          ∧ t.physValid (0 : PAddr) 4 = false :=
  ⟨⟨_, rfl, by decide⟩, ⟨_, rfl, by decide⟩⟩

theorem witness_ConstructedStatesSatisfyTheInvariant :
    Memory.wf [(0x1000, 0x13), (0x3FFFFFFFF, 1)]
      ∧ ∃ b s, construct withCustom [(0x1000, 0x13), (0x3FFFFFFFF, 1)] ResetFill.zero = some (b, s)
          ∧ (b.csr 0x800).isSome = true ∧ (b.csr 0x801).isNone = true
          ∧ ∃ e ∈ withCustom.modules.flatMap IsaModule.csrs, e.reset = some 0x55 :=
  ⟨by decide, _, _, rfl, by decide, by decide, CsrEntry.register 0x800 .user 0xFF 0x55, by simp [withCustom, customModule], rfl⟩

theorem witness_EveryStepKeepsTheInvariant :
    ∃ t, (base.withFetchWord 32 0x0062A223).Inv
      ∧ stepWith ⟨false, true, false⟩ (base.withFetchWord 32 0x0062A223) = .next t :=
  ⟨_, by decide, rfl⟩

theorem witness_RunningCoreNeverHalts :
    State.reset.runState = .running ∧ (halt .contractViolation State.reset).runState = .halted := by
  decide

theorem witness_StepRunsTheDecodedInstruction :
    (let s := base.withFetchWord 32 0xFFD28313
     s.runState = .running ∧ pendingInterrupt s = none ∧ fetch s = .ok 0xFFD28313
      ∧ decode 0xFFD28313 = .ok (.addi 6 5 0xFFD))
    ∧ ((construct withCustom [] ResetFill.zero).isSome = true
      ∧ let s := base.withFetchWord 32 0x0000030B
        s.runState = .running ∧ pendingInterruptRaw withCustom.build.csr s = .ok (none, s)
          ∧ fetchVia (withCustom.translate withCustom.build.csr) s = .ok 0x0000030B
          ∧ (withCustom.modules.flatMap IsaModule.instructions).any (fun e => e.row.selects 0x0000030B) = true) := by
  decide

theorem witness_PlacedInstructionIsTheOneRun :
    let s := atPc base 0xFFFFFFFC
    s.runState = .running ∧ pendingInterrupt s = none ∧ s.mem.wf ∧ translationOn s .fetch = false
      ∧ s.physValid (s.pc.zeroExtend 34) 4 = true ∧ (Instr.jal 1 0x100000).wellFormed = true := by
  decide

/-- The premises of the fetch statement: running, nothing pending, `pc` aligned. -/
abbrev MayFetch (s : State) : Prop := s.runState = .running ∧ pendingInterrupt s = none ∧ s.pc.extractLsb' 0 2 = 0#2

theorem witness_FetchFaultsAreTakenAtPc :
    (MayFetch base ∧ mmuTranslate base base.pc .fetch 4 = .ok 0x1000)
      ∧ (MayFetch (atPc (paged .user 0) 0x3000) ∧ translated (atPc (paged .user 0) 0x3000) 0x3000 .fetch 4 = .inr (12, 0x3000))
      ∧ (MayFetch { base with physMap := [] } ∧ translated { base with physMap := [] } 0x1000 .fetch 4 = .inr (1, 0x1000)) := by
  decide

theorem witness_WordWithoutTableEntryIsIllegal :
    (let s := base.withFetchWord 32 0
     s.runState = .running ∧ pendingInterrupt s = none ∧ fetch s = .ok 0 ∧ ∀ d ∈ opcodeTable, d.selects 0 = false)
    ∧ (let s := base.withFetchWord 32 0x02001013
       fetch s = .ok 0x02001013 ∧ ∀ d ∈ opcodeTable, d.selects 0x02001013 = false)
    ∧ ((construct withoutZicsr [] ResetFill.zero).isSome = true
      ∧ let s := base.withFetchWord 32 0x340292F3
        s.runState = .running ∧ pendingInterruptRaw withoutZicsr.build.csr s = .ok (none, s)
          ∧ fetchVia (withoutZicsr.translate withoutZicsr.build.csr) s = .ok 0x340292F3
          ∧ s.csr.mepc.extractLsb' 0 2 = 0#2
          ∧ (withoutZicsr.modules.flatMap IsaModule.instructions).any (fun e => e.row.selects 0x340292F3) = false)
    ∧ LoadedRaw withoutZicsr.build.csr := by
  refine ⟨by decide, by decide, by decide, fun r hr => ?_⟩
  simp only [Config.rawCsrs, List.mem_cons, List.not_mem_nil, or_false] at hr
  rcases hr with rfl | rfl | rfl | rfl | rfl | rfl | rfl | rfl <;> rfl

theorem witness_PendingInterruptIsTakenByPriority :
    (let s := irqState ⟨true, true, true⟩ .machine 8 0x888 0x101
     s.runState = .running ∧ s.csr.mstatus.mie = true ∧ s.irq.meip = true ∧ s.csr.mie.getLsbD 11 = true)
    ∧ (let s := irqState ⟨false, true, true⟩ .user 0 0x888 0x101
       s.runState = .running ∧ s.mode ≠ .machine ∧ s.irq.meip = false ∧ s.irq.msip = true ∧ s.csr.mie.getLsbD 3 = true)
    ∧ (let s := irqState ⟨true, true, true⟩ .supervisor 0 0x080 0x101
       s.runState = .running ∧ s.mode ≠ .machine ∧ s.csr.mie.getLsbD 11 = false ∧ s.csr.mie.getLsbD 3 = false
         ∧ s.irq.mtip = true ∧ s.csr.mie.getLsbD 7 = true)
    ∧ (let s := irqState ⟨true, true, true⟩ .machine 0 0x888 0x101
       s.runState = .running ∧ ¬ (s.mode ≠ .machine ∨ s.csr.mstatus.mie = true))
    ∧ (let s := irqState ⟨false, false, false⟩ .user 8 0x888 0x101
       s.runState = .running ∧ s.irq.meip = false ∧ s.irq.msip = false ∧ s.irq.mtip = false) := by
  decide

theorem witness_BusWidthsAreLittleEndian : Memory.wf [(0, 1), (0x2000, 0xEF), (0x3FFFFFFFF, 0xFF)] := by decide

theorem witness_MixedWidthReadsSeeTheWordsBytes :
    Memory.wf [(0x2000, 0xEF)] ∧ (0x3FFFFFFFC : PAddr).toNat + 3 < 2 ^ 34 := by
  decide

theorem witness_StoreThenLoadReturnsTheWord :
    ∃ t, (dataState (paged .user 0) 0x2000).mem.wf
      ∧ ((dataState (paged .user 0) 0x2000).readX 5 + (4 : BitVec 12).signExtend 32).toNat % 4 = 0
      ∧ mmuTranslate (dataState (paged .user 0) 0x2000) 0x2004 .store 4 = .ok 0x5004
      ∧ exec (.sw 5 6 4) (dataState (paged .user 0) 0x2000) = .next t
      ∧ t.readX 5 + (4 : BitVec 12).signExtend 32 = (0x2004 : Word)
      ∧ mmuTranslate t 0x2004 .load 4 = .ok 0x5004 :=
  ⟨_, by decide, by decide, by decide, rfl, by decide, by decide⟩

/-- A store that overlaps the word the next step fetches: its last byte, its upper half, all of it. -/
theorem witness_StoredWordIsFetchedNext :
    (∃ t, (dataState base 0x1007).mem.wf ∧ mmuTranslate (dataState base 0x1007) 0x1007 .store 1 = .ok 0x1007
        ∧ exec (.sb 5 6 0) (dataState base 0x1007) = .next t ∧ mmuTranslate t t.pc .fetch 4 = .ok 0x1004)
      ∧ (∃ t, ((dataState base 0x1004).readX 5 + (2 : BitVec 12).signExtend 32).toNat % 2 = 0
          ∧ mmuTranslate (dataState base 0x1004) 0x1006 .store 2 = .ok 0x1006
          ∧ exec (.sh 5 6 2) (dataState base 0x1004) = .next t ∧ mmuTranslate t t.pc .fetch 4 = .ok 0x1004)
      ∧ ∃ t, ((dataState base 0x1004).readX 5 + (0 : BitVec 12).signExtend 32).toNat % 4 = 0
          ∧ mmuTranslate (dataState base 0x1004) 0x1004 .store 4 = .ok 0x1004
          ∧ exec (.sw 5 6 0) (dataState base 0x1004) = .next t ∧ mmuTranslate t t.pc .fetch 4 = .ok 0x1004 :=
  ⟨⟨_, by decide, by decide, rfl, by decide⟩, ⟨_, by decide, by decide, rfl, by decide⟩, ⟨_, by decide, by decide, rfl, by decide⟩⟩

theorem witness_EffectiveModeAndTranslationSwitch :
    effMode (paged .machine 0x20000) .load = .user ∧ translationOn (paged .machine 0x20000) .load = true
      ∧ translationOn (paged .machine 0x20000) .fetch = false ∧ effMode (paged .machine 0x21800) .store = .machine := by
  decide

theorem witness_BareTranslationIsTheIdentity :
    translationOn base .store = false ∧ base.physValid ((0xFFFFFFFC : Word).zeroExtend 34) 4 = true
      ∧ base.physValid ((0xFFFFFFFD : Word).zeroExtend 34) 4 = false := by
  decide

theorem witness_TranslateAnswersExistingBytesOrItsIntentsFault :
    mmuTranslate (paged .user 0) 0x2FFC .store 4 = .ok 0x5FFC
      ∧ mmuTranslate (paged .user 0) 0x3000 .store 4 = .error (.trap (.exception .storePageFault (some 0x3000)))
      ∧ mmuTranslate { base with physMap := [] } 0 .fetch 4 = .error (.trap (.exception .instrAccessFault (some 0))) := by
  decide

theorem witness_Sv32MapsASmallPage :
    let s := paged .user 0
    translationOn s .store = true ∧ s.physValid (rootEntryAddress s 0x2FFC) 4 = true
      ∧ s.mem.read32 (rootEntryAddress s 0x2FFC) = 0x4401 ∧ EntryPoints 0x4401
      ∧ s.physValid (leafEntryAddress 0x4401 0x2FFC) 4 = true ∧ s.mem.read32 (leafEntryAddress 0x4401 0x2FFC) = 0x14D7
      ∧ EntryIsLeaf 0x14D7 ∧ LeafUsable s 0x14D7 .store ∧ s.physValid (0x5FFC : PAddr) 4 = true
      ∧ (let s' := withWords s [(0x11008, 0x400014D7)]
         s'.mem.read32 (leafEntryAddress 0x4401 0x2000) = 0x400014D7 ∧ EntryIsLeaf 0x400014D7
           ∧ LeafUsable s' 0x400014D7 .load ∧ s'.physValid (0x100005000 : PAddr) 4 = false) := by
  unfold EntryPoints EntryIsLeaf EntryInvalid LeafUsable
  decide

theorem witness_Sv32MapsASuperpage :
    let s := paged .user 0
    translationOn s .store = true ∧ s.physValid (rootEntryAddress s 0x7FFFFC) 4 = true
      ∧ s.mem.read32 (rootEntryAddress s 0x7FFFFC) = 0x100000D7 ∧ EntryIsLeaf 0x100000D7
      ∧ LeafUsable s 0x100000D7 .store ∧ (0x100000D7 : Word).extractLsb' 10 10 = 0#10
      ∧ s.physValid (0x403FFFFC : PAddr) 4 = true ∧ { s with physMap := [⟨0, 0x40000000⟩] }.physValid (0x40000000 : PAddr) 4 = false := by
  unfold EntryIsLeaf EntryInvalid LeafUsable
  decide

theorem witness_Sv32FaultsWithoutAPermittedMapping :
    let s := paged .user 0
    translationOn s .load = true
      ∧ { s with physMap := [] }.physValid (rootEntryAddress s 0) 4 = false
      ∧ (s.mem.read32 (rootEntryAddress s 0xC00000) = 0 ∧ EntryInvalid 0 ∧ EntryInvalid 0x14D5)
      ∧ (s.mem.read32 (rootEntryAddress s 0x800000) = 0x404D7 ∧ EntryIsLeaf 0x404D7 ∧ (0x404D7 : Word).extractLsb' 10 10 ≠ 0#10)
      ∧ (EntryIsLeaf 0x100000C7 ∧ ¬ LeafUsable s 0x100000C7 .load)
      ∧ (EntryPoints 0x40004401 ∧ s.physValid (leafEntryAddress 0x40004401 0) 4 = false)
      ∧ (s.mem.read32 (rootEntryAddress s 0x3000) = 0x4401 ∧ EntryPoints 0x4401
          ∧ s.physValid (leafEntryAddress 0x4401 0x3000) 4 = true ∧ s.mem.read32 (leafEntryAddress 0x4401 0x3000) = 0
          ∧ EntryPoints 0x1401 ∧ EntryIsLeaf 0x1C17 ∧ ¬ LeafUsable s 0x1C17 .load) := by
  unfold EntryPoints EntryIsLeaf EntryInvalid LeafUsable
  decide

theorem witness_PagePermissionsByIntentAndMode : Mode.user ≠ .machine ∧ Mode.supervisor ≠ .machine := by decide

theorem witness_PhysValidTestsEveryByte :
    base.physMap = Config.defaultPhysMap ∧ base.physValid (0xFFFFFFFC : PAddr) 4 = true ∧ base.physValid (0xFFFFFFFD : PAddr) 4 = false := by
  decide

theorem witness_ShiftImmediateResults :
    (1 : BitVec 7) ≠ 0b0000000#7 ∧ (0x7F : BitVec 7) ≠ 0b0000000#7 ∧ (0x7F : BitVec 7) ≠ 0b0100000#7 := by
  decide

theorem witness_X0ReadsZeroAndDiscardsWrites : (31 : RegIdx) ≠ 0 ∧ (0 : RegIdx) ≠ 31 := by decide

theorem witness_JumpsLinkAndTransfer :
    (base.pc + (1#1 ++ 0#8 ++ 0#1 ++ 0#10 ++ 0#1 : BitVec 21).signExtend 32).extractLsb' 0 2 = 0#2
      ∧ (base.pc + (0#1 ++ 255#8 ++ 1#1 ++ 1023#10 ++ 0#1 : BitVec 21).signExtend 32).extractLsb' 0 2 ≠ 0#2
      ∧ (((dataState base 0x2001).readX 5 + (0 : BitVec 12).signExtend 32) &&& 0xFFFFFFFE#32).extractLsb' 0 2 = 0#2
      ∧ (((dataState base 0x2000).readX 5 + (3 : BitVec 12).signExtend 32) &&& 0xFFFFFFFE#32).extractLsb' 0 2 ≠ 0#2
      ∧ (1 : BitVec 3) ≠ 0b000#3 := by
  decide

/-- Two registers to compare, x1 and x2. -/
def compared (a b : Word) : State := withX base [(1, a), (2, b)]

/-- Both outcomes of every branch condition have operands, at the ends of the signed and unsigned ranges. -/
theorem witness_branch_conditions :
    ((compared 7 7).readX 1 = (compared 7 7).readX 2 ∧ (compared 7 8).readX 1 ≠ (compared 7 8).readX 2)
      ∧ (let s := compared 0x80000000 0x7FFFFFFF
         (s.readX 1).toInt < (s.readX 2).toInt ∧ ¬ (s.readX 2).toInt ≤ (s.readX 1).toInt
           ∧ ¬ (s.readX 1).toNat < (s.readX 2).toNat ∧ (s.readX 2).toNat ≤ (s.readX 1).toNat)
      ∧ (let s := compared 0x7FFFFFFF 0x80000000
         ¬ (s.readX 1).toInt < (s.readX 2).toInt ∧ (s.readX 2).toInt ≤ (s.readX 1).toInt
           ∧ (s.readX 1).toNat < (s.readX 2).toNat ∧ ¬ (s.readX 2).toNat ≤ (s.readX 1).toNat) := by
  decide

theorem witness_BranchesTestAndTransfer :
    (base.pc + (1#1 ++ 0#1 ++ 0#6 ++ 0#4 ++ 0#1 : BitVec 13).signExtend 32).extractLsb' 0 2 = 0#2
      ∧ (base.pc + (0#1 ++ 1#1 ++ 63#6 ++ 15#4 ++ 0#1 : BitVec 13).signExtend 32).extractLsb' 0 2 ≠ 0#2 := by
  decide

theorem witness_MisalignedTargetTrapsOnTheTransfer :
    (base.pc + (0xFFFFE : BitVec 21).signExtend 32).extractLsb' 0 2 ≠ 0#2
      ∧ (((dataState base 0x2000).readX 5 + (3 : BitVec 12).signExtend 32) &&& 0xFFFFFFFE#32).extractLsb' 0 2 ≠ 0#2
      ∧ (base.pc + (0xFFE : BitVec 13).signExtend 32).extractLsb' 0 2 ≠ 0#2 := by
  decide

theorem witness_LoadsReadTheirBytes :
    mmuTranslate (dataState base 0xFFFFFFFF) ((dataState base 0xFFFFFFFF).readX 5 + (0 : BitVec 12).signExtend 32) .load 1
        = .ok 0xFFFFFFFF
      ∧ mmuTranslate (dataState base 0) ((dataState base 0).readX 5 + (0xFFE : BitVec 12).signExtend 32) .load 2 = .ok 0xFFFFFFFE
      ∧ mmuTranslate (dataState base 0) ((dataState base 0).readX 5 + (0xFFC : BitVec 12).signExtend 32) .load 4 = .ok 0xFFFFFFFC
      ∧ (0xFFFFFFFE : Word).toNat % 2 = 0 ∧ (0xFFFFFFFC : Word).toNat % 4 = 0 := by
  decide

theorem witness_StoresWriteTheirBytes :
    (paged .user 0).mem.wf
      ∧ mmuTranslate (dataState (paged .user 0) 0x2FFF) ((dataState (paged .user 0) 0x2FFF).readX 5 + (0#7 ++ 0#5).signExtend 32)
          .store 1 = .ok 0x5FFF
      ∧ mmuTranslate (dataState base 0) ((dataState base 0).readX 5 + (0x7F#7 ++ 0x1E#5).signExtend 32) .store 2 = .ok 0xFFFFFFFE
      ∧ mmuTranslate (dataState base 0) ((dataState base 0).readX 5 + (0x7F#7 ++ 0x1C#5).signExtend 32) .store 4 = .ok 0xFFFFFFFC
      ∧ (0xFFFFFFFE : Word).toNat % 2 = 0 ∧ (0xFFFFFFFC : Word).toNat % 4 = 0 := by
  decide

theorem witness_MisalignedDataAccessTrapsFirst :
    ((dataState base 0x2001).readX 5 + (0 : BitVec 12).signExtend 32).getLsbD 0 = true
      ∧ ((dataState base 0x2000).readX 5 + (2 : BitVec 12).signExtend 32).extractLsb' 0 2 ≠ 0#2
      ∧ ((dataState base 0).readX 5 + (0xFFF : BitVec 12).signExtend 32).extractLsb' 0 2 ≠ 0#2 := by
  decide

theorem witness_DataAccessFaultsTrapWithTheirCause :
    ([1, 2, 4].all fun n =>
        mmuTranslate (dataState (paged .user 0) 0x3000) 0x3000 .load n == .error (.trap (.exception .loadPageFault (some 0x3000)))
          && mmuTranslate (dataState (paged .user 0) 0x3000) 0x3000 .store n == .error (.trap (.exception .storePageFault (some 0x3000)))
          && mmuTranslate { base with physMap := [] } 0 .load n == .error (.trap (.exception .loadAccessFault (some 0)))
          && mmuTranslate { base with physMap := [] } 0 .store n == .error (.trap (.exception .storeAccessFault (some 0)))) = true
      ∧ (dataState (paged .user 0) 0x3000).readX 5 + (0 : BitVec 12).signExtend 32 = (0x3000 : Word)
      ∧ (0x3000 : Word).toNat % 4 = 0 := by
  decide

theorem witness_MretReturnsFromTheTrap : base.mode = .machine ∧ (inMode base .user).mode ≠ .machine := by decide

theorem witness_TrapThenMretResumes : (atPc base 0xFFFFFFFC).pc.extractLsb' 0 2 = 0#2 := by decide

theorem witness_CheckedCsrAccessTestsEntryThenMode :
    (Csr.ofAddr? 0x345 = none ∧ Csr.ofAddr? 0x344 = some .mip ∧ Csr.ofAddr? 0x180 = some .satp
      ∧ Mode.supervisor.number.toNat < Csr.mip.requiredMode.number.toNat
      ∧ Mode.user.number.toNat < Csr.satp.requiredMode.number.toNat
      ∧ Csr.satp.requiredMode.number.toNat ≤ Mode.supervisor.number.toNat)
    ∧ (withCustom.build.csr 0x800).map CsrEntry.required = some .user ∧ (withCustom.build.csr 0x801).isNone = true := by
  decide

/-- Of an access the mode may make and of one it may not, at the ends of the address map (CsrSwapResults, CsrSetAndClearResults). -/
theorem witness_csr_access :
    (CsrLegal base.mode 0x344 ∧ Csr.ofAddr? 0x344 = some .mip) ∧ (CsrLegal base.mode 0x180 ∧ Csr.ofAddr? 0x180 = some .satp)
      ∧ CsrLegal .supervisor 0x180 ∧ ¬ CsrLegal .supervisor 0x300 ∧ ¬ CsrLegal .user 0x180
      ∧ ¬ CsrLegal base.mode 0x345 ∧ ¬ CsrLegal base.mode 0xFFF := by
  unfold CsrLegal
  decide

theorem witness_CsrWritesFollowTheirMasks :
    base.Inv ∧ Csr.mip ≠ .satp ∧ (0x1008 : Word).extractLsb' 11 2 = 2#2 ∧ (0x1800 : Word).extractLsb' 11 2 ≠ 2#2 := by
  decide

theorem witness_RawCsrAccessSkipsTheModeTestOnly :
    (Csr.ofAddr? 0x300 = some .mstatus ∧ (loadedCsr 0xF14).isNone = true ∧ (withCustom.build.csr 0x800).isSome = true)
      ∧ (∃ e t, withCustom.build.csr 0x800 = some e ∧ e.read base = .ok (0, base) ∧ e.write 1 base = .ok t)
      ∧ ∀ r ∈ [0x300#12, 0x341#12, 0x342#12, 0x343#12, 0x305#12], ∃ e, loadedCsr r = some e
          ∧ (∀ u, ∃ p, e.read u = .ok p) ∧ ∀ w u, ∃ t, e.write w u = .ok t := by
  refine ⟨by decide, ⟨_, _, rfl, rfl, rfl⟩, fun r hr => ?_⟩
  simp only [List.mem_cons, List.not_mem_nil, or_false] at hr
  rcases hr with rfl | rfl | rfl | rfl | rfl <;> exact ⟨_, rfl, fun _ => ⟨_, rfl⟩, fun _ _ => ⟨_, rfl⟩⟩

theorem witness_TakeTrapWritesExactlyItsFields :
    LoadedRaw defaultConfiguration.build.csr ∧ base.csr.mepc.extractLsb' 0 2 = 0#2 :=
  ⟨fun _ _ => by rw [defaultConfiguration_csr], by decide⟩

theorem witness_DefaultCoreStepsAsTheMachine : State.reset.csr.mepc.extractLsb' 0 2 = 0#2 := by decide

/-- A step of each kind that the mode statement lists: mode kept, a trap entered, `MRET` from M. -/
theorem witness_ModeChangesOnlyByTrapAndMret :
    (∃ t, step (base.withFetchWord 32 0x00100313) = .next t ∧ t.mode = .machine)
      ∧ (∃ t, step ((inMode base .user).withFetchWord 32 0x00000073) = .next t ∧ t.mode = .machine)
      ∧ ∃ t, step (base.withFetchWord 32 0x30200073) = .next t ∧ t.mode = .user :=
  ⟨⟨_, rfl, by decide⟩, ⟨_, rfl, by decide⟩, ⟨_, rfl, by decide⟩⟩

theorem witness_LowerModesCannotChangeMachineCsrs :
    (∃ t, exec (.csrrw 0 0x180 5) (inMode base .supervisor) = .next t ∧ (inMode base .supervisor).mode = .supervisor)
      ∧ ∃ t, exec (.addi 6 5 1) (inMode base .user) = .next t ∧ (inMode base .user).mode = .user :=
  ⟨⟨_, rfl, rfl⟩, ⟨_, rfl, rfl⟩⟩

theorem witness_UserModeLearnsNothingOfMachineCsrsApartFromMxr :
    ∃ (b : CsrBank) (t : State), b ≠ (paged .user 0).csr ∧ (dataState (paged .user 0) 0x2000).mode = .user
      ∧ b.satp = (paged .user 0).csr.satp ∧ b.mstatus.mxr = (paged .user 0).csr.mstatus.mxr
      ∧ exec (.lw 6 5 0) (dataState (paged .user 0) 0x2000) = .next t ∧ t.mode = .user :=
  ⟨{ (paged .user 0).csr with mscratch := 0x5EC2E7, mepc := 0xFFFFFFFC }, _, by decide, rfl, rfl, rfl, rfl, by decide⟩

theorem witness_OnlyStoresChangeMemory :
    ∃ t, step ((dataState base 0x2000).withFetchWord 32 0x0062A023) = .next t
      ∧ t.mem ≠ ((dataState base 0x2000).withFetchWord 32 0x0062A023).mem :=
  ⟨_, rfl, by decide⟩

theorem witness_NoStepTouchesFloatFileInputsOrAddressMap : ∃ t, step base = .next t := ⟨_, rfl⟩

theorem witness_CsrsChangeOnlyByCsrInstructionsTrapsAndMret :
    ∃ t, exec (.jal 1 0x100000) base = .next t
      ∧ (Instr.jal 1 0x100000).mnemonic ∉ ["CSRRW", "CSRRS", "CSRRC", "CSRRWI", "CSRRSI", "CSRRCI", "MRET"] :=
  ⟨_, rfl, by decide⟩


end Sys2Proof.Tests
end

section
/-!
PROOFS. What construction accepts (R7) and what `PhysValid` tests (R6). The idea of the first is that the collision of two
dispatch keys, which construction computes from their masks, is the same as a word that both select; the second reads the
host's map byte by byte.
-/

namespace Sys2Proof

/-- A word made of an upper part, a `funct3`, an empty field of 5 bits and an opcode lies within the mask that keeps the
opcode, when its upper part and its `funct3` lie within theirs. The flat forms of R139 are of this shape. -/
theorem keyWord_and_keyMask {m : Nat} {upper upperMask : BitVec m} {f3 f3Mask : BitVec 3} (op : BitVec 7)
    (hu : upper &&& upperMask = upper) (h3 : f3 &&& f3Mask = f3) :
    (upper ++ f3 ++ 0#5 ++ op) &&& (upperMask ++ f3Mask ++ 0#5 ++ BitVec.allOnes 7) = upper ++ f3 ++ 0#5 ++ op := by
  simp only [BitVec.and_append, hu, h3, BitVec.and_self, BitVec.and_allOnes]

/-- R139: a descriptor's match value has no bit outside its mask: each field is masked whole, or is 0 in both. -/
theorem Descriptor.matchWord_and_mask (d : Descriptor) : d.matchWord &&& d.mask = d.matchWord := by
  obtain ⟨_, _, op, funct3, tail⟩ := d
  cases tail with
  | wholeWord v => cases funct3 <;> exact BitVec.and_allOnes (x := v)
  | funct7 f7 =>
    have upper : (f7 ++ 0#10) &&& (BitVec.allOnes 7 ++ 0#10) = f7 ++ 0#10 := by
      simp only [BitVec.and_append, BitVec.and_self, BitVec.and_allOnes]
    cases funct3 with
    | none => exact keyWord_and_keyMask op upper (BitVec.and_self (x := 0#3))
    | some f3 => exact keyWord_and_keyMask op upper (BitVec.and_allOnes (x := f3))
  | none =>
    have upper : 0#17 &&& 0#17 = 0#17 := BitVec.and_self
    cases funct3 with
    | none => exact keyWord_and_keyMask op upper (BitVec.and_self (x := 0#3))
    | some f3 => exact keyWord_and_keyMask op upper (BitVec.and_allOnes (x := f3))

/-- R139: outside its mask a descriptor's match value is 0. -/
theorem Descriptor.matchWord_bit_of_unmasked (d : Descriptor) {k : Nat} (h : d.mask.getLsbD k = false) :
    d.matchWord.getLsbD k = false := by
  rw [← d.matchWord_and_mask, BitVec.getLsbD_and, h, Bool.and_false]

/-- R139: a word selects a descriptor when it has the match value on every bit of the mask. -/
theorem Descriptor.selects_iff_bits (d : Descriptor) (w : Word) :
    d.selects w = true ↔ ∀ k, d.mask.getLsbD k = true → w.getLsbD k = d.matchWord.getLsbD k := by
  simp only [Descriptor.selects, beq_iff_eq]
  constructor
  · intro h k hk
    simp [← h, hk]
  · intro h
    refine BitVec.eq_of_getLsbD_eq fun k _ => ?_
    cases hk : d.mask.getLsbD k
    · simp [hk, d.matchWord_bit_of_unmasked hk]
    · simp [hk, h]

/-- R136: two dispatch keys collide when their match values agree on every bit that both masks test. -/
theorem Descriptor.collides_iff_bits (d e : Descriptor) :
    d.collides e = true ↔
      ∀ k, d.mask.getLsbD k = true → e.mask.getLsbD k = true → d.matchWord.getLsbD k = e.matchWord.getLsbD k := by
  simp only [Descriptor.collides, beq_iff_eq]
  constructor
  · intro h k hd he
    simpa [hd, he] using congrArg (BitVec.getLsbD · k) h
  · intro h
    refine BitVec.eq_of_getLsbD_eq fun k _ => ?_
    simp only [BitVec.getLsbD_and, BitVec.getLsbD_xor]
    cases hd : d.mask.getLsbD k
    · simp
    · cases he : e.mask.getLsbD k
      · simp
      · simp [h k hd he]

/-- R136: two dispatch keys collide exactly when some word is selected by both. Where the match values agree on the bits that
both masks test, their union is such a word. -/
theorem Descriptor.collides_iff_exists_word (d e : Descriptor) :
    d.collides e = true ↔ ∃ w, d.selects w = true ∧ e.selects w = true := by
  simp only [Descriptor.collides_iff_bits, Descriptor.selects_iff_bits]
  constructor
  · intro agree
    refine ⟨d.matchWord ||| e.matchWord, fun k hd => ?_, fun k he => ?_⟩
    · cases he : e.mask.getLsbD k
      · simp [e.matchWord_bit_of_unmasked he]
      · simp [agree k hd he]
    · cases hd : d.mask.getLsbD k
      · simp [d.matchWord_bit_of_unmasked hd]
      · simp [agree k hd he]
  · rintro ⟨w, hd, he⟩ k kd ke
    rw [← hd k kd, ← he k ke]

end Sys2Proof

namespace Sys2Proof.Machine

/-- R370: construction answers exactly when the configuration is well formed. -/
theorem construct_answers_iff (c : Configuration) (bus : Memory) (fill : ResetFill) :
    (∃ s, construct c bus fill = some s) ↔ c.wellFormed = true := by
  simp [construct]

/-- A byte exists exactly when a region of the map holds it (R6). -/
theorem PhysMap.has_iff (map : PhysMap) (a : Nat) :
    PhysMap.has map a = true ↔ ∃ r ∈ map, r.base ≤ a ∧ a < r.base + r.size := by
  simp [PhysMap.has]

/-- R6: under the default map the bytes that exist are those below 2^32. -/
theorem PhysMap.has_defaultPhysMap (a : Nat) : PhysMap.has Config.defaultPhysMap a = true ↔ a < 2 ^ 32 := by
  simp [PhysMap.has_iff, Config.defaultPhysMap]

/-- R109: an access is valid exactly when each of its bytes exists. -/
theorem State.physValid_iff {palen : Nat} (s : State) (pa : BitVec palen) (n : Nat) :
    s.physValid pa n = true ↔ ∀ k < n, PhysMap.has s.physMap (pa.toNat + k) = true := by
  simp [State.physValid]

/-- R6: under the default map an access of one byte or more is valid exactly when its last byte is below 2^32. -/
theorem State.physValid_defaultPhysMap {palen : Nat} {s : State} (map : s.physMap = Config.defaultPhysMap) (pa : BitVec palen)
    {n : Nat} (hn : 0 < n) : s.physValid pa n = true ↔ pa.toNat + n ≤ 2 ^ 32 := by
  simp only [State.physValid_iff, map, PhysMap.has_defaultPhysMap]
  constructor
  · intro h
    have last := h (n - 1) (by omega)
    omega
  · intro h k hk
    omega

end Sys2Proof.Machine

namespace Sys2Proof.Proofs

open Sys2Proof Sys2Proof.Machine

/-- Settles O6: acceptance is well-formedness, and well-formedness tests disjointness of the keys by their collision. -/
theorem constructionAcceptsExactlyWellFormed : Obligations.ConstructionAcceptsExactlyWellFormed := by
  have disjoint (d e : Descriptor) : d.collides e = false ↔ ∀ w, ¬(d.selects w = true ∧ e.selects w = true) := by
    rw [← Bool.not_eq_true, d.collides_iff_exists_word e, not_exists]
  constructor
  · intro c bus fill
    simp only [construct_answers_iff, Configuration.wellFormed_iff, List.pairwise_map, disjoint, List.mem_map]
    exact Iff.rfl
  · intro bus fill
    exact (construct_answers_iff ..).mpr (by decide)

/-- Settles O29, from the byte-by-byte reading of the map and the default map's bound. -/
theorem physValidTestsEveryByte : Obligations.PhysValidTestsEveryByte := by
  intro s pa n
  constructor
  · simp only [State.physValid_iff, PhysMap.has_iff]
  · intro map hn
    exact State.physValid_defaultPhysMap map pa hn

end Sys2Proof.Proofs
end

section
/-!
PROOFS. What a step keeps and what it may change (10_state.md): the invariant, memory, the CSR bank and the fields no
instruction writes. Each is one case split over `ExecEffect`, the list of everything an instruction can leave behind, with one
lemma per operation of the state.
-/

namespace Sys2Proof.Machine

/-! ## The invariant, one operation at a time -/

/-- A word cut to a mask has no bit outside it. -/
theorem and_mask_and_not (v mask : Word) : v &&& mask &&& ~~~mask = 0#32 := by
  rw [BitVec.and_assoc]
  simp

/-- R41, R46: the bits outside the mask of `mepc` are its two low bits. -/
theorem aligned_of_mepc_masked {w : Word} (h : w &&& ~~~Csr.mepc.writeMask = 0#32) : w.extractLsb' 0 2 = 0#2 := by
  refine BitVec.eq_of_getLsbD_eq fun k hk => ?_
  have bit := congrArg (BitVec.getLsbD · k) h
  simp only [BitVec.getLsbD_and, BitVec.getLsbD_not, Csr.writeMask] at bit
  interval_cases k <;> simpa using bit

/-- R41: the part of the invariant that speaks of the CSR bank. `mstatus` has only its fields, and `mscratch`, `mcause` and `mtval`
have full masks. -/
structure CsrBank.Masked (b : CsrBank) : Prop where
  mie : b.mie &&& ~~~Csr.mie.writeMask = 0#32
  mtvec : b.mtvec &&& ~~~Csr.mtvec.writeMask = 0#32
  mepc : b.mepc &&& ~~~Csr.mepc.writeMask = 0#32
  satp : b.satp &&& ~~~Csr.satp.writeMask = 0#32

theorem State.inv_iff (s : State) :
    s.Inv ↔ s.x[0] = 0#32 ∧ s.pc.extractLsb' 0 2 = 0#2 ∧ s.csr.Masked ∧ s.mem.wf := by
  constructor
  · rintro ⟨hx, hpc, hmie, hmtvec, hmepc, hsatp, hmem⟩
    exact ⟨hx, hpc, ⟨hmie, hmtvec, hmepc, hsatp⟩, hmem⟩
  · rintro ⟨hx, hpc, ⟨hmie, hmtvec, hmepc, hsatp⟩, hmem⟩
    exact ⟨hx, hpc, hmie, hmtvec, hmepc, hsatp, hmem⟩

/-- Writing an entry keeps the bits outside every mask 0. -/
theorem CsrBank.Masked.write {b : CsrBank} (h : b.Masked) (c : Csr) (v : Word) : (b.write c v).Masked := by
  cases c with
  | satp => exact { h with satp := maskedWrite_outside h.satp v }
  | mie => exact { h with mie := maskedWrite_outside h.mie v }
  | mtvec => exact { h with mtvec := maskedWrite_outside h.mtvec v }
  | mepc => exact { h with mepc := maskedWrite_outside h.mepc v }
  | mstatus | mscratch | mcause | mtval | mip => exact { h with }

section
variable {s : State} (h : s.Inv)
include h

theorem State.Inv.setPc {t : Word} (aligned : t.extractLsb' 0 2 = 0#2) : (s.setPc t).Inv := by
  obtain ⟨hx, -, hcsr, hmem⟩ := s.inv_iff.mp h
  exact (State.inv_iff _).mpr ⟨hx, aligned, hcsr, hmem⟩

theorem State.Inv.nextPc : s.nextPc.Inv := by
  obtain ⟨-, hpc, -⟩ := s.inv_iff.mp h
  exact h.setPc (add_four_aligned hpc)

theorem State.Inv.writeX (rd : RegIdx) (v : Word) : (s.writeX rd v).Inv := by
  obtain ⟨hx, hpc, hcsr, hmem⟩ := s.inv_iff.mp h
  refine (State.inv_iff _).mpr ⟨(s.writeX_x0 rd v).trans hx, ?_⟩
  simpa using ⟨hpc, hcsr, hmem⟩

theorem State.Inv.retire (rd : RegIdx) (v : Word) : (s.retire rd v).Inv := (h.writeX rd v).nextPc

theorem State.Inv.writeCsr (c : Csr) (v : Word) : (s.writeCsr c v).Inv := by
  obtain ⟨hx, hpc, hcsr, hmem⟩ := s.inv_iff.mp h
  exact (State.inv_iff _).mpr ⟨hx, hpc, hcsr.write c v, hmem⟩

theorem State.Inv.setMem {m : Memory} (canonical : m.wf) : State.Inv { s with mem := m } := by
  obtain ⟨hx, hpc, hcsr, -⟩ := s.inv_iff.mp h
  exact (State.inv_iff _).mpr ⟨hx, hpc, hcsr, canonical⟩

theorem State.Inv.mem_wf : s.mem.wf := by
  obtain ⟨-, -, -, hmem⟩ := s.inv_iff.mp h
  exact hmem

/-- R310, R312: a trap entry cuts `pc` to the mask of `mepc` and goes to an aligned vector. -/
theorem State.Inv.takeTrap (tr : Trap) : (takeTrap tr s).Inv := by
  obtain ⟨hx, -, hcsr, hmem⟩ := s.inv_iff.mp h
  exact (State.inv_iff _).mpr ⟨hx, trapVector_aligned _ _ _, { hcsr with mepc := and_mask_and_not s.pc _ }, hmem⟩

/-- R274: the return goes to `mepc`, whose low bits R46 keeps 0. -/
theorem State.Inv.returnFromTrap : (returnFromTrap s).Inv := by
  obtain ⟨hx, -, hcsr, hmem⟩ := s.inv_iff.mp h
  exact (State.inv_iff _).mpr ⟨hx, aligned_of_mepc_masked hcsr.mepc, { hcsr with }, hmem⟩

end

/-! ## What an instruction keeps -/

theorem ExecEffect.inv {i : Instr} {s t : State} (e : ExecEffect i s t) (h : s.Inv) : t.Inv := by
  cases e with
  | trap tr _ after => exact after ▸ h.takeTrap tr
  | retire rd v after => exact after ▸ h.retire rd v
  | jump rd v target aligned after => exact after ▸ (h.writeX rd v).setPc aligned
  | branch target aligned after => exact after ▸ h.setPc aligned
  | advance after => exact after ▸ h.nextPc
  | storeByte _ _ _ pa v _ after => exact after ▸ (h.setMem (Memory.write8_wf h.mem_wf pa v)).nextPc
  | storeHalf _ _ _ pa v _ after => exact after ▸ (h.setMem (Memory.write16_wf h.mem_wf pa v)).nextPc
  | storeWord _ _ _ pa v _ after => exact after ▸ (h.setMem (Memory.write32_wf h.mem_wf pa v)).nextPc
  | csrWrite c v rd old _ _ after => exact after ▸ (h.writeCsr c v).retire rd old
  | trapReturn _ _ after => exact after ▸ h.returnFromTrap

/-- R28, R41, R74: a step keeps the invariant. -/
theorem step_inv {s t : State} (h : s.Inv) (run : step s = .next t) : t.Inv := by
  rcases step_effect run with ⟨tr, -, rfl⟩ | ⟨_, _, -, -, effect⟩
  · exact h.takeTrap tr
  · exact effect.inv h

/-- R61: an instruction changes memory only if it is a store. -/
theorem ExecEffect.store_of_mem_ne {i : Instr} {s t : State} (e : ExecEffect i s t) (changed : t.mem ≠ s.mem) :
    ∃ rs1 rs2 imm, i = .sb rs1 rs2 imm ∨ i = .sh rs1 rs2 imm ∨ i = .sw rs1 rs2 imm := by
  cases e with
  | storeByte rs1 rs2 imm _ _ is => exact ⟨rs1, rs2, imm, .inl is⟩
  | storeHalf rs1 rs2 imm _ _ is => exact ⟨rs1, rs2, imm, .inr (.inl is)⟩
  | storeWord rs1 rs2 imm _ _ is => exact ⟨rs1, rs2, imm, .inr (.inr is)⟩
  | trap _ _ after | retire _ _ after | jump _ _ _ _ after | branch _ _ after | advance after | csrWrite _ _ _ _ _ _ after
  | trapReturn _ _ after => simp [after] at changed

/-- `t` has the fields of `s` that only the host, or a module that is not loaded, writes (R30, R52, R55, R56). -/
def SameHostFields (s t : State) : Prop :=
  t.f = s.f ∧ t.irq = s.irq ∧ t.added = s.added ∧ t.physMap = s.physMap ∧ t.runState = s.runState ∧ t.haltReason = s.haltReason

theorem ExecEffect.sameHostFields {i : Instr} {s t : State} (e : ExecEffect i s t) : SameHostFields s t := by
  cases e with
  | trap _ _ after | retire _ _ after | jump _ _ _ _ after | branch _ _ after | advance after
  | storeByte _ _ _ _ _ _ after | storeHalf _ _ _ _ _ _ after | storeWord _ _ _ _ _ _ after
  | csrWrite _ _ _ _ _ _ after | trapReturn _ _ after => simp [SameHostFields, after]

/-- R41, R310, R274: the ways an instruction can leave the CSR bank and the mode. -/
theorem ExecEffect.csr_cases {i : Instr} {s t : State} (e : ExecEffect i s t) :
    TakesListedTrap s t
    ∨ (t.mode = s.mode ∧ t.csr = s.csr)
    ∨ (i.mnemonic ∈ csrWriters ∧ t.mode = s.mode ∧ ∃ c v, s.mode.meets c.requiredMode = true ∧ t.csr = s.csr.write c v)
    ∨ (i = .mret ∧ s.mode = .machine) := by
  cases e with
  | trap tr listed after => exact .inl ⟨tr, listed, after⟩
  | retire _ _ after | jump _ _ _ _ after | branch _ _ after | advance after
  | storeByte _ _ _ _ _ _ after | storeHalf _ _ _ _ _ _ after | storeWord _ _ _ _ _ _ after =>
    exact .inr (.inl (by simp [after]))
  | csrWrite c v _ _ is legal after => exact .inr (.inr (.inl ⟨is, by simp [after], c, v, legal, by simp [after]⟩))
  | trapReturn is legal _ => exact .inr (.inr (.inr ⟨is, legal⟩))

/-- R51: S reaches `satp` alone. -/
theorem Mode.supervisor_meets_iff (c : Csr) : Mode.meets .supervisor c.requiredMode = true ↔ c = .satp := by
  cases c <;> decide

end Sys2Proof.Machine

namespace Sys2Proof.Proofs

open Sys2Proof Sys2Proof.Machine

/-- Settles O10: driving the inputs leaves the fields the invariant reads, and the step keeps it. -/
theorem everyStepKeepsTheInvariant : Obligations.EveryStepKeepsTheInvariant := by
  intro q s t h run
  have driven : (driveIrq q s).Inv := h
  exact step_inv driven run

/-- Settles O54: below M the only entry in reach is `satp`, from S, and `MRET` raises. -/
theorem lowerModesCannotChangeMachineCsrs : Obligations.LowerModesCannotChangeMachineCsrs := by
  intro i s t run
  rcases (exec_effect run).csr_cases with trap | ⟨hmode, hcsr⟩ | ⟨-, hmode, c, v, legal, hcsr⟩ | ⟨-, machine⟩
  · exact ⟨fun _ => .inl trap, fun _ => .inl trap⟩
  · exact ⟨fun user => .inr ⟨hmode.trans user, hcsr⟩, fun sup => .inr ⟨hmode.trans sup, by simp [hcsr]⟩⟩
  · constructor
    · intro user
      simp [user, Mode.user_meets] at legal
    · intro sup
      rw [sup, Mode.supervisor_meets_iff] at legal
      subst legal
      exact .inr ⟨hmode.trans sup, by simp [hcsr, CsrBank.write]⟩
  · simp [machine]

/-- Settles O56: a trap entry leaves memory alone, and of the instructions only the stores change it. -/
theorem onlyStoresChangeMemory : Obligations.OnlyStoresChangeMemory := by
  intro s t run changed
  rcases step_effect run with ⟨tr, -, rfl⟩ | ⟨w, i, fetched, decoded, effect⟩
  · exact absurd (takeTrap_mem tr s) changed
  · obtain ⟨rs1, rs2, imm, is⟩ := effect.store_of_mem_ne changed
    exact ⟨w, rs1, rs2, imm, fetched, by simpa [decoded] using is⟩

/-- Settles O57: neither a trap entry nor an instruction writes these fields. -/
theorem noStepTouchesFloatFileInputsOrAddressMap : Obligations.NoStepTouchesFloatFileInputsOrAddressMap := by
  intro s t run
  rcases step_effect run with ⟨tr, -, rfl⟩ | ⟨_, _, -, -, effect⟩
  · exact ⟨rfl, rfl, rfl, rfl, rfl, rfl⟩
  · exact effect.sameHostFields

/-- Settles O58: what is left when the instruction is neither a CSR instruction nor `MRET`. -/
theorem csrsChangeOnlyByCsrInstructionsTrapsAndMret : Obligations.CsrsChangeOnlyByCsrInstructionsTrapsAndMret := by
  intro i s t run other
  rcases (exec_effect run).csr_cases with trap | ⟨hmode, hcsr⟩ | ⟨writer, -⟩ | ⟨rfl, -⟩
  · exact .inl trap
  · exact .inr ⟨hcsr, hmode⟩
  · exact absurd (List.mem_append_left ["MRET"] writer) other
  · simp [Instr.mnemonic] at other

end Sys2Proof.Proofs
end

section
/-!
PROOFS. What U learns of the machine-level CSRs (10_state.md R51): of the bank, translation from U reads `satp` and `MXR` alone
(20_memory.md R88, R104), and everything else an instruction does in U reads none of it. So replacing the bank by one that agrees
on those two commutes with every instruction.
-/

namespace Sys2Proof.Machine

/-- The state with its CSR bank replaced. -/
def State.withCsr (b : CsrBank) (s : State) : State := { s with csr := b }

/-! ## Operations that do not read the bank -/

@[simp] theorem State.withCsr_csr (b : CsrBank) (s : State) : (s.withCsr b).csr = b := rfl
@[simp] theorem State.withCsr_mem (b : CsrBank) (s : State) : (s.withCsr b).mem = s.mem := rfl
@[simp] theorem State.physValid_withCsr (b : CsrBank) (s : State) {palen : Nat} (pa : BitVec palen) (n : Nat) :
    (s.withCsr b).physValid pa n = s.physValid pa n := rfl

theorem State.writeX_withCsr (b : CsrBank) (s : State) (rd : RegIdx) (v : Word) :
    (s.withCsr b).writeX rd v = (s.writeX rd v).withCsr b := by
  unfold State.writeX
  split <;> rfl

theorem State.retire_withCsr (b : CsrBank) (s : State) (rd : RegIdx) (v : Word) :
    (s.withCsr b).retire rd v = (s.retire rd v).withCsr b :=
  congrArg State.nextPc (s.writeX_withCsr b rd v)

theorem transfer_withCsr (b : CsrBank) (t : Word) (s : State) :
    transfer t (s.withCsr b) = (transfer t s).map (State.withCsr b) := by
  unfold transfer
  split <;> rfl

/-- A jump's link and transfer. -/
theorem transfer_writeX_withCsr (b : CsrBank) (t : Word) (s : State) (rd : RegIdx) (v : Word) :
    transfer t ((s.withCsr b).writeX rd v) = (transfer t (s.writeX rd v)).map (State.withCsr b) := by
  rw [State.writeX_withCsr, transfer_withCsr]

theorem branch_withCsr (b : CsrBank) (cond : Word → Word → Bool) (rs1 rs2 : RegIdx) (off : BitVec 13) (s : State) :
    branch cond rs1 rs2 off (s.withCsr b) = (branch cond rs1 rs2 off s).map (State.withCsr b) := by
  unfold branch
  rw [apply_ite (Except.map (State.withCsr b)), ← transfer_withCsr]
  rfl

theorem loadInto_withCsr (b : CsrBank) (rd : RegIdx) (value : Result Word) (s : State) :
    loadInto rd value (s.withCsr b) = (loadInto rd value s).map (State.withCsr b) := by
  cases value with
  | error r => rfl
  | ok v => exact congrArg Except.ok (s.retire_withCsr b rd v)

theorem storeDone_withCsr (b : CsrBank) (written : Result State) :
    storeDone (written.map (State.withCsr b)) = (storeDone written).map (State.withCsr b) := by
  cases written <;> rfl

/-! ## Translation and the checked memory path from U -/

section
variable {s : State} {b : CsrBank} (user : s.mode = .user)
include user

/-- R88: `MPRV` is of machine mode alone. -/
theorem effMode_user (intent : Intent) : effMode s intent = .user := by
  simp [effMode, user]

section
variable (satp : b.satp = s.csr.satp) (mxr : b.mstatus.mxr = s.csr.mstatus.mxr)

include mxr in
/-- R104: from U a page's permission depends on `MXR` and not on `SUM`. -/
theorem permitted_withCsr (pte : Word) (intent : Intent) :
    permitted (s.withCsr b) pte intent (effMode (s.withCsr b) intent) = permitted s pte intent (effMode s intent) := by
  have user' : (s.withCsr b).mode = .user := user
  rw [effMode_user user, effMode_user user']
  cases intent <;> simp [permitted, userBitAllows, mxr]

include mxr in
theorem leafAddress_withCsr (intent : Intent) (va : Word) (level : Nat) (pte : Word) :
    leafAddress (s.withCsr b) intent va level pte = leafAddress s intent va level pte := by
  simp only [leafAddress, permitted_withCsr user mxr]

include mxr in
theorem walk_withCsr (intent : Intent) (va : Word) (level : Nat) (table : PAddr) :
    walk (s.withCsr b) intent va level table = walk s intent va level table := by
  induction level generalizing table with
  | zero =>
    unfold walk
    simp only [State.physValid_withCsr, State.withCsr_mem, leafAddress_withCsr user mxr]
  | succ below ih =>
    unfold walk
    simp only [State.physValid_withCsr, State.withCsr_mem, leafAddress_withCsr user mxr, ih]

include satp mxr

theorem mmuTranslate_withCsr (va : Word) (intent : Intent) (n : Nat) :
    mmuTranslate (s.withCsr b) va intent n = mmuTranslate s va intent n := by
  have user' : (s.withCsr b).mode = .user := user
  have switch : translationOn (s.withCsr b) intent = translationOn s intent := by
    simp [translationOn, effMode_user user, effMode_user user', satp]
  have table : sv32 (s.withCsr b) intent va = sv32 s intent va := by
    simp only [sv32, State.withCsr_csr, satp, walk_withCsr user mxr]
  unfold mmuTranslate
  rw [switch, table]
  rfl

theorem dataAddress_withCsr (va : Word) (intent : Intent) (w : Width) :
    dataAddress mmuTranslate (s.withCsr b) va intent w = dataAddress mmuTranslate s va intent w := by
  simp only [dataAddress, mmuTranslate_withCsr user satp mxr]

theorem memRead8_withCsr (va : Word) : memRead8 mmuTranslate (s.withCsr b) va = memRead8 mmuTranslate s va := by
  simp only [memRead8, dataAddress_withCsr user satp mxr, State.withCsr_mem]

theorem memRead16_withCsr (va : Word) : memRead16 mmuTranslate (s.withCsr b) va = memRead16 mmuTranslate s va := by
  simp only [memRead16, dataAddress_withCsr user satp mxr, State.withCsr_mem]

theorem memRead32_withCsr (va : Word) : memRead32 mmuTranslate (s.withCsr b) va = memRead32 mmuTranslate s va := by
  simp only [memRead32, dataAddress_withCsr user satp mxr, State.withCsr_mem]

/-- A store's write, whatever its width: the address is the same, and the bytes go to the memory of either state. -/
theorem dataAddress_map_withCsr (va : Word) (w : Width) (write : PAddr → Memory) :
    (dataAddress mmuTranslate (s.withCsr b) va .store w).map (fun pa => { s.withCsr b with mem := write pa }) =
      ((dataAddress mmuTranslate s va .store w).map fun pa => { s with mem := write pa }).map (State.withCsr b) := by
  rw [dataAddress_withCsr user satp mxr]
  cases dataAddress mmuTranslate s va .store w <;> rfl

theorem behaveSb_withCsr (rs1 rs2 : RegIdx) (imm : BitVec 12) :
    behaveSb mmuTranslate rs1 rs2 imm (s.withCsr b) = (behaveSb mmuTranslate rs1 rs2 imm s).map (State.withCsr b) :=
  (congrArg storeDone (dataAddress_map_withCsr user satp mxr _ .byte _)).trans (storeDone_withCsr b _)

theorem behaveSh_withCsr (rs1 rs2 : RegIdx) (imm : BitVec 12) :
    behaveSh mmuTranslate rs1 rs2 imm (s.withCsr b) = (behaveSh mmuTranslate rs1 rs2 imm s).map (State.withCsr b) :=
  (congrArg storeDone (dataAddress_map_withCsr user satp mxr _ .half _)).trans (storeDone_withCsr b _)

theorem behaveSw_withCsr (rs1 rs2 : RegIdx) (imm : BitVec 12) :
    behaveSw mmuTranslate rs1 rs2 imm (s.withCsr b) = (behaveSw mmuTranslate rs1 rs2 imm s).map (State.withCsr b) :=
  (congrArg storeDone (dataAddress_map_withCsr user satp mxr _ .word _)).trans (storeDone_withCsr b _)

end

/-! ## Instructions that U may not run -/

theorem csrSwap_user (insn : Word) (rd : RegIdx) (a : CsrAddr) (v : Word) :
    csrSwap loadedCsr insn rd a v s = .error (.trap (illegalInstruction insn)) := by
  rcases csrSwap_cases insn rd a v s with ⟨c, -, legal, -⟩ | ⟨-, raises⟩
  · simp [user, Mode.user_meets] at legal
  · exact raises

theorem csrUpdate_user (insn : Word) (rd : RegIdx) (a : CsrAddr) (writes : Bool) (update : Word → Word) :
    csrUpdate loadedCsr insn rd a writes update s = .error (.trap (illegalInstruction insn)) := by
  rcases csrUpdate_cases insn rd a writes update s with ⟨c, -, legal, -⟩ | ⟨-, raises⟩
  · simp [user, Mode.user_meets] at legal
  · exact raises

theorem behaveMret_user (insn : Word) : behaveMret loadedCsr insn s = .error (.trap (illegalInstruction insn)) := by
  rcases behaveMret_cases insn s with ⟨machine, -⟩ | ⟨-, raises⟩
  · simp [user] at machine
  · exact raises

end

/-! ## Every instruction -/

/-- The instruction answers the same over the bank `b`: its behaviour, which raises listed traps at most, commutes with the
replacement. -/
def SameOverBank (b : CsrBank) (s : State) (i : Instr) : Prop :=
  ∃ r : Result State, OnlyListed r ∧ exec i s = complete s r
    ∧ exec i (s.withCsr b) = complete (s.withCsr b) (r.map (State.withCsr b))

theorem SameOverBank.intro {b : CsrBank} {s : State} {i : Instr} {r r' : Result State} (listed : OnlyListed r)
    (run : exec i s = complete s r) (run' : exec i (s.withCsr b) = complete (s.withCsr b) r')
    (commutes : r' = r.map (State.withCsr b)) : SameOverBank b s i :=
  ⟨r, listed, run, commutes ▸ run'⟩

/-- A behaviour that raises the same listed trap over either bank. -/
theorem SameOverBank.trap {b : CsrBank} {s : State} {i : Instr} {r r' : Result State} {tr : Trap} (listed : tr.Listed)
    (run : exec i s = complete s r) (run' : exec i (s.withCsr b) = complete (s.withCsr b) r')
    (raises : r = .error (.trap tr)) (raises' : r' = .error (.trap tr)) : SameOverBank b s i :=
  .intro (raises ▸ .trap listed) run run' (raises ▸ raises')

/-- A behaviour that retires. -/
theorem SameOverBank.retire {b : CsrBank} {s : State} {i : Instr} {rd : RegIdx} {v : Word}
    (run : exec i s = .next (s.retire rd v)) (run' : exec i (s.withCsr b) = .next ((s.withCsr b).retire rd v)) :
    SameOverBank b s i :=
  .intro (.ok _) run (r' := .ok _) run' (congrArg Except.ok (s.retire_withCsr b rd v))

/-- A load whose value is the same over either bank. -/
theorem SameOverBank.load {b : CsrBank} {s : State} {i : Instr} {rd : RegIdx} {value value' : Result Word}
    (listed : OnlyListed value) (run : exec i s = complete s (loadInto rd value s))
    (run' : exec i (s.withCsr b) = complete (s.withCsr b) (loadInto rd value' (s.withCsr b))) (same : value' = value) :
    SameOverBank b s i :=
  .intro (listed.map _) run run' (same ▸ loadInto_withCsr b rd value' s)

theorem envCallCause_listed (m : Mode) : (Trap.exception (envCallCause m) none).Listed := by
  cases m <;> simp [envCallCause, Trap.Listed]

/-- R51, R88, R104: in U every instruction answers the same over a bank that agrees on `satp` and `MXR`. -/
theorem sameOverBank_of_user {s : State} {b : CsrBank} (user : s.mode = .user) (satp : b.satp = s.csr.satp)
    (mxr : b.mstatus.mxr = s.csr.mstatus.mxr) (i : Instr) : SameOverBank b s i := by
  have user' : (s.withCsr b).mode = .user := user
  cases i with
  | jal => exact .intro (transfer_listed _ _) rfl rfl (transfer_writeX_withCsr ..)
  | jalr => exact .intro (transfer_listed _ _) rfl rfl (transfer_writeX_withCsr ..)
  | beq => exact .intro (branch_listed _ _ _ _ _) rfl rfl (branch_withCsr b (fun x y => x == y) ..)
  | bne => exact .intro (branch_listed _ _ _ _ _) rfl rfl (branch_withCsr b (fun x y => x != y) ..)
  | blt => exact .intro (branch_listed _ _ _ _ _) rfl rfl (branch_withCsr b ltSigned ..)
  | bge => exact .intro (branch_listed _ _ _ _ _) rfl rfl (branch_withCsr b (fun x y => !ltSigned x y) ..)
  | bltu => exact .intro (branch_listed _ _ _ _ _) rfl rfl (branch_withCsr b ltUnsigned ..)
  | bgeu => exact .intro (branch_listed _ _ _ _ _) rfl rfl (branch_withCsr b (fun x y => !ltUnsigned x y) ..)
  | lb => exact .load (((dataAddress_listed _ _ _ _).map _).map _) rfl rfl (congrArg _ (memRead8_withCsr user satp mxr _))
  | lh => exact .load (((dataAddress_listed _ _ _ _).map _).map _) rfl rfl (congrArg _ (memRead16_withCsr user satp mxr _))
  | lw => exact .load ((dataAddress_listed _ _ _ _).map _) rfl rfl (memRead32_withCsr user satp mxr _)
  | lbu => exact .load (((dataAddress_listed _ _ _ _).map _).map _) rfl rfl (congrArg _ (memRead8_withCsr user satp mxr _))
  | lhu => exact .load (((dataAddress_listed _ _ _ _).map _).map _) rfl rfl (congrArg _ (memRead16_withCsr user satp mxr _))
  | sb => exact .intro (((dataAddress_listed _ _ _ _).map _).map _) rfl rfl (behaveSb_withCsr user satp mxr ..)
  | sh => exact .intro (((dataAddress_listed _ _ _ _).map _).map _) rfl rfl (behaveSh_withCsr user satp mxr ..)
  | sw => exact .intro (((dataAddress_listed _ _ _ _).map _).map _) rfl rfl (behaveSw_withCsr user satp mxr ..)
  | fence => exact .intro (.ok _) rfl rfl rfl
  | ecall => exact .trap (envCallCause_listed s.mode) rfl rfl rfl rfl
  | ebreak => exact .trap (by simp [Trap.Listed]) rfl rfl rfl rfl
  | mret => exact .trap (illegalInstruction_listed _) rfl rfl (behaveMret_user user _) (behaveMret_user user' _)
  | csrrw => exact .trap (illegalInstruction_listed _) rfl rfl (csrSwap_user user ..) (csrSwap_user user' ..)
  | csrrwi => exact .trap (illegalInstruction_listed _) rfl rfl (csrSwap_user user ..) (csrSwap_user user' ..)
  | csrrs => exact .trap (illegalInstruction_listed _) rfl rfl (csrUpdate_user user ..) (csrUpdate_user user' ..)
  | csrrc => exact .trap (illegalInstruction_listed _) rfl rfl (csrUpdate_user user ..) (csrUpdate_user user' ..)
  | csrrsi => exact .trap (illegalInstruction_listed _) rfl rfl (csrUpdate_user user ..) (csrUpdate_user user' ..)
  | csrrci => exact .trap (illegalInstruction_listed _) rfl rfl (csrUpdate_user user ..) (csrUpdate_user user' ..)
  | _ => exact .retire rfl rfl

/-- An instruction that completes in U, without a trap, completes likewise over the other bank. -/
theorem SameOverBank.completes {b : CsrBank} {s t : State} {i : Instr} (same : SameOverBank b s i)
    (run : exec i s = .next t) (user : t.mode = .user) : exec i (s.withCsr b) = .next (t.withCsr b) := by
  obtain ⟨r, listed, hr, hr'⟩ := same
  rcases complete_cases listed (hr.symm.trans run) with rfl | ⟨tr, -, -, rfl⟩
  · exact hr'
  · simp at user

end Sys2Proof.Machine

namespace Sys2Proof.Proofs

open Sys2Proof Sys2Proof.Machine

/-- Settles O55: the run over the other bank is the same run, and a trap would have left U. -/
theorem userModeLearnsNothingOfMachineCsrsApartFromMxr : Obligations.UserModeLearnsNothingOfMachineCsrsApartFromMxr := by
  intro i s t b user satp mxr run stays
  exact (sameOverBank_of_user user satp mxr i).completes run stays

end Sys2Proof.Proofs
end

section
/-!
PROOFS. The CSR bank (10_state.md R36 to R52): what an entry reads after a write, where the fields of `mstatus` and `mip` stand,
the legality test of the checked path, and the raw path.
-/

namespace Sys2Proof.Machine

/-! ## `mstatus` and `mip` as words (R42, R50) -/

/-- A word has no bit outside a mask when each bit the mask does not keep is 0. -/
theorem and_not_eq_zero_of_bits {w mask : Word} (h : ∀ k < 32, mask.getLsbD k = false → w.getLsbD k = false) :
    w &&& ~~~mask = 0#32 := by
  refine BitVec.eq_of_getLsbD_eq fun k hk => ?_
  cases kept : mask.getLsbD k
  · simp [h k hk kept]
  · simp [kept]

/-- R42: outside the mask of `mstatus` its word is 0. -/
theorem Mstatus.toWord_masked (m : Mstatus) : m.toWord &&& ~~~Csr.mstatus.writeMask = 0#32 := by
  refine and_not_eq_zero_of_bits fun k hk => ?_
  rw [m.getLsbD_toWord hk]
  interval_cases k <;> simp [Csr.writeMask]

/-- R50: outside bits 3, 7 and 11 `mip` is 0. -/
theorem IrqInputs.mip_masked (q : IrqInputs) : q.mip &&& ~~~0x00000888#32 = 0#32 := by
  refine and_not_eq_zero_of_bits fun k hk => ?_
  rw [q.getLsbD_mip hk]
  interval_cases k <;> simp

/-- R42: `MPP` stands at bits 12:11, as the number of a mode. -/
theorem Mstatus.extract_mpp_toWord (m : Mstatus) : m.toWord.extractLsb' 11 2 = m.mpp.number := by
  refine BitVec.eq_of_getLsbD_eq fun k hk => ?_
  simp only [BitVec.getLsbD_extractLsb', hk, decide_true, Bool.true_and]
  rw [m.getLsbD_toWord (by omega)]
  interval_cases k <;> rfl

/-- R34, R42: the legality fix-up stores the number written unless it is 2, which is no mode. -/
theorem Mode.number_ofNumber?_getD (n : BitVec 2) (old : Mode) :
    ((Mode.ofNumber? n).getD old).number = if n = 2#2 then old.number else n := by
  revert n
  cases old <;> decide

/-- R42: what `mstatus` reads after a write. -/
theorem Mstatus.toWord_write (m : Mstatus) (v : Word) :
    (m.write v).toWord =
      if v.extractLsb' 11 2 = 2#2 then (v &&& 0x000E0088) ||| (m.toWord &&& 0x00001800) else v &&& 0x000E1888 := by
  have mpp (k : Nat) : (m.write v).mpp.number.getLsbD k =
      if v.extractLsb' 11 2 = 2#2 then m.mpp.number.getLsbD k else (v.extractLsb' 11 2).getLsbD k := by
    rw [Mstatus.write, Mode.number_ofNumber?_getD]
    split <;> rfl
  refine BitVec.eq_of_getLsbD_eq fun k hk => ?_
  rw [Mstatus.getLsbD_toWord _ hk]
  split_ifs with h
  · rw [BitVec.getLsbD_or, BitVec.getLsbD_and, BitVec.getLsbD_and, m.getLsbD_toWord hk]
    simp only [mpp, if_pos h]
    interval_cases k <;> simp [Mstatus.write]
  · rw [BitVec.getLsbD_and]
    simp only [mpp, if_neg h]
    interval_cases k <;> simp [Mstatus.write]

/-- R41: writing an entry leaves what every other entry reads. -/
theorem State.readCsr_writeCsr (s : State) (c d : Csr) (v : Word) :
    (s.writeCsr c v).readCsr d = if d = c then (s.writeCsr c v).readCsr c else s.readCsr d := by
  cases c <;> cases d <;> rfl

end Sys2Proof.Machine

namespace Sys2Proof.Proofs

open Sys2Proof Sys2Proof.Machine

/-- Settles O50: the masked entries read what they store, and `mstatus` is read bit by bit. -/
theorem csrWritesFollowTheirMasks : Obligations.CsrWritesFollowTheirMasks := by
  intro s v
  refine ⟨rfl, rfl, rfl, rfl, rfl, rfl, rfl, rfl, s.csr.mstatus.toWord_write v,
    fun c d h => (s.readCsr_writeCsr c d v).trans (if_neg h), fun _ => rfl, ?_⟩
  rintro ⟨-, -, hmie, hmtvec, hmepc, hsatp, -⟩
  exact ⟨hsatp, s.csr.mstatus.toWord_masked, hmie, hmtvec, hmepc⟩

/-- Settles O51, from the bits of the two words. -/
theorem mstatusAndMipFieldPositions : Obligations.MstatusAndMipFieldPositions := by
  intro s
  have status {k : Nat} (hk : k < 32) := s.csr.mstatus.getLsbD_toWord hk
  have pending {k : Nat} (hk : k < 32) := s.irq.getLsbD_mip hk
  refine ⟨status (by decide), status (by decide), status (by decide), status (by decide), status (by decide), ?_,
    s.csr.mstatus.toWord_masked, pending (by decide), pending (by decide), pending (by decide), s.irq.mip_masked⟩
  refine s.csr.mstatus.extract_mpp_toWord.trans ?_
  cases s.csr.mstatus.mpp <;> rfl

end Sys2Proof.Proofs
end

section
/-!
PROOFS. Access to the registers and the CSR bank (10_state.md R21, R30, R36 to R40): the x and f files, the legality test of the
checked path, the raw path, and the bank and the state a constructed core starts with.
-/

namespace Sys2Proof.Machine

/-! ## The addresses of the loaded entries (R40) -/

theorem Csr.ofAddr?_eq_some_iff (a : CsrAddr) (c : Csr) : Csr.ofAddr? a = some c ↔ a = c.addr := by
  constructor
  · intro h
    unfold Csr.ofAddr? at h
    split at h <;> cases h <;> rfl
  · rintro rfl
    cases c <;> rfl

/-- R51: the addresses a mode may access are those of the entries whose required mode it meets. -/
theorem csrLegal_iff (mode : Mode) (a : CsrAddr) :
    CsrLegal mode a ↔ ∃ c, Csr.ofAddr? a = some c ∧ mode.meets c.requiredMode = true := by
  simp only [Csr.ofAddr?_eq_some_iff]
  constructor
  · rintro (⟨rfl, mem⟩ | ⟨rfl, rfl⟩)
    · simp only [List.mem_cons, List.not_mem_nil, or_false] at mem
      rcases mem with rfl | rfl | rfl | rfl | rfl | rfl | rfl | rfl | rfl
      · exact ⟨.satp, rfl, rfl⟩
      · exact ⟨.mstatus, rfl, rfl⟩
      · exact ⟨.mie, rfl, rfl⟩
      · exact ⟨.mtvec, rfl, rfl⟩
      · exact ⟨.mscratch, rfl, rfl⟩
      · exact ⟨.mepc, rfl, rfl⟩
      · exact ⟨.mcause, rfl, rfl⟩
      · exact ⟨.mtval, rfl, rfl⟩
      · exact ⟨.mip, rfl, rfl⟩
    · exact ⟨.satp, rfl, rfl⟩
  · rintro ⟨c, rfl, legal⟩
    cases mode with
    | user => simp [Mode.user_meets] at legal
    | supervisor => exact .inr ⟨rfl, congrArg Csr.addr ((Mode.supervisor_meets_iff c).mp legal)⟩
    | machine => exact .inl ⟨rfl, by cases c <;> decide⟩

/-! ## The checked path (R37, R38) -/

/-- R35: the mode suffices when its number is at least the one required. -/
theorem Mode.meets_iff (current required : Mode) :
    current.meets required = true ↔ required.number.toNat ≤ current.number.toNat := by
  simp [Mode.meets, BitVec.ule]

section
variable {bank : CsrLookup} {insn : Word} {a : CsrAddr} {s : State}

theorem csrCheck_of_none (h : bank a = none) : csrCheck bank insn a s = .error (.trap (illegalInstruction insn)) := by
  simp [csrCheck, h]

theorem csrCheck_of_entry {e : CsrEntry} (h : bank a = some e) :
    csrCheck bank insn a s = if s.mode.meets e.required then .ok e else .error (.trap (illegalInstruction insn)) := by
  simp [csrCheck, h]

/-- A legal checked access is the entry's own. -/
theorem checkedCsr_legal {e : CsrEntry} (h : csrCheck bank insn a s = .ok e) (v : Word) :
    checkedCsrRead bank insn a s = e.read s ∧ checkedCsrWrite bank insn a v s = e.write v s := by
  simp only [checkedCsrRead, checkedCsrWrite, h]
  exact ⟨rfl, rfl⟩

/-- An illegal checked access raises what the test raises, for reading and for writing. -/
theorem checkedCsr_illegal {r : Raised} (h : csrCheck bank insn a s = .error r) (v : Word) :
    checkedCsrRead bank insn a s = .error r ∧ checkedCsrWrite bank insn a v s = .error r := by
  simp only [checkedCsrRead, checkedCsrWrite, h]
  exact ⟨rfl, rfl⟩

end

/-! ## The raw path (R39) -/

theorem hostReadRawCsr_loaded (c : Csr) (s : State) : hostReadRawCsr loadedCsr c.addr s = (some (s.readCsr c), s) := by
  simp [hostReadRawCsr]

theorem hostWriteRawCsr_loaded (c : Csr) (v : Word) (s : State) : hostWriteRawCsr loadedCsr c.addr v s = s.writeCsr c v := by
  simp [hostWriteRawCsr]

/-! ## The f file (R30, R31) -/

theorem FRegs.flen_write (file : FRegs) (i : RegIdx) (v : BitVec 64) : (file.write i v).flen = file.flen := by
  cases file <;> rfl

theorem FRegs.read_write_same (file : FRegs) (i : RegIdx) (v : BitVec 64) :
    (file.write i v).read i = match file.flen with
      | .f32 => (v.extractLsb' 0 32).zeroExtend 64
      | .f64 => v := by
  cases file with
  | f32 r => simp [FRegs.read, FRegs.write, FRegs.flen, BitVec.setWidth_eq_extractLsb']
  | f64 r => simp [FRegs.read, FRegs.write, FRegs.flen]

theorem FRegs.read_write_of_ne (file : FRegs) {i j : RegIdx} (h : j ≠ i) (v : BitVec 64) :
    (file.write i v).read j = file.read j := by
  have places : i.toNat ≠ j.toNat := fun e => h (BitVec.eq_of_toNat_eq e.symm)
  cases file <;> simp [FRegs.read, FRegs.write, places]

/-! ## Construction (R36, R52, R370) -/

/-- R36: where no two entries share an address, the entry at an address is the one registered there. -/
theorem Cpu.csr_eq_some_iff {b : Cpu} (apart : (b.bank.map CsrEntry.addr).Nodup) (a : CsrAddr) (e : CsrEntry) :
    b.csr a = some e ↔ e ∈ b.bank ∧ e.addr = a := by
  constructor
  · intro h
    exact ⟨List.mem_of_find?_eq_some h, by simpa using List.find?_some h⟩
  · rintro ⟨mem, rfl⟩
    obtain ⟨e', found⟩ := Option.isSome_iff_exists.mp ((b.csr_isSome e.addr).mpr (List.mem_map_of_mem mem))
    have same : e'.addr = e.addr := by simpa using List.find?_some found
    rw [found, List.inj_on_of_nodup_map apart (List.mem_of_find?_eq_some found) mem same]

/-- R52: an added entry starts from the reset value its module gives. -/
theorem lookup_initialAdded {bank : List CsrEntry} (apart : (bank.map CsrEntry.addr).Nodup) {e : CsrEntry} (mem : e ∈ bank)
    {v : Word} (reset : e.reset = some v) : (initialAdded bank).lookup e.addr = some v := by
  induction bank with
  | nil => cases mem
  | cons d rest ih =>
    obtain ⟨absent, apart'⟩ := List.nodup_cons.mp apart
    rcases List.mem_cons.mp mem with rfl | mem'
    · simp [initialAdded, reset]
    · have ne : e.addr ≠ d.addr := fun h => absent (h ▸ List.mem_map_of_mem mem')
      cases hd : d.reset with
      | none => simpa [initialAdded, hd] using ih apart' mem'
      | some u => simpa [initialAdded, hd, List.lookup, beq_false_of_ne ne] using ih apart' mem'

/-- R62: the CSRs after reset, whatever the fill, hold no bit outside their masks. -/
theorem ResetFill.bank_masked (fill : ResetFill) : fill.bank.Masked where
  mie := and_mask_and_not _ _
  mtvec := and_mask_and_not _ _
  mepc := and_mask_and_not _ _
  satp := and_mask_and_not _ _

/-- R361: reset to an aligned vector leaves a state that satisfies the invariant. -/
theorem Cpu.resetTo_inv (b : Cpu) {vector : Word} (aligned : vector.extractLsb' 0 2 = 0#2) (fill : ResetFill) {s : State}
    (canonical : s.mem.wf) : (b.resetTo vector fill s).Inv :=
  (State.inv_iff _).mpr ⟨by simp [Cpu.resetTo], aligned, fill.bank_masked, canonical⟩

end Sys2Proof.Machine

namespace Sys2Proof.Proofs

open Sys2Proof Sys2Proof.Machine

/-- Settles O59: the entry written keeps the low `FLEN` bits, and every other entry stays. -/
theorem floatRegistersStoreFlenBits : Obligations.FloatRegistersStoreFlenBits := by
  intro file i j v
  refine ⟨file.flen_write i v, ?_⟩
  split_ifs with h
  · exact h ▸ file.read_write_same j v
  · exact file.read_write_of_ne h v

/-- Settles O9: reset cuts every fill to the masks, and an accepted configuration uses each CSR address once. -/
theorem constructedStatesSatisfyTheInvariant : Obligations.ConstructedStatesSatisfyTheInvariant := by
  refine ⟨by decide, fun c bus fill b s built => ?_⟩
  obtain ⟨accepted, rfl, rfl⟩ := construct_cases built
  obtain ⟨-, apart, -, aligned⟩ := c.wellFormed_iff.mp accepted
  refine ⟨fun canonical => c.build.resetTo_inv aligned fill canonical, Cpu.csr_eq_some_iff apart, fun e mem v reset => ?_⟩
  exact congrArg (Option.getD · 0) (lookup_initialAdded apart mem reset)

/-- Settles O34, from what `x[r]` reads after a write. -/
theorem x0ReadsZeroAndDiscardsWrites : Obligations.X0ReadsZeroAndDiscardsWrites := by
  intro s i v
  refine ⟨s.readX_zero, fun h => ?_, fun j h => ?_, s.writeX_zero v⟩
  · rw [State.readX_writeX, if_pos ⟨rfl, h⟩]
  · rw [State.readX_writeX, if_neg fun same => h same.1]

/-- Settles O46: the test refuses exactly the addresses without an entry whose required mode is met. -/
theorem csrAddressesAndTheirPrivilege : Obligations.CsrAddressesAndTheirPrivilege := by
  refine ⟨fun a c => ?_, fun insn a v s => ?_⟩
  · rw [Csr.ofAddr?_eq_some_iff]
    cases c <;> simp [Csr.addr]
  · rw [csrLegal_iff]
    rcases loadedCsr_check_cases insn a s with ⟨c, at_a, legal, passes⟩ | ⟨refused, raises⟩
    · obtain ⟨read, write⟩ := checkedCsr_legal passes v
      rw [read, write]
      simp [Csr.entry, at_a, legal]
    · obtain ⟨read, write⟩ := checkedCsr_illegal raises v
      rw [read, write]
      simpa [illegalInstruction] using refused

/-- Settles O47: one test, before either access. -/
theorem checkedCsrAccessTestsEntryThenMode : Obligations.CheckedCsrAccessTestsEntryThenMode := by
  intro insn a v s
  refine ⟨fun bank => ⟨fun absent => checkedCsr_illegal (csrCheck_of_none absent) v,
      fun e at_a => ⟨fun low => ?_, fun met => ?_⟩⟩,
    fun c at_a met => ?_⟩
  · have short : ¬ s.mode.meets e.required = true := by
      rw [Mode.meets_iff]
      omega
    exact checkedCsr_illegal ((csrCheck_of_entry at_a).trans (if_neg short)) v
  · exact checkedCsr_legal ((csrCheck_of_entry at_a).trans (if_pos ((Mode.meets_iff _ _).mpr met))) v
  · have entry : loadedCsr a = some c.entry := by rw [loadedCsr_eq, at_a]; rfl
    exact checkedCsr_legal ((csrCheck_of_entry entry).trans (if_pos ((Mode.meets_iff _ _).mpr met))) v

/-- Settles O52: a raw access is the entry's own, or halts the core where there is none. -/
theorem rawCsrAccessSkipsTheModeTestOnly : Obligations.RawCsrAccessSkipsTheModeTestOnly := by
  intro bank s a v
  refine ⟨fun e at_a => ⟨fun w t read => ?_, fun t write => ?_⟩, fun c at_a => ?_, fun absent => ?_, fun answers tr => ?_⟩
  · simp [hostReadRawCsr, csrReadRaw, at_a, read]
  · simp [hostWriteRawCsr, csrWriteRaw, at_a, write]
  · obtain rfl := (Csr.ofAddr?_eq_some_iff a c).mp at_a
    exact ⟨hostReadRawCsr_loaded c s, hostWriteRawCsr_loaded c v s⟩
  · have halts : hostWriteRawCsr bank a v s = halt .contractViolation s := by
      simp [hostWriteRawCsr, csrWriteRaw, absent, hostDropped, recover]
    refine ⟨by simp [hostReadRawCsr, csrReadRaw, absent, hostDropped, recover, halt], halts, ?_⟩
    rw [halts]
    rfl
  · exact takeTrapRaw_answers answers tr s

end Sys2Proof.Proofs
end

section
/-!
PROOFS. The bus (20_memory.md R71 to R75) and what a store leaves for the load or the fetch after it (R80, R84, R115). A write of
any width is a run of byte writes, so what it leaves is said once, byte by byte, for every width.
-/

namespace Sys2Proof.Machine

/-! ## Bytes stored -/

/-- R74: `m'` is `m` with the low `n` bytes of `v` stored from `base` on, low byte first. -/
def Memory.StoresBytes {w : Nat} (m m' : Memory) (base n : Nat) (v : BitVec w) : Prop :=
  ∀ a, m'.read a = if base ≤ a ∧ a < base + n then v.extractLsb' (8 * (a - base)) 8 else m.read a

namespace Memory.StoresBytes

variable {w base n : Nat} {m m' : Memory} {v : BitVec w}

theorem empty (m : Memory) (base : Nat) (v : BitVec w) : StoresBytes m m base 0 v := by
  intro a
  rw [if_neg (by omega)]

/-- One more byte, at the next address. -/
theorem write (h : StoresBytes m m' base n v) (canonical : m'.wf) :
    StoresBytes m (m'.write (base + n) (v.extractLsb' (8 * n) 8)) base (n + 1) v := by
  intro a
  rw [Memory.read_write canonical, h a]
  by_cases last : a = base + n
  · simp [last]
  · have same : (base ≤ a ∧ a < base + (n + 1)) ↔ (base ≤ a ∧ a < base + n) := by omega
    simp only [if_neg last, same]

theorem read_inside (h : StoresBytes m m' base n v) {k : Nat} (hk : k < n) :
    m'.read (base + k) = v.extractLsb' (8 * k) 8 := by
  rw [h, if_pos (by omega), Nat.add_sub_cancel_left]

/-- The bytes of a value cut to `len` bits are those of the value, where they lie within the cut. -/
theorem of_low {len : Nat} (h : StoresBytes m m' base n (v.extractLsb' 0 len)) (fits : 8 * n ≤ len) :
    StoresBytes m m' base n v := by
  intro a
  rw [h a]
  split
  · exact BitVec.extractLsb'_extractLsb'_of_le (by omega)
  · rfl

end Memory.StoresBytes

section
variable {m : Memory} (canonical : m.wf) {palen : Nat} (pa : BitVec palen)
include canonical

theorem Memory.storesBytes_write8 (v : BitVec 8) : m.StoresBytes (m.write8 pa v) pa.toNat 1 v := by
  have written := (StoresBytes.empty m pa.toNat v).write canonical
  rwa [Nat.mul_zero, BitVec.extractLsb'_eq_self] at written

theorem Memory.storesBytes_write16 (v : BitVec 16) : m.StoresBytes (m.write16 pa v) pa.toNat 2 v :=
  ((StoresBytes.empty m pa.toNat v).write canonical).write (Memory.write_wf canonical _ _)

theorem Memory.storesBytes_write32 (v : BitVec 32) : m.StoresBytes (m.write32 pa v) pa.toNat 4 v := by
  have one := Memory.write_wf canonical pa.toNat (byteOf v 0)
  have two := Memory.write_wf one (pa.toNat + 1) (byteOf v 1)
  have three := Memory.write_wf two (pa.toNat + 2) (byteOf v 2)
  exact ((((StoresBytes.empty m pa.toNat v).write canonical).write one).write two).write three

end

/-- R74: byte `k` of a word read is the byte at `pa + k`. -/
theorem Memory.byte_read32 (m : Memory) {palen : Nat} (pa : BitVec palen) {k : Nat} (hk : k < 4) :
    (m.read32 pa).extractLsb' (8 * k) 8 = m.read (pa.toNat + k) := by
  simp only [Memory.read32, wordOfBytes]
  interval_cases k
  · exact BitVec.extractLsb'_append_eq_right
  · rw [BitVec.extractLsb'_append_eq_of_le (by decide), BitVec.extractLsb'_append_eq_right]
  · rw [BitVec.extractLsb'_append_eq_of_le (by decide), BitVec.extractLsb'_append_eq_of_le (by decide),
      BitVec.extractLsb'_append_eq_right]
  · rw [BitVec.extractLsb'_append_eq_of_le (by decide), BitVec.extractLsb'_append_eq_of_le (by decide)]
    exact BitVec.extractLsb'_append_eq_left

/-! ## Loads and stores whose address translates (R250, R253, R256 to R258) -/

section
variable {s : State} {rs1 rs2 rd : RegIdx} {imm : BitVec 12} {pa : PAddr}

theorem exec_lw_of_translates (aligned : (effectiveAddress s rs1 imm).toNat % 4 = 0)
    (maps : mmuTranslate s (effectiveAddress s rs1 imm) .load 4 = .ok pa) :
    exec (.lw rd rs1 imm) s = .next (s.retire rd (s.mem.read32 pa)) := by
  have address := (dataAddress_aligned (w := .word) aligned).trans maps
  simp [exec, execLw, behaveLw, memRead32, address, Except.map, loadInto]

theorem exec_sb_of_translates (maps : mmuTranslate s (effectiveAddress s rs1 imm) .store 1 = .ok pa) :
    exec (.sb rs1 rs2 imm) s = .next { s with mem := s.mem.write8 pa ((s.readX rs2).extractLsb' 0 8) }.nextPc := by
  have address := (dataAddress_aligned (w := .byte) (Nat.mod_one _)).trans maps
  simp [exec, execSb, behaveSb, memWrite8, address, Except.map, storeDone]

theorem exec_sh_of_translates (aligned : (effectiveAddress s rs1 imm).toNat % 2 = 0)
    (maps : mmuTranslate s (effectiveAddress s rs1 imm) .store 2 = .ok pa) :
    exec (.sh rs1 rs2 imm) s = .next { s with mem := s.mem.write16 pa ((s.readX rs2).extractLsb' 0 16) }.nextPc := by
  have address := (dataAddress_aligned (w := .half) aligned).trans maps
  simp [exec, execSh, behaveSh, memWrite16, address, Except.map, storeDone]

theorem exec_sw_of_translates (aligned : (effectiveAddress s rs1 imm).toNat % 4 = 0)
    (maps : mmuTranslate s (effectiveAddress s rs1 imm) .store 4 = .ok pa) :
    exec (.sw rs1 rs2 imm) s = .next { s with mem := s.mem.write32 pa (s.readX rs2) }.nextPc := by
  have address := (dataAddress_aligned (w := .word) aligned).trans maps
  simp [exec, execSw, behaveSw, memWrite32, address, Except.map, storeDone]

end

/-- R115: what the fetch after a store reads. -/
theorem fetch_sees_storesBytes {m : Memory} {t : State} {pa paF : PAddr} {n : Nat} {v : Word}
    (stored : m.StoresBytes t.mem pa.toNat n v) (maps : mmuTranslate t t.pc .fetch 4 = .ok paF) :
    ∃ w, fetch t = .ok w ∧ ∀ k, k < 4 →
      w.extractLsb' (8 * k) 8 =
        if pa.toNat ≤ paF.toNat + k ∧ paF.toNat + k < pa.toNat + n then
          v.extractLsb' (8 * (paF.toNat + k - pa.toNat)) 8
        else m.read (paF.toNat + k) := by
  refine ⟨t.mem.read32 paF, by simp [fetch, fetchVia, maps, Except.map], fun k hk => ?_⟩
  rw [Memory.byte_read32 _ _ hk]
  exact stored _

/-! ## Misaligned accesses (R81) -/

/-- R71, R250: the access a load or store makes: base register, offset, intent and width. -/
def dataAccess? : Instr → Option (RegIdx × BitVec 12 × Intent × Width)
  | .lb _ rs1 imm => some (rs1, imm, .load, .byte)
  | .lh _ rs1 imm => some (rs1, imm, .load, .half)
  | .lw _ rs1 imm => some (rs1, imm, .load, .word)
  | .lbu _ rs1 imm => some (rs1, imm, .load, .byte)
  | .lhu _ rs1 imm => some (rs1, imm, .load, .half)
  | .sb rs1 _ imm => some (rs1, imm, .store, .byte)
  | .sh rs1 _ imm => some (rs1, imm, .store, .half)
  | .sw rs1 _ imm => some (rs1, imm, .store, .word)
  | _ => none

/-- R259: a load or store takes the trap its access raises, in the state before it. -/
theorem exec_of_dataAddress_raises {i : Instr} {s : State} {rs1 : RegIdx} {imm : BitVec 12} {intent : Intent} {w : Width}
    {tr : Trap} (access : dataAccess? i = some (rs1, imm, intent, w))
    (raises : dataAddress mmuTranslate s (effectiveAddress s rs1 imm) intent w = .error (.trap tr)) :
    exec i s = .next (takeTrap tr s) := by
  cases i with
  | lb | lbu => cases access; simp [exec, execLb, behaveLb, execLbu, behaveLbu, memRead8, raises, Except.map, loadInto]
  | lh | lhu => cases access; simp [exec, execLh, behaveLh, execLhu, behaveLhu, memRead16, raises, Except.map, loadInto]
  | lw => cases access; simp [exec, execLw, behaveLw, memRead32, raises, Except.map, loadInto]
  | sb => cases access; simp [exec, execSb, behaveSb, memWrite8, raises, Except.map, storeDone]
  | sh => cases access; simp [exec, execSh, behaveSh, memWrite16, raises, Except.map, storeDone]
  | sw => cases access; simp [exec, execSw, behaveSw, memWrite32, raises, Except.map, storeDone]
  | _ => cases access

section
variable {i : Instr} {s : State} {rs1 : RegIdx} {imm : BitVec 12} {w : Width}

/-- R81: a misaligned load, whatever its address translates to. -/
theorem exec_misaligned_load (access : dataAccess? i = some (rs1, imm, .load, w))
    (off : (effectiveAddress s rs1 imm).toNat % w.bytes ≠ 0) :
    ∃ t, exec i s = .next t ∧ EntersException s t 4 (effectiveAddress s rs1 imm) :=
  ⟨_, exec_of_dataAddress_raises access (dataAddress_misaligned off), takeTrap_entersException _ _ s⟩

/-- R81: a misaligned store, whatever its address translates to. -/
theorem exec_misaligned_store (access : dataAccess? i = some (rs1, imm, .store, w))
    (off : (effectiveAddress s rs1 imm).toNat % w.bytes ≠ 0) :
    ∃ t, exec i s = .next t ∧ EntersException s t 6 (effectiveAddress s rs1 imm) :=
  ⟨_, exec_of_dataAddress_raises access (dataAddress_misaligned off), takeTrap_entersException _ _ s⟩

end

theorem toNat_mod_two_ne_zero {a : Word} (odd : a.getLsbD 0 = true) : a.toNat % 2 ≠ 0 := by
  have one : a.toNat % 2 = 1 := by simpa [BitVec.getLsbD, Nat.testBit_zero] using odd
  omega

theorem toNat_mod_four_ne_zero {a : Word} (low : a.extractLsb' 0 2 ≠ 0#2) : a.toNat % 4 ≠ 0 := by
  intro h
  apply low
  apply BitVec.eq_of_toNat_eq
  simpa [BitVec.extractLsb'_toNat] using h

end Sys2Proof.Machine

namespace Sys2Proof.Proofs

open Sys2Proof Sys2Proof.Machine

/-- Settles O18: the reads by definition, the writes by the laws of a read after a write, which test the addresses from the
highest down where the statement tests them from the lowest up. -/
theorem busWidthsAreLittleEndian : Obligations.BusWidthsAreLittleEndian := by
  intro m pa canonical
  refine ⟨rfl, rfl, rfl, fun v a => ⟨Memory.write8_wf canonical pa v, Memory.read_write canonical _ v a⟩,
    fun v a => ⟨Memory.write16_wf canonical pa v, ?_⟩, fun v a => ⟨Memory.write32_wf canonical pa v, ?_⟩⟩
  · rw [Memory.read_write16 canonical]
    grind
  · rw [Memory.read_write32 canonical]
    grind [byteOf]

/-- Settles O19, from the four bytes the word stored. -/
theorem mixedWidthReadsSeeTheWordsBytes : Obligations.MixedWidthReadsSeeTheWordsBytes := by
  intro m pa v canonical fits
  have byte {k : Nat} (hk : k < 4) := (Memory.storesBytes_write32 canonical pa v).read_inside hk
  have next : (pa + 1).toNat = pa.toNat + 1 := by bv_omega
  have second : (pa + 2).toNat = pa.toNat + 2 := by bv_omega
  refine ⟨byte (by decide : 0 < 4), ?_, ?_, ?_⟩
  · rw [Memory.read8, next, byte (by decide)]
  · rw [Memory.read16, byte (by decide)]
    exact (congrArg _ (byte (by decide : 0 < 4))).trans (BitVec.extractLsb'_append_extractLsb'_eq_extractLsb' rfl)
  · rw [Memory.read16, second, Nat.add_assoc, byte (by decide), byte (by decide)]
    exact BitVec.extractLsb'_append_extractLsb'_eq_extractLsb' rfl

/-- Settles O20: the load reads the four bytes the store wrote. -/
theorem storeThenLoadReturnsTheWord : Obligations.StoreThenLoadReturnsTheWord := by
  intro s t rs1 rs2 rd base imm imm' pa canonical aligned mapsStore run sameAddress mapsLoad
  obtain rfl := Host.Outcome.next.inj ((exec_sw_of_translates aligned mapsStore).symm.trans run)
  rw [← sameAddress] at aligned mapsLoad
  refine ⟨_, exec_lw_of_translates aligned mapsLoad, ?_⟩
  rw [State.readX_retire, State.nextPc_mem, Memory.read32_write32 canonical]
  by_cases zero : rd = 0#5 <;> simp [zero]

/-- Settles O21: each store leaves its bytes in memory, and the fetch reads memory byte by byte. -/
theorem storedWordIsFetchedNext : Obligations.StoredWordIsFetchedNext := by
  intro s rs1 rs2 imm canonical
  refine ⟨fun t pa paF maps run => ?_, fun aligned t pa paF maps run => ?_, fun aligned t pa paF maps run => ?_⟩
  · obtain rfl := Host.Outcome.next.inj ((exec_sb_of_translates maps).symm.trans run)
    exact fetch_sees_storesBytes ((Memory.storesBytes_write8 canonical pa _).of_low (by decide))
  · obtain rfl := Host.Outcome.next.inj ((exec_sh_of_translates aligned maps).symm.trans run)
    exact fetch_sees_storesBytes ((Memory.storesBytes_write16 canonical pa _).of_low (by decide))
  · obtain rfl := Host.Outcome.next.inj ((exec_sw_of_translates aligned maps).symm.trans run)
    exact fetch_sees_storesBytes (Memory.storesBytes_write32 canonical pa _)

/-- Settles O40: the alignment test stands before translation, and a byte always passes it. -/
theorem misalignedDataAccessTrapsFirst : Obligations.MisalignedDataAccessTrapsFirst := by
  intro rd rs1 rs2 imm s
  refine ⟨fun odd => ?_, fun low => ?_, dataAddress_aligned (Nat.mod_one _), dataAddress_aligned (Nat.mod_one _)⟩
  · have off := toNat_mod_two_ne_zero odd
    exact ⟨exec_misaligned_load (i := .lh rd rs1 imm) rfl off, exec_misaligned_load (i := .lhu rd rs1 imm) rfl off,
      exec_misaligned_store (i := .sh rs1 rs2 imm) rfl off⟩
  · have off := toNat_mod_four_ne_zero low
    exact ⟨exec_misaligned_load (i := .lw rd rs1 imm) rfl off, exec_misaligned_store (i := .sw rs1 rs2 imm) rfl off⟩

end Sys2Proof.Proofs
end

section
/-!
PROOFS. Translation (20_memory.md R85 to R109): Bare, and the two-level walk of Sv32, one equation for each thing an entry can be.
-/

namespace Sys2Proof.Machine

/-! ## The faults of an intent (R86) -/

theorem pageFault_isPageFault (intent : Intent) (va : Word) : IsPageFault intent va (pageFault intent va) := by
  cases intent <;> simp [IsPageFault, pageFault]

theorem accessFault_isAccessFault (intent : Intent) (va : Word) : IsAccessFault intent va (accessFault intent va) := by
  cases intent <;> simp [IsAccessFault, accessFault]

/-! ## `Translate` over what Bare or Sv32 answers (R88, R90, R108) -/

section
variable {s : State} {va : Word} {intent : Intent}

theorem translationOn_iff : translationOn s intent = true ↔ effMode s intent ≠ .machine ∧ s.csr.satp.getLsbD 31 = true := by
  simp [translationOn]

theorem mmuTranslate_bare (off : translationOn s intent = false) (n : Nat) :
    mmuTranslate s va intent n =
      if s.physValid (va.zeroExtend 34) n then .ok (va.zeroExtend 34) else .error (.trap (accessFault intent va)) := by
  simp [mmuTranslate, off]

theorem mmuTranslate_of_sv32_ok {pa : PAddr} (on : translationOn s intent = true) (walked : sv32 s intent va = .ok pa) (n : Nat) :
    mmuTranslate s va intent n = if s.physValid pa n then .ok pa else .error (.trap (accessFault intent va)) := by
  simp [mmuTranslate, on, walked]

theorem mmuTranslate_of_sv32_error {r : Raised} (on : translationOn s intent = true) (walked : sv32 s intent va = .error r)
    (n : Nat) : mmuTranslate s va intent n = .error r := by
  simp [mmuTranslate, on, walked]

/-- R109: the last test of `Translate`. -/
theorem answers_where_physValid {pa : PAddr} {n : Nat}
    (h : mmuTranslate s va intent n = if s.physValid pa n then .ok pa else .error (.trap (accessFault intent va))) :
    (s.physValid pa n = true → mmuTranslate s va intent n = .ok pa)
    ∧ (s.physValid pa n = false → ∃ t, mmuTranslate s va intent n = .error (.trap t) ∧ IsAccessFault intent va t) := by
  rw [h]
  constructor
  · intro present
    rw [if_pos present]
  · intro absent
    exact ⟨_, by simp [absent], accessFault_isAccessFault intent va⟩

end

/-! ## A leaf (R97, R104, R106) -/

/-- R104: the U bit, for a data access. -/
theorem userBitAllows_iff (s : State) (pte : Word) (m : Mode) :
    userBitAllows s pte m = true ↔
      if m = .user then pte.getLsbD 4 = true else pte.getLsbD 4 = false ∨ s.csr.mstatus.sum = true := by
  unfold userBitAllows
  split
  · rfl
  · simp [pteU]

section
variable {s : State} {intent : Intent} {va pte : Word} {level : Nat}

theorem leafAddress_of_not_usable (h : ¬ LeafUsable s pte intent) :
    leafAddress s intent va level pte = .error (.trap (pageFault intent va)) := by
  have fails : permitted s pte intent (effMode s intent) = false ∨ pteA pte = false ∨ (intent = .store ∧ pteD pte = false) := by
    by_contra passes
    simp only [not_or, not_and, Bool.not_eq_false] at passes
    exact h passes
  rcases fails with refused | unaccessed | clean
  · simp [leafAddress, refused]
  · simp [leafAddress, unaccessed]
  · simp [leafAddress, clean]

/-- A superpage whose `PPN[0]` is not 0. -/
theorem leafAddress_of_misaligned (h : pte.extractLsb' 10 10 ≠ 0#10) :
    leafAddress s intent va 1 pte = .error (.trap (pageFault intent va)) := by
  have offset : 1 = 1 ∧ ptePpn0 pte ≠ 0#10 := ⟨rfl, h⟩
  unfold leafAddress
  rw [if_pos offset, ite_self]

/-- A usable leaf that is not a misaligned superpage maps its page. -/
theorem leafAddress_of_usable (h : LeafUsable s pte intent) (aligned : level = 1 → pte.extractLsb' 10 10 = 0#10) :
    leafAddress s intent va level pte =
      .ok (if level = 1 then pte.extractLsb' 20 12 ++ va.extractLsb' 12 10 ++ va.extractLsb' 0 12
        else pte.extractLsb' 10 22 ++ va.extractLsb' 0 12) := by
  obtain ⟨allowed, accessed, dirty⟩ := h
  have not_offset : ¬(level = 1 ∧ ptePpn0 pte ≠ 0#10) := fun offset => offset.2 (aligned offset.1)
  have accessed : pteA pte = true := accessed
  have not_clean : ¬(intent = .store ∧ pteD pte = false) := fun ⟨store, clean⟩ =>
    Bool.false_ne_true (clean.symm.trans (dirty store))
  unfold leafAddress
  rw [allowed, accessed, Bool.not_true, if_neg Bool.false_ne_true, if_neg not_offset, if_neg Bool.false_ne_true,
    if_neg not_clean]
  split_ifs <;> rfl

end

/-! ## One level of the walk (R97) -/

section
variable {s : State} {intent : Intent} {va pte : Word} {level : Nat} {table : PAddr}

theorem walk_of_absent (h : s.physValid (pteAddress table va level) 4 = false) :
    walk s intent va level table = .error (.trap (accessFault intent va)) := by
  unfold walk
  simp [h]

theorem walk_of_invalid (present : s.physValid (pteAddress table va level) 4 = true)
    (entry : s.mem.read32 (pteAddress table va level) = pte) (h : EntryInvalid pte) :
    walk s intent va level table = .error (.trap (pageFault intent va)) := by
  have rejected : (!pteV pte || (!pteR pte && pteW pte)) = true := by
    rcases h with invalid | ⟨unreadable, writable⟩
    · simp only [pteV, invalid, Bool.not_false, Bool.true_or]
    · simp only [pteR, pteW, unreadable, writable, Bool.not_false, Bool.and_true, Bool.or_true]
  unfold walk
  simp [present, entry, rejected]

theorem walk_of_leaf (present : s.physValid (pteAddress table va level) 4 = true)
    (entry : s.mem.read32 (pteAddress table va level) = pte) (h : EntryIsLeaf pte) :
    walk s intent va level table = leafAddress s intent va level pte := by
  obtain ⟨valid, leaf⟩ := h
  have accepted : (!pteV pte || (!pteR pte && pteW pte)) = false := by
    simpa [EntryInvalid, pteV, pteR, pteW] using valid
  have leaf : (pteR pte || pteX pte) = true := Bool.or_eq_true _ _ ▸ leaf
  unfold walk
  simp [present, entry, accepted, leaf]

/-- A pointer in the root table leads to the table it names. -/
theorem walk_of_pointer (present : s.physValid (pteAddress table va (level + 1)) 4 = true)
    (entry : s.mem.read32 (pteAddress table va (level + 1)) = pte) (h : EntryPoints pte) :
    walk s intent va (level + 1) table = walk s intent va level (pageAddress (pte.extractLsb' 10 22)) := by
  obtain ⟨v, r, w, x⟩ : pteV pte = true ∧ pteR pte = false ∧ pteW pte = false ∧ pteX pte = false := h
  rw [walk]
  simp [present, entry, v, r, w, x, ptePpn]

/-- A pointer in the last table leads nowhere. -/
theorem walk_of_last_pointer (present : s.physValid (pteAddress table va 0) 4 = true)
    (entry : s.mem.read32 (pteAddress table va 0) = pte) (h : EntryPoints pte) :
    walk s intent va 0 table = .error (.trap (pageFault intent va)) := by
  obtain ⟨v, r, w, x⟩ : pteV pte = true ∧ pteR pte = false ∧ pteW pte = false ∧ pteX pte = false := h
  rw [walk]
  simp [present, entry, v, r, w, x]

end

/-! ## The walk from the root -/

section
variable {s : State} {intent : Intent} {va pte1 pte0 : Word}

theorem sv32_of_root_absent (absent1 : s.physValid (rootEntryAddress s va) 4 = false) :
    sv32 s intent va = .error (.trap (accessFault intent va)) :=
  walk_of_absent absent1

variable (present1 : s.physValid (rootEntryAddress s va) 4 = true) (entry1 : s.mem.read32 (rootEntryAddress s va) = pte1)
include present1 entry1

theorem sv32_of_root_invalid (h : EntryInvalid pte1) : sv32 s intent va = .error (.trap (pageFault intent va)) :=
  walk_of_invalid present1 entry1 h

theorem sv32_of_root_leaf (h : EntryIsLeaf pte1) : sv32 s intent va = leafAddress s intent va 1 pte1 :=
  walk_of_leaf present1 entry1 h

variable (points1 : EntryPoints pte1)
include points1

theorem sv32_of_root_pointer : sv32 s intent va = walk s intent va 0 (pageAddress (pte1.extractLsb' 10 22)) :=
  walk_of_pointer present1 entry1 points1

theorem sv32_of_second_absent (absent0 : s.physValid (leafEntryAddress pte1 va) 4 = false) :
    sv32 s intent va = .error (.trap (accessFault intent va)) :=
  (sv32_of_root_pointer present1 entry1 points1).trans (walk_of_absent absent0)

variable (present0 : s.physValid (leafEntryAddress pte1 va) 4 = true) (entry0 : s.mem.read32 (leafEntryAddress pte1 va) = pte0)
include present0 entry0

theorem sv32_of_second_invalid (h : EntryInvalid pte0) : sv32 s intent va = .error (.trap (pageFault intent va)) :=
  (sv32_of_root_pointer present1 entry1 points1).trans (walk_of_invalid present0 entry0 h)

theorem sv32_of_second_pointer (h : EntryPoints pte0) : sv32 s intent va = .error (.trap (pageFault intent va)) :=
  (sv32_of_root_pointer present1 entry1 points1).trans (walk_of_last_pointer present0 entry0 h)

theorem sv32_of_second_leaf (h : EntryIsLeaf pte0) : sv32 s intent va = leafAddress s intent va 0 pte0 :=
  (sv32_of_root_pointer present1 entry1 points1).trans (walk_of_leaf present0 entry0 h)

end

end Sys2Proof.Machine

namespace Sys2Proof.Proofs

open Sys2Proof Sys2Proof.Machine

/-- Settles O22, by the definitions of the effective mode and the switch. -/
theorem effectiveModeAndTranslationSwitch : Obligations.EffectiveModeAndTranslationSwitch := by
  intro s intent
  exact ⟨by simp [effMode], fun data => by simp [effMode, data], translationOn_iff⟩

/-- Settles O23, from what `Translate` answers over Bare. -/
theorem bareTranslationIsTheIdentity : Obligations.BareTranslationIsTheIdentity := by
  intro s va intent n off
  exact answers_where_physValid (mmuTranslate_bare off n)

/-- Settles O24: an address answered has passed `PhysValid`, and only the intent's two faults are raised. -/
theorem translateAnswersExistingBytesOrItsIntentsFault : Obligations.TranslateAnswersExistingBytesOrItsIntentsFault := by
  intro s va intent n
  refine ⟨fun pa => mmuTranslate_ok, fun r raises => ?_⟩
  rcases mmuTranslate_error raises with rfl | rfl
  · exact ⟨_, rfl, .inl (pageFault_isPageFault intent va)⟩
  · exact ⟨_, rfl, .inr (accessFault_isAccessFault intent va)⟩

/-- Settles O25: the walk goes by the pointer to the leaf under it. -/
theorem sv32MapsASmallPage : Obligations.Sv32MapsASmallPage := by
  intro s va intent n pte1 pte0 on present1 entry1 points1 present0 entry0 leaf0 usable
  have walked := (sv32_of_second_leaf present1 entry1 points1 present0 entry0 leaf0).trans (leafAddress_of_usable usable nofun)
  exact answers_where_physValid (mmuTranslate_of_sv32_ok on walked n)

/-- Settles O26: the walk ends at the leaf of the root table. -/
theorem sv32MapsASuperpage : Obligations.Sv32MapsASuperpage := by
  intro s va intent n pte1 on present1 entry1 leaf1 usable aligned
  have walked := (sv32_of_root_leaf present1 entry1 leaf1).trans (leafAddress_of_usable usable fun _ => aligned)
  exact answers_where_physValid (mmuTranslate_of_sv32_ok on walked n)

/-- Settles O27, one equation of the walk for each way to fail. -/
theorem sv32FaultsWithoutAPermittedMapping : Obligations.Sv32FaultsWithoutAPermittedMapping := by
  intro s va intent n pte1 pte0 on pageFaults accessFaults
  have faultsPage (walked : sv32 s intent va = .error (.trap (pageFault intent va))) : pageFaults :=
    ⟨_, mmuTranslate_of_sv32_error on walked n, pageFault_isPageFault intent va⟩
  have faultsAccess (walked : sv32 s intent va = .error (.trap (accessFault intent va))) : accessFaults :=
    ⟨_, mmuTranslate_of_sv32_error on walked n, accessFault_isAccessFault intent va⟩
  refine ⟨fun absent1 => faultsAccess (sv32_of_root_absent absent1), fun present1 entry1 => ⟨?_, ?_, ?_, ?_⟩⟩
  · intro invalid1
    exact faultsPage (sv32_of_root_invalid present1 entry1 invalid1)
  · rintro leaf1 (unusable | offset)
    · exact faultsPage ((sv32_of_root_leaf present1 entry1 leaf1).trans (leafAddress_of_not_usable unusable))
    · exact faultsPage ((sv32_of_root_leaf present1 entry1 leaf1).trans (leafAddress_of_misaligned offset))
  · intro points1 absent0
    exact faultsAccess (sv32_of_second_absent present1 entry1 points1 absent0)
  · rintro points1 present0 entry0 (invalid0 | points0 | ⟨leaf0, unusable⟩)
    · exact faultsPage (sv32_of_second_invalid present1 entry1 points1 present0 entry0 invalid0)
    · exact faultsPage (sv32_of_second_pointer present1 entry1 points1 present0 entry0 points0)
    · have walked := sv32_of_second_leaf (intent := intent) present1 entry1 points1 present0 entry0 leaf0
      exact faultsPage (walked.trans (leafAddress_of_not_usable unusable))

/-- Settles O28, intent by intent, with the rule of the U bit for data once for loads and stores. -/
theorem pagePermissionsByIntentAndMode : Obligations.PagePermissionsByIntentAndMode := by
  intro s pte m below dataU
  have data : userBitAllows s pte m = true ↔ dataU := userBitAllows_iff s pte m
  refine ⟨?_, ?_, ?_⟩
  · cases m <;> simp [permitted, pteX, pteU]
  · simp [permitted, pteR, pteX, data]
  · simp [permitted, pteW, data]

end Sys2Proof.Proofs
end

section
/-!
PROOFS. An instruction the host places where the fetch reads is the one that runs (20_memory.md R74, R80; 70_reset_and_hazards.md
R363): the word survives memory, and the decoder gives the instruction back.
-/

namespace Sys2Proof

/-- R132, R140: decoding undoes encoding, opcode by opcode. -/
theorem decode_encode (i : Instr) (h : i.wellFormed = true) : decode (encode i) = .ok i := by
  cases i with
  | lui | auipc => simp [encode, decode]
  | addi | slti | sltiu | xori | ori | andi => simp [encode, decode, decodeOpImm]
  | slli => simp [encode, decode, decodeOpImm, decodeShiftLeftImm]
  | srli | srai => simp [encode, decode, decodeOpImm, decodeShiftRightImm]
  | add | sll | slt | sltu | xor | srl | or | and => simp [encode, decode, decodeOp, decodeOpBase]
  | sub | sra => simp [encode, decode, decodeOp, decodeOpAlt]
  | jal rd off => simp [encode, decode, immJOf_encodeJ off rd _ h]
  | jalr => simp [encode, decode, decodeJalr]
  | beq rs1 rs2 off | bne rs1 rs2 off | blt rs1 rs2 off | bge rs1 rs2 off | bltu rs1 rs2 off | bgeu rs1 rs2 off =>
    simp [encode, decode, decodeBranch, immBOf_encodeB off rs2 rs1 _ _ h]
  | lb | lh | lw | lbu | lhu => simp [encode, decode, decodeLoad]
  | sb | sh | sw => simp [encode, decode, decodeStore]
  | fence => simp [encode, decode, decodeMiscMem]
  | ecall | ebreak | mret => rfl
  | csrrw | csrrs | csrrc | csrrwi | csrrsi | csrrci => simp [encode, decode, decodeSystem]

end Sys2Proof

namespace Sys2Proof.Machine

/-- R170: with no interrupt to take, the step executes the instruction fetched. -/
theorem step_of_fetch_decode {s : State} {w : Word} {i : Instr} (running : s.runState = .running)
    (quiet : pendingInterrupt s = none) (fetched : fetch s = .ok w) (decoded : decode w = .ok i) : step s = exec i s := by
  simp [step, sequencerStep, running, quiet, runOne, fetched, execWord, decoded]

/-- R363: a word of 32 bits is placed whole. -/
theorem State.withFetchWord_toNat (s : State) (w : Word) : s.withFetchWord 32 w.toNat = placeAtFetch s w := by
  rw [State.withFetchWord, Nat.mod_eq_of_lt w.isLt, BitVec.ofNat_toNat, BitVec.setWidth_eq]

theorem placeAtFetch_of_translates {s : State} {pa : PAddr} (maps : mmuTranslate s s.pc .fetch 4 = .ok pa) (w : Word) :
    placeAtFetch s w = { s with mem := s.mem.write32 pa w } := by
  simp [placeAtFetch, maps]

end Sys2Proof.Machine

namespace Sys2Proof.Proofs

open Sys2Proof Sys2Proof.Machine

/-- Settles O13: an untranslated fetch does not depend on memory, so the word is placed and fetched at one address. -/
theorem placedInstructionIsTheOneRun : Obligations.PlacedInstructionIsTheOneRun := by
  intro s i running quiet canonical off present wellFormed
  have maps (m : Memory) : mmuTranslate { s with mem := m } s.pc .fetch 4 = .ok (s.pc.zeroExtend 34) :=
    (mmuTranslate_bare (s := { s with mem := m }) off 4).trans (if_pos present)
  rw [State.withFetchWord_toNat, placeAtFetch_of_translates (maps s.mem)]
  refine step_of_fetch_decode running quiet ?_ (decode_encode i wellFormed)
  simp [fetch, fetchVia, maps, Except.map, Memory.read32_write32 canonical]

end Sys2Proof.Proofs
end

section
/-!
PROOFS. The decoder, the encoder and the flat table are three forms of one encoding (30_encoding.md R131 to R140). A word is
the encoding of its own fields, in every format; the flat form of a dispatch key tests those fields; and no two keys share a
word, so the row of a decoded instruction is the one the flat lookup finds.
-/

namespace Sys2Proof

/-! ## A word is made of its fields, in each format (R131 to R133) -/

theorem encodeR_fields (w : Word) :
    encodeR (funct7Of w) (rs2Of w) (rs1Of w) (funct3Of w) (rdOf w) (opcodeOf w) = w := by
  apply BitVec.eq_of_getLsbD_eq
  intro k hk
  simp only [encodeR, funct7Of, rs2Of, rs1Of, funct3Of, rdOf, opcodeOf, BitVec.getLsbD_extractLsb', BitVec.getLsbD_append]
  interval_cases k <;> simp

theorem encodeI_fields (w : Word) : encodeI (immIOf w) (rs1Of w) (funct3Of w) (rdOf w) (opcodeOf w) = w := by
  apply BitVec.eq_of_getLsbD_eq
  intro k hk
  simp only [encodeI, immIOf, rs1Of, funct3Of, rdOf, opcodeOf, BitVec.getLsbD_extractLsb', BitVec.getLsbD_append]
  interval_cases k <;> simp

theorem encodeS_fields (w : Word) : encodeS (immSOf w) (rs2Of w) (rs1Of w) (funct3Of w) (opcodeOf w) = w := by
  apply BitVec.eq_of_getLsbD_eq
  intro k hk
  simp only [encodeS, immSOf, rs2Of, rs1Of, funct3Of, opcodeOf, BitVec.getLsbD_extractLsb', BitVec.getLsbD_append]
  interval_cases k <;> simp

theorem encodeB_fields (w : Word) : encodeB (immBOf w) (rs2Of w) (rs1Of w) (funct3Of w) (opcodeOf w) = w := by
  apply BitVec.eq_of_getLsbD_eq
  intro k hk
  simp only [encodeB, immBOf, rs2Of, rs1Of, funct3Of, opcodeOf, BitVec.getLsbD_extractLsb', BitVec.getLsbD_append]
  interval_cases k <;> simp

theorem encodeU_fields (w : Word) : encodeU (immUOf w) (rdOf w) (opcodeOf w) = w := by
  apply BitVec.eq_of_getLsbD_eq
  intro k hk
  simp only [encodeU, immUOf, rdOf, opcodeOf, BitVec.getLsbD_extractLsb', BitVec.getLsbD_append]
  interval_cases k <;> simp

theorem encodeJ_fields (w : Word) : encodeJ (immJOf w) (rdOf w) (opcodeOf w) = w := by
  apply BitVec.eq_of_getLsbD_eq
  intro k hk
  simp only [encodeJ, immJOf, rdOf, opcodeOf, BitVec.getLsbD_extractLsb', BitVec.getLsbD_append]
  interval_cases k <;> simp

/-- R270: `fm`, `pred` and `succ` are the parts of the I immediate. -/
theorem fenceSets_eq_immIOf (w : Word) : fmOf w ++ predOf w ++ succOf w = immIOf w := by
  apply BitVec.eq_of_getLsbD_eq
  intro k hk
  simp only [fmOf, predOf, succOf, immIOf, BitVec.getLsbD_extractLsb', BitVec.getLsbD_append]
  interval_cases k <;> simp

/-- R133: an offset whose last bit is the format's hard 0 is even. -/
theorem evenOffset_append_zero {n : Nat} (x : BitVec n) : evenOffset (x ++ 0#1) = true := by
  simp [evenOffset, BitVec.getElem_append]

/-! ## What the decoder answers encodes back (R137), one lemma per level of the lookup -/

/-- The word is the encoding of the instruction, and the instruction is well formed. -/
def IsEncodingOf (w : Word) (i : Instr) : Prop := encode i = w ∧ i.wellFormed = true

section

variable {w : Word} {f7 : BitVec 7} {f3 : BitVec 3} {op : BitVec 7}

theorem encodeR_of_fields (h7 : funct7Of w = f7) (h3 : funct3Of w = f3) (hop : opcodeOf w = op) :
    encodeR f7 (rs2Of w) (rs1Of w) f3 (rdOf w) op = w := by
  rw [← h7, ← h3, ← hop, encodeR_fields]

theorem encodeI_of_fields (h3 : funct3Of w = f3) (hop : opcodeOf w = op) :
    encodeI (immIOf w) (rs1Of w) f3 (rdOf w) op = w := by
  rw [← h3, ← hop, encodeI_fields]

theorem encodeS_of_fields (h3 : funct3Of w = f3) (hop : opcodeOf w = op) :
    encodeS (immSOf w) (rs2Of w) (rs1Of w) f3 op = w := by
  rw [← h3, ← hop, encodeS_fields]

theorem encodeB_of_fields (h3 : funct3Of w = f3) (hop : opcodeOf w = op) :
    encodeB (immBOf w) (rs2Of w) (rs1Of w) f3 op = w := by
  rw [← h3, ← hop, encodeB_fields]

theorem encodeU_of_fields (hop : opcodeOf w = op) : encodeU (immUOf w) (rdOf w) op = w := by
  rw [← hop, encodeU_fields]

theorem encodeJ_of_fields (hop : opcodeOf w = op) : encodeJ (immJOf w) (rdOf w) op = w := by
  rw [← hop, encodeJ_fields]

end

section

variable {w : Word} {i : Instr}

theorem isEncodingOf_of_decodeLoad (op : opcodeOf w = 0b0000011#7) (h : decodeLoad w = .ok i) : IsEncodingOf w i := by
  unfold decodeLoad at h
  split at h <;> cases h <;> exact ⟨encodeI_of_fields ‹_› op, rfl⟩

theorem isEncodingOf_of_decodeMiscMem (op : opcodeOf w = 0b0001111#7) (h : decodeMiscMem w = .ok i) :
    IsEncodingOf w i := by
  unfold decodeMiscMem at h
  split at h <;> cases h
  refine ⟨?_, rfl⟩
  rw [encode, fenceSets_eq_immIOf]
  exact encodeI_of_fields ‹_› op

theorem isEncodingOf_of_decodeShiftLeftImm (op : opcodeOf w = 0b0010011#7) (f3 : funct3Of w = 0b001#3)
    (h : decodeShiftLeftImm w = .ok i) : IsEncodingOf w i := by
  unfold decodeShiftLeftImm at h
  split at h <;> cases h
  exact ⟨encodeR_of_fields ‹_› f3 op, rfl⟩

theorem isEncodingOf_of_decodeShiftRightImm (op : opcodeOf w = 0b0010011#7) (f3 : funct3Of w = 0b101#3)
    (h : decodeShiftRightImm w = .ok i) : IsEncodingOf w i := by
  unfold decodeShiftRightImm at h
  split at h <;> cases h <;> exact ⟨encodeR_of_fields ‹_› f3 op, rfl⟩

theorem isEncodingOf_of_decodeOpImm (op : opcodeOf w = 0b0010011#7) (h : decodeOpImm w = .ok i) : IsEncodingOf w i := by
  unfold decodeOpImm at h
  split at h
  case h_2 f3 => exact isEncodingOf_of_decodeShiftLeftImm op f3 h
  case h_6 f3 => exact isEncodingOf_of_decodeShiftRightImm op f3 h
  all_goals
    cases h
    exact ⟨encodeI_of_fields ‹_› op, rfl⟩

theorem isEncodingOf_of_decodeStore (op : opcodeOf w = 0b0100011#7) (h : decodeStore w = .ok i) : IsEncodingOf w i := by
  unfold decodeStore at h
  split at h <;> cases h <;> exact ⟨encodeS_of_fields ‹_› op, rfl⟩

theorem isEncodingOf_decodeOpBase (op : opcodeOf w = 0b0110011#7) (f7 : funct7Of w = 0b0000000#7) :
    IsEncodingOf w (decodeOpBase w) := by
  unfold decodeOpBase
  split <;> exact ⟨encodeR_of_fields f7 ‹_› op, rfl⟩

theorem isEncodingOf_of_decodeOpAlt (op : opcodeOf w = 0b0110011#7) (f7 : funct7Of w = 0b0100000#7)
    (h : decodeOpAlt w = .ok i) : IsEncodingOf w i := by
  unfold decodeOpAlt at h
  split at h <;> cases h <;> exact ⟨encodeR_of_fields f7 ‹_› op, rfl⟩

theorem isEncodingOf_of_decodeOp (op : opcodeOf w = 0b0110011#7) (h : decodeOp w = .ok i) : IsEncodingOf w i := by
  unfold decodeOp at h
  split at h
  next f7 => cases h; exact isEncodingOf_decodeOpBase op f7
  next f7 => exact isEncodingOf_of_decodeOpAlt op f7 h
  next => cases h

theorem isEncodingOf_of_decodeBranch (op : opcodeOf w = 0b1100011#7) (h : decodeBranch w = .ok i) : IsEncodingOf w i := by
  unfold decodeBranch at h
  split at h <;> cases h <;> exact ⟨encodeB_of_fields ‹_› op, evenOffset_append_zero _⟩

theorem isEncodingOf_of_decodeJalr (op : opcodeOf w = 0b1100111#7) (h : decodeJalr w = .ok i) : IsEncodingOf w i := by
  unfold decodeJalr at h
  split at h <;> cases h
  exact ⟨encodeI_of_fields ‹_› op, rfl⟩

theorem isEncodingOf_of_decodeSystemWord (h : decodeSystemWord w = .ok i) : IsEncodingOf w i := by
  unfold decodeSystemWord at h
  split at h <;> cases h <;> exact ⟨rfl, rfl⟩

theorem isEncodingOf_of_decodeSystem (op : opcodeOf w = 0b1110011#7) (h : decodeSystem w = .ok i) : IsEncodingOf w i := by
  unfold decodeSystem at h
  split at h
  case h_1 => exact isEncodingOf_of_decodeSystemWord h
  all_goals cases h
  all_goals exact ⟨encodeI_of_fields ‹_› op, rfl⟩

/-- R137: the word decoded is the encoding of the answer, level by level. -/
theorem isEncodingOf_of_decode (h : decode w = .ok i) : IsEncodingOf w i := by
  unfold decode at h
  split at h
  next op => exact isEncodingOf_of_decodeLoad op h
  next op => exact isEncodingOf_of_decodeMiscMem op h
  next op => exact isEncodingOf_of_decodeOpImm op h
  next op => cases h; exact ⟨encodeU_of_fields op, rfl⟩
  next op => exact isEncodingOf_of_decodeStore op h
  next op => exact isEncodingOf_of_decodeOp op h
  next op => cases h; exact ⟨encodeU_of_fields op, rfl⟩
  next op => exact isEncodingOf_of_decodeBranch op h
  next op => exact isEncodingOf_of_decodeJalr op h
  next op => cases h; exact ⟨encodeJ_of_fields op, evenOffset_append_zero _⟩
  next op => exact isEncodingOf_of_decodeSystem op h
  next => cases h

end

/-! ## The flat form of a key tests the key's fields (R139) -/

/-- Two concatenations of the same widths are equal part by part. -/
theorem bits_append_eq_append_iff {m n : Nat} {a c : BitVec m} {b d : BitVec n} : a ++ b = c ++ d ↔ a = c ∧ b = d := by
  constructor
  · intro h
    have upper := congrArg (BitVec.extractLsb' n m) h
    have lower := congrArg (BitVec.extractLsb' 0 n) h
    rw [BitVec.extractLsb'_append_eq_left, BitVec.extractLsb'_append_eq_left] at upper
    rw [BitVec.extractLsb'_append_eq_right, BitVec.extractLsb'_append_eq_right] at lower
    exact ⟨upper, lower⟩
  · rintro ⟨rfl, rfl⟩
    rfl

theorem and_opcodeMask (w : Word) : w &&& 0x0000007F#32 = 0#17 ++ 0#3 ++ 0#5 ++ opcodeOf w := by
  conv_lhs => rw [← encodeU_fields w]
  exact Laws.TableRow.encodeU_fixed ..

theorem and_funct3Mask (w : Word) : w &&& 0x0000707F#32 = 0#17 ++ funct3Of w ++ 0#5 ++ opcodeOf w := by
  conv_lhs => rw [← encodeI_fields w]
  exact Laws.TableRow.encodeI_fixed ..

theorem and_funct7Mask (w : Word) : w &&& 0xFE00707F#32 = funct7Of w ++ 0#10 ++ funct3Of w ++ 0#5 ++ opcodeOf w := by
  conv_lhs => rw [← encodeR_fields w]
  exact Laws.TableRow.encodeR_fixed ..

section

variable {name : String} {format : Format} {op : BitVec 7} {f3 : BitVec 3} {w : Word}

theorem selects_opcode_iff : (Descriptor.mk name format op none .none).selects w = true ↔ opcodeOf w = op := by
  refine beq_iff_eq.trans ?_
  change w &&& 0x0000007F#32 = 0#17 ++ 0#3 ++ 0#5 ++ op ↔ _
  rw [and_opcodeMask]
  exact BitVec.append_right_inj _

theorem selects_funct3_iff :
    (Descriptor.mk name format op (some f3) .none).selects w = true ↔ funct3Of w = f3 ∧ opcodeOf w = op := by
  refine beq_iff_eq.trans ?_
  change w &&& 0x0000707F#32 = 0#17 ++ f3 ++ 0#5 ++ op ↔ _
  rw [and_funct3Mask]
  exact bits_append_eq_append_iff.trans (and_congr_left' ((BitVec.append_left_inj _).trans (BitVec.append_right_inj _)))

theorem selects_funct7_iff {f7 : BitVec 7} :
    (Descriptor.mk name format op (some f3) (.funct7 f7)).selects w = true ↔
      (funct7Of w = f7 ∧ funct3Of w = f3) ∧ opcodeOf w = op := by
  refine beq_iff_eq.trans ?_
  change w &&& 0xFE00707F#32 = f7 ++ 0#10 ++ f3 ++ 0#5 ++ op ↔ _
  rw [and_funct7Mask]
  refine bits_append_eq_append_iff.trans (and_congr_left' ((BitVec.append_left_inj _).trans ?_))
  exact bits_append_eq_append_iff.trans (and_congr_left' (BitVec.append_left_inj _))

theorem selects_wholeWord_iff {funct3 : Option (BitVec 3)} {v : Word} :
    (Descriptor.mk name format op funct3 (.wholeWord v)).selects w = true ↔ w = v := by
  refine beq_iff_eq.trans ?_
  change w &&& BitVec.allOnes 32 = v ↔ w = v
  rw [BitVec.and_allOnes]

end

end Sys2Proof

namespace Sys2Proof.Laws.TableRow

/-- R140: every instruction has its row, and the row selects its encoding. -/
theorem of_instr (i : Instr) : Statement i :=
  match i with
  | .lui .. => lui .. | .auipc .. => auipc ..
  | .addi .. => addi .. | .slti .. => slti .. | .sltiu .. => sltiu .. | .xori .. => xori .. | .ori .. => ori ..
  | .andi .. => andi .. | .slli .. => slli .. | .srli .. => srli .. | .srai .. => srai ..
  | .add .. => add .. | .sub .. => sub .. | .sll .. => sll .. | .slt .. => slt .. | .sltu .. => sltu ..
  | .xor .. => xor .. | .srl .. => srl .. | .sra .. => sra .. | .or .. => or .. | .and .. => and ..
  | .jal .. => jal .. | .jalr .. => jalr ..
  | .beq .. => beq .. | .bne .. => bne .. | .blt .. => blt .. | .bge .. => bge .. | .bltu .. => bltu .. | .bgeu .. => bgeu ..
  | .lb .. => lb .. | .lh .. => lh .. | .lw .. => lw .. | .lbu .. => lbu .. | .lhu .. => lhu ..
  | .sb .. => sb .. | .sh .. => sh .. | .sw .. => sw ..
  | .fence .. => fence .. | .ecall => ecall | .ebreak => ebreak | .mret => mret
  | .csrrw .. => csrrw .. | .csrrs .. => csrrs .. | .csrrc .. => csrrc ..
  | .csrrwi .. => csrrwi .. | .csrrsi .. => csrrsi .. | .csrrci .. => csrrci ..

end Sys2Proof.Laws.TableRow

namespace Sys2Proof.Machine

/-! ## The nested lookup answers wherever a row selects

Row by row: the fields the row's key tests are the ones the lookup branches on, so their values lead it to an answer. -/

/-- Every word that one of the rows selects is decoded. -/
def DecodesRowsOf (rows : List Instruction) : Prop :=
  ∀ r ∈ rows, ∀ w, r.row.selects w = true → ∃ i, decode w = .ok i

theorem decodesRowsOf_upperInstructions : DecodesRowsOf upperInstructions := by
  simp +contextual [DecodesRowsOf, upperInstructions, selects_opcode_iff, decode]

theorem decodesRowsOf_immediateInstructions : DecodesRowsOf immediateInstructions := by
  simp +contextual [DecodesRowsOf, immediateInstructions, selects_funct3_iff, selects_funct7_iff, decode, decodeOpImm,
    decodeShiftLeftImm, decodeShiftRightImm]

theorem decodesRowsOf_registerInstructions : DecodesRowsOf registerInstructions := by
  simp +contextual [DecodesRowsOf, registerInstructions, selects_funct7_iff, decode, decodeOp, decodeOpBase, decodeOpAlt]

theorem decodesRowsOf_transferInstructions : DecodesRowsOf transferInstructions := by
  simp +contextual [DecodesRowsOf, transferInstructions, selects_opcode_iff, selects_funct3_iff, decode, decodeJalr,
    decodeBranch]

theorem decodesRowsOf_memoryInstructions : DecodesRowsOf memoryInstructions := by
  simp +contextual [DecodesRowsOf, memoryInstructions, selects_funct3_iff, decode, decodeLoad, decodeStore]

theorem decodesRowsOf_environmentInstructions : DecodesRowsOf environmentInstructions := by
  simp only [DecodesRowsOf, environmentInstructions, List.forall_mem_cons, selects_funct3_iff, selects_wholeWord_iff]
  refine ⟨?_, ?_, ?_, List.forall_mem_nil _⟩
  · simp +contextual [decode, decodeMiscMem]
  · rintro w rfl
    exact ⟨.ecall, rfl⟩
  · rintro w rfl
    exact ⟨.ebreak, rfl⟩

theorem decodesRowsOf_zicsrInstructions : DecodesRowsOf zicsrInstructions := by
  simp +contextual [DecodesRowsOf, zicsrInstructions, selects_funct3_iff, decode, decodeSystem]

theorem decodesRowsOf_privInstructions : DecodesRowsOf privInstructions := by
  simp only [DecodesRowsOf, privInstructions, List.forall_mem_singleton, selects_wholeWord_iff]
  rintro w rfl
  exact ⟨.mret, rfl⟩

theorem decodesRowsOf_loadedModules : DecodesRowsOf (loadedModules.flatMap IsaModule.instructions) := by
  simp only [DecodesRowsOf, loadedModules, rv32i, zicsr, privM, List.flatMap_cons, List.flatMap_nil, List.append_nil,
    List.forall_mem_append]
  exact ⟨⟨⟨⟨⟨⟨decodesRowsOf_upperInstructions, decodesRowsOf_immediateInstructions⟩,
    decodesRowsOf_registerInstructions⟩, decodesRowsOf_transferInstructions⟩, decodesRowsOf_memoryInstructions⟩,
    decodesRowsOf_environmentInstructions⟩,
    decodesRowsOf_zicsrInstructions, decodesRowsOf_privInstructions⟩

/-! ## The flat lookup (R139) -/

section

variable {w : Word} {d e : Descriptor}

/-- A word that a row of the table selects is decoded. -/
theorem decode_of_selects (mem : d ∈ opcodeTable) (selects : d.selects w = true) : ∃ i, decode w = .ok i := by
  obtain ⟨r, loaded, rfl⟩ := List.mem_map.mp mem
  exact decodesRowsOf_loadedModules r loaded w selects

/-- A word that is decoded is selected by the row of the instruction: it is that instruction's encoding. -/
theorem row_of_decode {i : Instr} (h : decode w = .ok i) :
    ∃ d ∈ opcodeTable, d.selects w = true ∧ d.name = i.mnemonic := by
  obtain ⟨rfl, -⟩ := isEncodingOf_of_decode h
  obtain ⟨d, found, name, selects⟩ := Laws.TableRow.of_instr i
  exact ⟨d, List.mem_of_find?_eq_some found, selects, name⟩

theorem opcodeTable_pairwise_disjoint :
    opcodeTable.Pairwise fun d e => ¬∃ w, d.selects w = true ∧ e.selects w = true := by
  have apart : opcodeTable.Pairwise fun d e => d.collides e = false := (noCollision_iff ..).mp (by decide)
  exact apart.imp fun {d e} h => by rw [← d.collides_iff_exists_word e, h]; exact Bool.false_ne_true

/-- R136: the row that selects a word is the only one. -/
theorem eq_of_selects (hd : d ∈ opcodeTable) (he : e ∈ opcodeTable) (dw : d.selects w = true) (ew : e.selects w = true) :
    d = e := by
  have : Std.Symm fun d e : Descriptor => ¬∃ w, d.selects w = true ∧ e.selects w = true :=
    ⟨fun _ _ apart ⟨w, both⟩ => apart ⟨w, both.symm⟩⟩
  by_contra differ
  exact opcodeTable_pairwise_disjoint.forall hd he differ ⟨w, dw, ew⟩

theorem selects_of_tableLookup (found : tableLookup w = some d) : d ∈ opcodeTable ∧ d.selects w = true := by
  unfold tableLookup at found
  exact ⟨List.mem_of_find?_eq_some found, by simpa using List.find?_some found⟩

theorem tableLookup_of_selects (mem : d ∈ opcodeTable) (selects : d.selects w = true) : tableLookup w = some d := by
  cases found : tableLookup w with
  | none => exact absurd selects (List.find?_eq_none.mp found d mem)
  | some e =>
    obtain ⟨memFound, selectsFound⟩ := selects_of_tableLookup found
    rw [eq_of_selects memFound mem selectsFound selects]

end

end Sys2Proof.Machine

namespace Sys2Proof.Proofs

open Sys2Proof Sys2Proof.Machine

/-- Settles O2: the field extractors undo the formats. -/
theorem decodeOfEncodeIsTheInstruction : Obligations.DecodeOfEncodeIsTheInstruction :=
  decode_encode

/-- Settles O3: at each level of the lookup the fields tested and the fields read make up the word. -/
theorem encodeOfDecodeIsTheWord : Obligations.EncodeOfDecodeIsTheWord :=
  fun _ _ decoded => isEncodingOf_of_decode decoded

/-- Settles O4: a word decoded has its instruction's row, which the flat lookup finds as no other row selects the word; and a
row that selects a word leads the nested lookup to an answer. -/
theorem decoderAgreesWithTheFlatTable : Obligations.DecoderAgreesWithTheFlatTable := by
  intro w
  refine ⟨fun i decoded => ?_, ?_, fun unselected => ?_⟩
  · obtain ⟨d, mem, selects, name⟩ := row_of_decode decoded
    rw [tableLookup_of_selects mem selects, Option.map_some, name]
  · rintro ⟨e, rejected⟩ d mem
    refine Bool.eq_false_of_not_eq_true fun selects => ?_
    obtain ⟨i, decoded⟩ := decode_of_selects mem selects
    exact nomatch rejected.symm.trans decoded
  · cases decoded : decode w with
    | error e => exact ⟨e, rfl⟩
    | ok i =>
      obtain ⟨d, mem, selects, -⟩ := row_of_decode decoded
      exact nomatch (unselected d mem).symm.trans selects

/-- Settles O5, from the keys of the table, which do not collide. -/
theorem atMostOneRowSelectsAWord : Obligations.AtMostOneRowSelectsAWord :=
  fun _ _ _ => eq_of_selects

/-- Settles O1, by running the decoder on each word. -/
theorem sampleWordsDecode : Obligations.SampleWordsDecode := by
  unfold Obligations.SampleWordsDecode
  decide

end Sys2Proof.Proofs
end

section
/-!
PROOFS. The sequencer (40_sequencer_dispatch.md R170 to R179): one equation for each way a step with no interrupt to take can go,
for the loaded machine and for a constructed core.
-/

namespace Sys2Proof.Machine

/-- R46: cutting to the mask of `mepc` leaves an aligned word as it is. -/
theorem and_mepcMask_of_aligned {w : Word} (h : w.extractLsb' 0 2 = 0#2) : w &&& 0xFFFFFFFC = w := by
  have low (k : Nat) (hk : k < 2) : w.getLsbD k = false := by simpa [hk] using congrArg (BitVec.getLsbD · k) h
  refine BitVec.eq_of_getLsbD_eq fun k hk => ?_
  rw [BitVec.getLsbD_and]
  by_cases cut : k < 2
  · rw [low k cut, Bool.false_and]
  · have kept : (0xFFFFFFFC : Word).getLsbD k = true := by interval_cases k <;> simp at cut ⊢
    rw [kept, Bool.and_true]

/-! ## The loaded machine -/

section
variable {s : State}

/-- R178: a halted core has no step. -/
theorem step_of_halted (halted : s.runState = .halted) : step s = .fault .coreHalted := by
  simp [step, sequencerStep, halted]

/-- R178, R179: what a running core meets is a trap entry or an instruction, and each answers a next state. -/
theorem step_answers (running : s.runState = .running) : ∃ t, step s = .next t := by
  rcases step_cases s with ⟨halted, _⟩ | ⟨_, tr, _, _, h⟩ | ⟨_, _, ⟨tr, _, _, h⟩ | ⟨w, _, ⟨i, _, h⟩ | ⟨e, _, h⟩⟩⟩
  · exact nomatch running.symm.trans halted
  · exact ⟨_, h⟩
  · exact ⟨_, h⟩
  · exact h ▸ exec_answers i s
  · exact ⟨_, h⟩

section
variable (running : s.runState = .running) (quiet : pendingInterrupt s = none)
include running quiet

/-- R170: with no interrupt to take, the step is what stands in its `try`. -/
theorem step_of_quiet : step s = runOne s := by
  simp [step, sequencerStep, running, quiet]

theorem step_of_fetched {w : Word} (fetched : fetch s = .ok w) : step s = execWord w s := by
  rw [step_of_quiet running quiet, runOne, fetched]

theorem step_of_fetch_raises {t : Trap} (raised : fetch s = .error (.trap t)) : step s = .next (takeTrap t s) := by
  simp [step_of_quiet running quiet, runOne, raised, recover]

end

/-! `Fetch(pc)` goes through `Translate` (R80). -/

theorem fetch_of_translates {pa : PAddr} (maps : mmuTranslate s s.pc .fetch 4 = .ok pa) : fetch s = .ok (s.mem.read32 pa) := by
  rw [fetch, fetchVia, maps, Except.map]

theorem fetch_of_raises {r : Raised} (raises : mmuTranslate s s.pc .fetch 4 = .error r) : fetch s = .error r := by
  rw [fetch, fetchVia, raises, Except.map]

/-- R174: a word that no row of the table selects is not decoded, and illegal. -/
theorem execWord_of_unselected {w : Word} (unselected : ∀ d ∈ opcodeTable, d.selects w = false) :
    execWord w s = .next (takeTrap (illegalInstruction w) s) := by
  obtain ⟨e, rejected⟩ := (Proofs.decoderAgreesWithTheFlatTable w).2.mpr unselected
  rw [execWord, rejected]

end

/-! ## A constructed core -/

/-- R170, R174, R175: a word fetched with no interrupt to take is executed in the state the interrupt test left. -/
theorem Cpu.step_of_fetched {b : Cpu} {s u : State} {w : Word} (running : s.runState = .running)
    (quiet : pendingInterruptRaw b.csr s = .ok (none, u)) (fetched : fetchVia (b.translate b.csr) u = .ok w) :
    b.step s = completeWith b.takeTrap u (b.execute w u) := by
  simp [Cpu.step, running, quiet, Cpu.runOne, Cpu.paths, fetched]

/-- R175: an accepted configuration runs the Instruction that selects the word. -/
theorem Cpu.execute_of_selects {c : Configuration} (accepted : c.wellFormed = true) {e : Instruction} {w : Word}
    (mem : e ∈ c.instructions) (selects : e.row.selects w = true) (s : State) :
    c.build.execute w s = e.behaviour c.build.paths w s := by
  rw [Cpu.execute, Cpu.decode_build accepted mem selects]

/-- R174: a word that no Instruction of the core selects is illegal. -/
theorem Cpu.execute_of_unselected {b : Cpu} {w : Word} (unselected : ∀ e ∈ b.table, e.row.selects w = false) (s : State) :
    b.execute w s = .error (.trap (illegalInstruction w)) := by
  rw [Cpu.execute, Cpu.decode, List.find?_eq_none.mpr fun e mem => by simp [unselected e mem]]

/-- R332: over the loaded entries the interrupt test leaves the state as it was. -/
theorem state_of_quiet_loadedRaw {bank : CsrLookup} (loaded : LoadedRaw bank) {s u : State} {t : Option Trap}
    (tested : pendingInterruptRaw bank s = .ok (t, u)) : u = s := by
  rw [pendingInterruptRaw_of_loadedRaw loaded] at tested
  injection tested with answer
  exact (Prod.mk.inj answer).2.symm

end Sys2Proof.Machine

namespace Sys2Proof.Proofs

open Sys2Proof Sys2Proof.Machine

/-- Settles O11: a running core answers, and no step writes the run state or the halt reason. -/
theorem runningCoreNeverHalts : Obligations.RunningCoreNeverHalts := by
  refine fun s => ⟨fun running => ?_, step_of_halted⟩
  obtain ⟨t, run⟩ := step_answers running
  obtain ⟨-, -, -, -, runState, haltReason⟩ := noStepTouchesFloatFileInputsOrAddressMap s t run
  exact ⟨t, run, runState.trans running, haltReason⟩

/-- Settles O14: translation of a fetch raises its intent's two faults only, at `pc`, and the trap entry keeps an aligned `pc`
whole in `mepc`. -/
theorem fetchFaultsAreTakenAtPc : Obligations.FetchFaultsAreTakenAtPc := by
  intro s running quiet aligned
  have enters {c : ExceptionCause} (raised : fetch s = .error (.trap (.exception c (some s.pc)))) :
      ∃ t, step s = .next t ∧ t.csr.mepc = s.pc ∧ EntersException s t (0#1 ++ c) s.pc :=
    ⟨_, step_of_fetch_raises running quiet raised, (takeTrap_mepc _ s).trans (and_mepcMask_of_aligned aligned),
      takeTrap_entersException c (some s.pc) s⟩
  constructor
  · intro pa maps
    have fetched := fetch_of_translates maps
    exact ⟨fetched, step_of_fetched running quiet fetched⟩
  · intro r raises
    have raised := fetch_of_raises raises
    refine ⟨raised, ?_⟩
    rcases mmuTranslate_error raises with rfl | rfl
    · exact .inl ⟨rfl, enters raised⟩
    · exact .inr ⟨rfl, enters raised⟩

/-- Settles O15: no decoder finds the word, and over the loaded entries a core's own trap entry is `takeTrap`. -/
theorem wordWithoutTableEntryIsIllegal : Obligations.WordWithoutTableEntryIsIllegal := by
  constructor
  · intro s w running quiet fetched unselected
    exact ⟨_, (step_of_fetched running quiet fetched).trans (execWord_of_unselected unselected),
      takeTrap_entersException .illegalInstruction (some w) s, running⟩
  · intro c bus fill b s₀ built s u w running quiet fetched unselected
    obtain ⟨-, rfl, -⟩ := construct_cases built
    have traps : c.build.step s = .next (c.build.takeTrap (illegalInstruction w) u) := by
      rw [Cpu.step_of_fetched running quiet fetched, Cpu.execute_of_unselected unselected, completeWith, recover]
    refine ⟨traps, fun loaded mepc => ?_⟩
    obtain rfl := state_of_quiet_loadedRaw loaded quiet
    rw [Cpu.takeTrap_of_loadedRaw loaded _ mepc] at traps
    exact ⟨_, traps, takeTrap_entersException .illegalInstruction (some w) u, running⟩

/-- Settles O12: the table of an accepted configuration finds the Instruction that selects the word, and the step ends as its
behaviour does. -/
theorem stepRunsTheDecodedInstruction : Obligations.StepRunsTheDecodedInstruction := by
  refine ⟨fun _ _ _ => step_of_fetch_decode, ?_⟩
  intro c bus fill b s₀ built s u w running quiet fetched e mem selects
  obtain ⟨accepted, rfl, -⟩ := construct_cases built
  rw [Cpu.step_of_fetched running quiet fetched, Cpu.execute_of_selects accepted mem selects]
  cases e.behaviour c.build.paths w u with
  | ok t => rfl
  | error r => cases r <;> rfl

end Sys2Proof.Proofs
end

section
/-!
PROOFS. The integer computational instructions (41_integer_computational.md). Each one's word is its encoding and its run retires
one value, so a clause is settled by its value alone; a word that the decoder rejects is illegal (40_sequencer_dispatch.md R174).
-/

namespace Sys2Proof.Machine

/-! ## What a word runs -/

/-- R132, R175: the encoding of an instruction runs it. -/
theorem WordRuns.of_exec {w : Word} {i : Instr} {s t : State} {post : State → Prop} (encodes : IsEncodingOf w i)
    (run : exec i s = .next t) (holds : post t) : WordRuns w i s post := by
  obtain ⟨rfl, formed⟩ := encodes
  exact ⟨decode_encode i formed, t, run, holds⟩

/-- The encoding of an instruction that retires writes its one register. -/
theorem WordRuns.of_retire {w : Word} {i : Instr} {s : State} {rd : RegIdx} {v : Word} (encodes : IsEncodingOf w i)
    (run : exec i s = .next (s.retire rd v)) : WordRuns w i s (fun t => WritesX s t rd v (s.pc + 4)) :=
  .of_exec encodes run (s.retire_writesX rd v)

/-- R174: a word that the decoder rejects is illegal, and is its own trap-value. -/
theorem execWord_of_rejected {w : Word} {e : DecodeError} (rejected : decode w = .error e) (s : State) :
    ∃ t, execWord w s = .next t ∧ EntersException s t 2 w :=
  ⟨takeTrap (illegalInstruction w) s, by rw [execWord, rejected], takeTrap_entersException .illegalInstruction (some w) s⟩

/-! ## The comparisons and the shift amount as numbers -/

/-- R204, R215: 1 exactly when the first is less as two's complement. -/
theorem boolWord_ltSigned (a b : Word) : boolWord (ltSigned a b) = if a.toInt < b.toInt then 1#32 else 0#32 := by
  simp [boolWord, ltSigned, BitVec.slt]

/-- R205, R216: 1 exactly when the first is less as a natural number. -/
theorem boolWord_ltUnsigned (a b : Word) : boolWord (ltUnsigned a b) = if a.toNat < b.toNat then 1#32 else 0#32 := by
  simp [boolWord, ltUnsigned, BitVec.ult]

/-- R214: a shift amount in a register counts modulo 32. -/
theorem shiftAmount_toNat (v : Word) : (shiftAmount v).toNat = v.toNat % 32 := by
  simp [shiftAmount]

/-! ## Shifts by an immediate with another `funct7` (R138 a) -/

section
variable {f7 : BitVec 7} (shamt rs1 rd : RegIdx)

/-- R209: under `funct3` 001 only `SLLI`'s `funct7` has an entry. -/
theorem decode_shiftLeftImm_rejected (h : f7 ≠ 0b0000000#7) :
    decode (encodeR f7 shamt rs1 0b001#3 rd 0b0010011#7) = .error (.unknownFunct7 0b0010011#7 0b001#3 f7) := by
  simp only [decode, opcodeOf_encodeR, decodeOpImm, funct3Of_encodeR, decodeShiftLeftImm, funct7Of_encodeR]

/-- R210, R211: under `funct3` 101 only those of `SRLI` and `SRAI` have one. -/
theorem decode_shiftRightImm_rejected (logical : f7 ≠ 0b0000000#7) (arith : f7 ≠ 0b0100000#7) :
    decode (encodeR f7 shamt rs1 0b101#3 rd 0b0010011#7) = .error (.unknownFunct7 0b0010011#7 0b101#3 f7) := by
  simp only [decode, opcodeOf_encodeR, decodeOpImm, funct3Of_encodeR, decodeShiftRightImm, funct7Of_encodeR]

end

end Sys2Proof.Machine

namespace Sys2Proof.Proofs

open Sys2Proof Sys2Proof.Machine

/-- Settles O30: both retire, with the immediate above twelve zeros. -/
theorem upperImmediateResults : Obligations.UpperImmediateResults := by
  intro rd imm s
  exact ⟨.of_retire ⟨rfl, rfl⟩ rfl, .of_retire ⟨rfl, rfl⟩ rfl⟩

/-- Settles O31: all six retire; the two comparisons are read as numbers. -/
theorem registerImmediateResults : Obligations.RegisterImmediateResults := by
  intro rd rs1 imm s
  simp only [← boolWord_ltSigned, ← boolWord_ltUnsigned]
  refine ⟨?_, ?_, ?_, ?_, ?_, ?_⟩ <;> exact .of_retire ⟨rfl, rfl⟩ rfl

/-- Settles O32: the three shifts retire, and the decoder rejects every other `funct7`. -/
theorem shiftImmediateResults : Obligations.ShiftImmediateResults := by
  intro rd rs1 shamt f7 s
  refine ⟨.of_retire ⟨rfl, rfl⟩ rfl, .of_retire ⟨rfl, rfl⟩ rfl, .of_retire ⟨rfl, rfl⟩ rfl, fun other => ?_,
    fun notLogical notArith => ?_⟩
  · exact execWord_of_rejected (decode_shiftLeftImm_rejected shamt rs1 rd other) s
  · exact execWord_of_rejected (decode_shiftRightImm_rejected shamt rs1 rd notLogical notArith) s

/-- Settles O33: all ten retire; comparisons and shift amounts are read as numbers. -/
theorem registerRegisterResults : Obligations.RegisterRegisterResults := by
  intro rd rs1 rs2 s
  simp only [← boolWord_ltSigned, ← boolWord_ltUnsigned, ← shiftAmount_toNat]
  refine ⟨?_, ?_, ?_, ?_, ?_, ?_, ?_, ?_, ?_, ?_⟩ <;> exact .of_retire ⟨rfl, rfl⟩ rfl

end Sys2Proof.Proofs
end

section
/-!
PROOFS. The control transfers (42_control_transfer.md). A jump's behaviour is one `transfer` and a branch's one `branch`, so what
each of the two can do is said once, for all instructions that end in it.
-/

namespace Sys2Proof.Machine

/-! ## The scattered offset bits of the J and B formats (R133) -/

theorem encodeJ_append (b20 b11 : BitVec 1) (b19 : BitVec 8) (b10 : BitVec 10) (rd : RegIdx) (op : BitVec 7) :
    encodeJ (b20 ++ b19 ++ b11 ++ b10 ++ 0#1) rd op = b20 ++ b10 ++ b11 ++ b19 ++ rd ++ op := by
  apply BitVec.eq_of_getLsbD_eq
  intro k hk
  simp only [encodeJ, BitVec.getLsbD_extractLsb', BitVec.getLsbD_append]
  interval_cases k <;> simp

theorem encodeB_append (b12 b11 : BitVec 1) (b10 : BitVec 6) (b4 : BitVec 4) (rs2 rs1 : RegIdx) (f3 : BitVec 3) (op : BitVec 7) :
    encodeB (b12 ++ b11 ++ b10 ++ b4 ++ 0#1) rs2 rs1 f3 op = b12 ++ b10 ++ rs2 ++ rs1 ++ f3 ++ b4 ++ b11 ++ op := by
  apply BitVec.eq_of_getLsbD_eq
  intro k hk
  simp only [encodeB, BitVec.getLsbD_extractLsb', BitVec.getLsbD_append]
  interval_cases k <;> simp

/-- R233: under `JALR`'s opcode only `funct3` 000 has an entry. -/
theorem decode_jalr_rejected {f3 : BitVec 3} (imm : BitVec 12) (rs1 rd : RegIdx) (h : f3 ≠ 0b000#3) :
    decode (encodeI imm rs1 f3 rd 0b1100111#7) = .error (.unknownFunct3 0b1100111#7 f3) := by
  simp only [decode, opcodeOf_encodeI, decodeJalr, funct3Of_encodeI]

/-! ## A jump: transfer after the link -/

/-- R231: a misaligned target is the transfer's own exception, and the link of `u` is lost with it. -/
theorem complete_transfer_misaligned {target : Word} (misaligned : target.extractLsb' 0 2 ≠ 0#2) (s u : State) :
    ∃ t, complete s (transfer target u) = .next t ∧ EntersException s t 0 target := by
  obtain ⟨aligned, -⟩ | ⟨-, raises⟩ := transfer_cases target u
  · exact absurd aligned misaligned
  · exact ⟨_, by rw [raises, complete_trap], takeTrap_entersException _ (some target) s⟩

theorem complete_transfer_aligned {target : Word} (aligned : target.extractLsb' 0 2 = 0#2) (s u : State) :
    complete s (transfer target u) = .next (u.setPc target) := by
  obtain ⟨-, moves⟩ | ⟨misaligned, -⟩ := transfer_cases target u
  · rw [moves, complete_ok]
  · exact absurd aligned misaligned

/-- A link followed by a jump leaves exactly what `WritesX` says. -/
theorem State.writeX_setPc_writesX (s : State) (rd : RegIdx) (v target : Word) :
    WritesX s ((s.writeX rd v).setPc target) rd v target := by
  refine ⟨fun r => by rw [State.readX_setPc, State.readX_writeX], rfl, ?_⟩
  by_cases hd : rd = 0#5 <;> simp [State.writeX, State.setPc, hd]

/-- The two outcomes of an encoded jump. -/
theorem wordRuns_of_jump {w : Word} {i : Instr} {s : State} {rd : RegIdx} {v target : Word} (encodes : IsEncodingOf w i)
    (run : exec i s = complete s (transfer target (s.writeX rd v))) :
    (target.extractLsb' 0 2 = 0#2 → WordRuns w i s (fun t => WritesX s t rd v target))
    ∧ (target.extractLsb' 0 2 ≠ 0#2 → WordRuns w i s (fun t => EntersException s t 0 target)) := by
  constructor
  · intro aligned
    exact .of_exec encodes (run.trans (complete_transfer_aligned aligned s _)) (s.writeX_setPc_writesX rd v target)
  · intro misaligned
    obtain ⟨t, traps, enters⟩ := complete_transfer_misaligned misaligned s (s.writeX rd v)
    exact .of_exec encodes (run.trans traps) enters

/-! ## A branch on a condition -/

/-- In `s` the instruction is a branch by `off` that is taken exactly when `P` holds. -/
def BranchesOn (i : Instr) (s : State) (off : BitVec 13) (P : Prop) : Prop :=
  ∃ cond rs1 rs2, exec i s = complete s (branch cond rs1 rs2 off s) ∧ (cond (s.readX rs1) (s.readX rs2) = true ↔ P)

section
variable (rs1 rs2 : RegIdx) (off : BitVec 13) (s : State)

/-- R234. -/
theorem beq_branchesOn : BranchesOn (.beq rs1 rs2 off) s off (s.readX rs1 = s.readX rs2) :=
  ⟨_, rs1, rs2, rfl, beq_iff_eq⟩

/-- R235. -/
theorem bne_branchesOn : BranchesOn (.bne rs1 rs2 off) s off (s.readX rs1 ≠ s.readX rs2) :=
  ⟨_, rs1, rs2, rfl, bne_iff_ne⟩

/-- R236. -/
theorem blt_branchesOn : BranchesOn (.blt rs1 rs2 off) s off ((s.readX rs1).toInt < (s.readX rs2).toInt) :=
  ⟨_, rs1, rs2, rfl, BitVec.slt_iff_toInt_lt⟩

/-- R237: not `BLT`'s condition. -/
theorem bge_branchesOn : BranchesOn (.bge rs1 rs2 off) s off ((s.readX rs2).toInt ≤ (s.readX rs1).toInt) :=
  ⟨_, rs1, rs2, rfl, by simp [ltSigned, BitVec.slt]⟩

/-- R238. -/
theorem bltu_branchesOn : BranchesOn (.bltu rs1 rs2 off) s off ((s.readX rs1).toNat < (s.readX rs2).toNat) :=
  ⟨_, rs1, rs2, rfl, BitVec.ult_iff_toNat_lt⟩

/-- R239: not `BLTU`'s condition. -/
theorem bgeu_branchesOn : BranchesOn (.bgeu rs1 rs2 off) s off ((s.readX rs2).toNat ≤ (s.readX rs1).toNat) :=
  ⟨_, rs1, rs2, rfl, by simp [ltUnsigned, BitVec.ult]⟩

end

section
variable {i : Instr} {s : State} {off : BitVec 13} {P : Prop}

/-- A branch taken is a transfer to `pc` plus the offset. -/
theorem BranchesOn.taken (h : BranchesOn i s off P) (holds : P) :
    exec i s = complete s (transfer (s.pc + branchOffset off) s) := by
  obtain ⟨cond, rs1, rs2, run, iff⟩ := h
  rw [run, branch, if_pos (iff.mpr holds)]

/-- A branch not taken never raises, whatever its offset. -/
theorem BranchesOn.notTaken (h : BranchesOn i s off P) (fails : ¬ P) : exec i s = .next (s.setPc (s.pc + 4)) := by
  obtain ⟨cond, rs1, rs2, run, iff⟩ := h
  rw [run, branch, if_neg (mt iff.mp fails), complete_ok, State.nextPc]

/-- R231: a branch to a misaligned target traps if it is taken, and only then. -/
theorem BranchesOn.traps_or_advances (h : BranchesOn i s off P) :
    (P → (s.pc + branchOffset off).extractLsb' 0 2 ≠ 0#2 →
      ∃ t, exec i s = .next t ∧ EntersException s t 0 (s.pc + branchOffset off))
    ∧ (¬ P → exec i s = .next (s.setPc (s.pc + 4))) :=
  ⟨fun holds misaligned => h.taken holds ▸ complete_transfer_misaligned misaligned s s, h.notTaken⟩

/-- The three outcomes of an encoded branch. -/
theorem BranchesOn.wordRuns {w : Word} (h : BranchesOn i s off P) (encodes : IsEncodingOf w i) :
    (P → (s.pc + branchOffset off).extractLsb' 0 2 = 0#2 →
      WordRuns w i s (fun t => MovesTo s t (s.pc + branchOffset off)))
    ∧ (P → (s.pc + branchOffset off).extractLsb' 0 2 ≠ 0#2 →
      WordRuns w i s (fun t => EntersException s t 0 (s.pc + branchOffset off)))
    ∧ (¬ P → WordRuns w i s (fun t => MovesTo s t (s.pc + 4))) := by
  obtain ⟨traps, advances⟩ := h.traps_or_advances
  refine ⟨fun holds aligned => ?_, fun holds misaligned => ?_, fun fails => .of_exec encodes (advances fails) rfl⟩
  · exact .of_exec encodes ((h.taken holds).trans (complete_transfer_aligned aligned s s)) rfl
  · obtain ⟨t, run, enters⟩ := traps holds misaligned
    exact .of_exec encodes run enters

end

end Sys2Proof.Machine

namespace Sys2Proof.Proofs

open Sys2Proof Sys2Proof.Machine

/-- Settles O37: jumps and taken branches end in the same transfer, which raises before anything is written. -/
theorem misalignedTargetTrapsOnTheTransfer : Obligations.MisalignedTargetTrapsOnTheTransfer := by
  intro rd rs1 rs2 off21 off13 imm s
  exact ⟨fun misaligned => complete_transfer_misaligned misaligned s (s.writeX rd (s.pc + 4)),
    fun misaligned => complete_transfer_misaligned misaligned s (s.writeX rd (s.pc + 4)),
    (beq_branchesOn rs1 rs2 off13 s).traps_or_advances, (bne_branchesOn rs1 rs2 off13 s).traps_or_advances,
    (blt_branchesOn rs1 rs2 off13 s).traps_or_advances, (bge_branchesOn rs1 rs2 off13 s).traps_or_advances,
    (bltu_branchesOn rs1 rs2 off13 s).traps_or_advances, (bgeu_branchesOn rs1 rs2 off13 s).traps_or_advances⟩

/-- Settles O35: both words encode a link and a transfer, and the decoder rejects every other `funct3` of `JALR`. -/
theorem jumpsLinkAndTransfer : Obligations.JumpsLinkAndTransfer := by
  intro rd rs1 b20 b11 b19 b10 imm s
  refine ⟨?_, ?_, fun f3 other => ?_⟩
  · exact wordRuns_of_jump ⟨encodeJ_append .., evenOffset_append_zero _⟩ rfl
  · exact wordRuns_of_jump ⟨rfl, rfl⟩ rfl
  · exact execWord_of_rejected (decode_jalr_rejected imm rs1 rd other) s

/-- Settles O36: one encoding and one run for all six, told apart by their conditions. -/
theorem branchesTestAndTransfer : Obligations.BranchesTestAndTransfer := by
  intro rs1 rs2 b12 b11 b10 b4 s
  have word (f3 : BitVec 3) := encodeB_append b12 b11 b10 b4 rs2 rs1 f3 0b1100011#7
  have even := evenOffset_append_zero (b12 ++ b11 ++ b10 ++ b4)
  exact ⟨(beq_branchesOn ..).wordRuns ⟨word _, even⟩, (bne_branchesOn ..).wordRuns ⟨word _, even⟩,
    (blt_branchesOn ..).wordRuns ⟨word _, even⟩, (bge_branchesOn ..).wordRuns ⟨word _, even⟩,
    (bltu_branchesOn ..).wordRuns ⟨word _, even⟩, (bgeu_branchesOn ..).wordRuns ⟨word _, even⟩⟩

end Sys2Proof.Proofs
end

section
/-!
PROOFS. Loads and stores (43_load_store.md) once the alignment test is passed: the trap translation raises is the one taken, a
load retires what its bytes extend to, and a store leaves its bytes and advances `pc`.
-/

namespace Sys2Proof.Machine

/-! ## What translation raises (R259, R303) -/

/-- `r` is the exception `c` with value `va`, and `i` takes it in `s`. -/
def TakesRaised (i : Instr) (s : State) (va : Word) (r : Raised) (c : ExceptionCause) : Prop :=
  r = .trap (.exception c (some va)) ∧ ∃ t, exec i s = .next t ∧ EntersException s t (0#1 ++ c) va

/-- R259: an aligned access whose translation raises takes the page fault or the access fault of its intent, whichever was
raised, with the effective address as its value. -/
theorem takesRaised_of_mmuTranslate_raises {i : Instr} {s : State} {rs1 : RegIdx} {imm : BitVec 12} {intent : Intent} {w : Width}
    {page access : ExceptionCause} {r : Raised} (accesses : dataAccess? i = some (rs1, imm, intent, w))
    (isPage : ∀ va, pageFault intent va = .exception page (some va))
    (isAccess : ∀ va, accessFault intent va = .exception access (some va))
    (aligned : (effectiveAddress s rs1 imm).toNat % w.bytes = 0)
    (raises : mmuTranslate s (effectiveAddress s rs1 imm) intent w.bytes = .error r) :
    TakesRaised i s (effectiveAddress s rs1 imm) r page ∨ TakesRaised i s (effectiveAddress s rs1 imm) r access := by
  have address := (dataAddress_aligned aligned).trans raises
  rcases mmuTranslate_error raises with rfl | rfl
  · rw [isPage] at address ⊢
    exact .inl ⟨rfl, _, exec_of_dataAddress_raises accesses address, takeTrap_entersException _ _ s⟩
  · rw [isAccess] at address ⊢
    exact .inr ⟨rfl, _, exec_of_dataAddress_raises accesses address, takeTrap_entersException _ _ s⟩

section
variable {i : Instr} {s : State} {rs1 : RegIdx} {imm : BitVec 12} {w : Width} {r : Raised}

/-- R303: codes 13 and 5. -/
theorem load_takesRaised (accesses : dataAccess? i = some (rs1, imm, .load, w))
    (aligned : (effectiveAddress s rs1 imm).toNat % w.bytes = 0)
    (raises : mmuTranslate s (effectiveAddress s rs1 imm) .load w.bytes = .error r) :
    TakesRaised i s (effectiveAddress s rs1 imm) r .loadPageFault
      ∨ TakesRaised i s (effectiveAddress s rs1 imm) r .loadAccessFault :=
  takesRaised_of_mmuTranslate_raises accesses (fun _ => rfl) (fun _ => rfl) aligned raises

/-- R303: codes 15 and 7. -/
theorem store_takesRaised (accesses : dataAccess? i = some (rs1, imm, .store, w))
    (aligned : (effectiveAddress s rs1 imm).toNat % w.bytes = 0)
    (raises : mmuTranslate s (effectiveAddress s rs1 imm) .store w.bytes = .error r) :
    TakesRaised i s (effectiveAddress s rs1 imm) r .storePageFault
      ∨ TakesRaised i s (effectiveAddress s rs1 imm) r .storeAccessFault :=
  takesRaised_of_mmuTranslate_raises accesses (fun _ => rfl) (fun _ => rfl) aligned raises

end

/-! ## A load whose address translates (R251 to R255) -/

/-- R251, R252, R254, R255: a load of fewer than 32 bits retires what it read, extended. -/
theorem wordRuns_of_extendingLoad {word : Word} {i : Instr} {s : State} {rd : RegIdx} {va : Word} {w : Width} {pa : PAddr} {n : Nat}
    {read : PAddr → BitVec n} {extend : BitVec n → Word} (encodes : IsEncodingOf word i)
    (run : exec i s = complete s (loadInto rd (((dataAddress mmuTranslate s va .load w).map read).map extend) s))
    (aligned : va.toNat % w.bytes = 0) (maps : mmuTranslate s va .load w.bytes = .ok pa) :
    WordRuns word i s (fun t => WritesX s t rd (extend (read pa)) (s.pc + 4)) := by
  rw [dataAddress_aligned aligned, maps] at run
  exact .of_retire encodes run

/-- R74: a word is its high halfword above its low one. -/
theorem Memory.read32_eq_halves (m : Memory) {palen : Nat} (pa : BitVec palen) :
    m.read32 pa = (m.read (pa.toNat + 3) ++ m.read (pa.toNat + 2)) ++ (m.read (pa.toNat + 1) ++ m.read pa.toNat) :=
  BitVec.append_assoc

/-! ## A store whose address translates (R256 to R258) -/

/-- The S-type word with its immediate already split (R133). -/
theorem encodeS_append (hi : BitVec 7) (lo : BitVec 5) (rs2 rs1 : RegIdx) (f3 : BitVec 3) (op : BitVec 7) :
    encodeS (hi ++ lo) rs2 rs1 f3 op = hi ++ rs2 ++ rs1 ++ f3 ++ lo ++ op := by
  rw [encodeS, BitVec.extractLsb'_append_eq_left, BitVec.extractLsb'_append_eq_right]

/-- A memory with the bytes stored, and `pc` advanced, is exactly what `Stores` says. -/
theorem Memory.StoresBytes.stores {s : State} {m' : Memory} {pa : PAddr} {n : Nat} {v : Word}
    (h : s.mem.StoresBytes m' pa.toNat n v) : Stores s { s with mem := m' }.nextPc pa n v :=
  ⟨fun _ inside => h.read_inside inside, fun a outside => (h a).trans (if_neg (by omega)), rfl⟩

end Sys2Proof.Machine

namespace Sys2Proof.Proofs

open Sys2Proof Sys2Proof.Machine

/-- Settles O41: translation raises its intent's page fault or access fault, and the instruction takes it before any write. -/
theorem dataAccessFaultsTrapWithTheirCause : Obligations.DataAccessFaultsTrapWithTheirCause := by
  intro rd rs1 rs2 imm s r
  refine ⟨fun raises => ⟨?_, ?_⟩, fun aligned raises => ⟨?_, ?_⟩, fun aligned raises => ?_, fun raises => ?_,
    fun aligned raises => ?_, fun aligned raises => ?_⟩
  · exact load_takesRaised (i := .lb rd rs1 imm) rfl (Nat.mod_one _) raises
  · exact load_takesRaised (i := .lbu rd rs1 imm) rfl (Nat.mod_one _) raises
  · exact load_takesRaised (i := .lh rd rs1 imm) rfl aligned raises
  · exact load_takesRaised (i := .lhu rd rs1 imm) rfl aligned raises
  · exact load_takesRaised (i := .lw rd rs1 imm) rfl aligned raises
  · exact store_takesRaised (i := .sb rs1 rs2 imm) rfl (Nat.mod_one _) raises
  · exact store_takesRaised (i := .sh rs1 rs2 imm) rfl aligned raises
  · exact store_takesRaised (i := .sw rs1 rs2 imm) rfl aligned raises

/-- Settles O38: four loads extend what they read, and `LW` reads its two halfwords. -/
theorem loadsReadTheirBytes : Obligations.LoadsReadTheirBytes := by
  intro rd rs1 imm s pa
  refine ⟨fun maps => ⟨?_, ?_⟩, fun aligned maps => ⟨?_, ?_⟩, fun aligned maps => ?_⟩
  · exact wordRuns_of_extendingLoad (w := .byte) (read := s.mem.read8) ⟨rfl, rfl⟩ rfl (Nat.mod_one _) maps
  · exact wordRuns_of_extendingLoad (w := .byte) (read := s.mem.read8) ⟨rfl, rfl⟩ rfl (Nat.mod_one _) maps
  · exact wordRuns_of_extendingLoad (w := .half) (read := s.mem.read16) ⟨rfl, rfl⟩ rfl aligned maps
  · exact wordRuns_of_extendingLoad (w := .half) (read := s.mem.read16) ⟨rfl, rfl⟩ rfl aligned maps
  · have run := exec_lw_of_translates (rd := rd) aligned maps
    rw [Memory.read32_eq_halves] at run
    exact .of_retire ⟨rfl, rfl⟩ run

/-- Settles O39: a byte or halfword store writes the low bytes of `x[rs2]`, which are those of the whole register. -/
theorem storesWriteTheirBytes : Obligations.StoresWriteTheirBytes := by
  intro rs1 rs2 hi lo s pa canonical
  have word (f3 : BitVec 3) := encodeS_append hi lo rs2 rs1 f3 0b0100011#7
  refine ⟨fun maps => ?_, fun aligned maps => ?_, fun aligned maps => ?_⟩
  · exact .of_exec ⟨word _, rfl⟩ (exec_sb_of_translates maps)
      ((Memory.storesBytes_write8 canonical pa _).of_low (by decide)).stores
  · exact .of_exec ⟨word _, rfl⟩ (exec_sh_of_translates aligned maps)
      ((Memory.storesBytes_write16 canonical pa _).of_low (by decide)).stores
  · exact .of_exec ⟨word _, rfl⟩ (exec_sw_of_translates aligned maps) (Memory.storesBytes_write32 canonical pa _).stores

end Sys2Proof.Proofs
end

section
/-!
PROOFS. Memory ordering, environment calls and the trap return (44_fence_system.md). `FENCE` advances `pc`, `ECALL` and `EBREAK`
are trap entries, and `MRET` undoes a trap entry, whose composition with it is said once for the whole state.
-/

namespace Sys2Proof.Machine

/-! ## Words that run into an exception -/

/-- The encoding of an instruction that raises enters its exception. -/
theorem WordRuns.of_exception {w : Word} {i : Instr} {s : State} {c : ExceptionCause} {v : Option Word}
    (encodes : IsEncodingOf w i) (run : exec i s = .next (takeTrap (.exception c v) s)) :
    WordRuns w i s (fun t => EntersException s t (0#1 ++ c) (v.getD 0)) :=
  .of_exec encodes run (takeTrap_entersException c v s)

/-- R270: under `FENCE`'s opcode only `funct3` 000 has an entry. -/
theorem decode_miscMem_rejected {f3 : BitVec 3} (imm : BitVec 12) (rs1 rd : RegIdx) (h : f3 ≠ 0b000#3) :
    decode (encodeI imm rs1 f3 rd 0b0001111#7) = .error (.unknownFunct3 0b0001111#7 f3) := by
  simp only [decode, opcodeOf_encodeI, decodeMiscMem, funct3Of_encodeI]

/-! ## The behaviours (R271, R272, R274) -/

/-- R271: `ECALL` is the trap entry of its mode's cause. -/
theorem exec_ecall (s : State) : exec .ecall s = .next (takeTrap (.exception (envCallCause s.mode) none) s) := rfl

/-- R272: `EBREAK` is the trap entry of `Breakpoint`. -/
theorem exec_ebreak (s : State) : exec .ebreak s = .next (takeTrap (.exception .breakpoint none) s) := rfl

theorem exec_mret_of_machine {s : State} (machine : s.mode = .machine) : exec .mret s = .next (returnFromTrap s) := by
  rw [exec_mret, if_pos machine]

theorem exec_mret_of_not_machine {s : State} (below : s.mode ≠ .machine) :
    exec .mret s = .next (takeTrap (illegalInstruction 0x30200073) s) := by
  rw [exec_mret, if_neg below, encode]

/-- R274: the return clears `MPRV` unless it goes back to M. -/
theorem Mstatus.leaveTrap_mprv (m : Mstatus) : m.leaveTrap.mprv = if m.mpp = .machine then m.mprv else false := by
  by_cases toMachine : m.mpp = .machine <;> simp [Mstatus.leaveTrap, toMachine]

/-! ## A trap entry, then the return from it -/

/-- R274, R310, R314: the return finds in `MPIE`, `MPP` and `mepc` what the entry stacked there, so beside those stack fields,
`mcause` and `mtval` only `MPRV` can differ from the interrupted state. -/
theorem returnFromTrap_takeTrap {s : State} (aligned : s.pc.extractLsb' 0 2 = 0#2) (tr : Trap) :
    returnFromTrap (takeTrap tr s) =
      { s with
        csr := { s.csr with
                 mepc := s.pc
                 mcause := tr.causeWord
                 mtval := tr.valueWord
                 mstatus := { s.csr.mstatus with
                              mpie := true
                              mpp := .user
                              mprv := s.csr.mstatus.mprv && decide (s.mode = .machine) } } } := by
  simp only [returnFromTrap, Mstatus.leaveTrap, takeTrap, Mstatus.enterTrap, and_mepcMask_of_aligned aligned]

end Sys2Proof.Machine

namespace Sys2Proof.Proofs

open Sys2Proof Sys2Proof.Machine

/-- Settles O45: the entry leaves M, where `MRET` is the return, and the return after the entry is the interrupted state but for
the trap's own CSR fields. -/
theorem trapThenMretResumes : Obligations.TrapThenMretResumes := by
  intro s tr aligned
  have resumes := exec_mret_of_machine (takeTrap_mode tr s)
  rw [returnFromTrap_takeTrap aligned tr] at resumes
  exact ⟨_, resumes, rfl, rfl, rfl, rfl, rfl, rfl, rfl, rfl, rfl, rfl, rfl, rfl⟩

/-- Settles O42: the word encodes `FENCE`, whatever its fields, and the decoder rejects `FENCE.I`'s `funct3`. -/
theorem fenceOnlyAdvancesPc : Obligations.FenceOnlyAdvancesPc := by
  intro fm pred succ rs1 rd s
  constructor
  · exact .of_exec (t := s.nextPc) ⟨rfl, rfl⟩ rfl rfl
  · exact execWord_of_rejected (decode_miscMem_rejected (fm ++ pred ++ succ) rs1 rd (by decide)) s

/-- Settles O43: both are trap entries without a value, `ECALL`'s cause by the mode. -/
theorem ecallAndEbreakTakeTheirExceptions : Obligations.EcallAndEbreakTakeTheirExceptions := by
  intro s
  constructor
  · have traps := WordRuns.of_exception (w := 0x00000073) ⟨rfl, rfl⟩ (exec_ecall s)
    cases mode : s.mode <;> (rw [mode] at traps; exact traps)
  · exact .of_exception ⟨rfl, rfl⟩ (exec_ebreak s)

/-- Settles O44: in M the return, with its `MPRV` written as a condition; below M the illegal instruction. -/
theorem mretReturnsFromTheTrap : Obligations.MretReturnsFromTheTrap := by
  intro s
  constructor
  · intro machine
    refine .of_exec ⟨rfl, rfl⟩ (exec_mret_of_machine machine) ?_
    rw [← Mstatus.leaveTrap_mprv]
    rfl
  · intro below
    exact .of_exception (v := some _) ⟨rfl, rfl⟩ (exec_mret_of_not_machine below)

end Sys2Proof.Proofs
end

section
/-!
PROOFS. The CSR access instructions (45_zicsr.md). The six are two shared operations, `csrSwap` and `csrUpdate`; what a word that
runs one of them does, legal or not, is said once for both.
-/

namespace Sys2Proof.Machine

/-- What the word `w` of the CSR instruction `i` does in `s`: where the mode may access address `a`, `rd` gets the old value of the
entry there, over the state `next` gives for that entry; elsewhere `w` is an illegal instruction (R51, R287, R288). -/
structure AccessesCsr (w : Word) (i : Instr) (s : State) (rd : RegIdx) (a : CsrAddr) (next : Csr → State) : Prop where
  runs : ∀ c, Csr.ofAddr? a = some c → CsrLegal s.mode a →
    WordRuns w i s (fun t => WritesX (next c) t rd (s.readCsr c) (s.pc + 4))
  traps : ¬ CsrLegal s.mode a → WordRuns w i s (fun t => EntersException s t 2 w)

section
variable {w : Word} {i : Instr} {s : State} {rd : RegIdx} {a : CsrAddr}

/-- R51: the legality test of an access, its entry's required mode, is membership in the mode's table of addresses. -/
theorem AccessesCsr.of_cases {r : Result State} {next : Csr → State} (encodes : IsEncodingOf w i)
    (run : exec i s = complete s r) (keepsPc : ∀ c, (next c).pc = s.pc)
    (answers : (∃ c, Csr.ofAddr? a = some c ∧ s.mode.meets c.requiredMode = true ∧ r = .ok ((next c).retire rd (s.readCsr c))) ∨
      ((∀ c, Csr.ofAddr? a = some c → s.mode.meets c.requiredMode = false) ∧ r = .error (.trap (illegalInstruction w)))) :
    AccessesCsr w i s rd a next := by
  rcases answers with ⟨c, at_a, met, rfl⟩ | ⟨refused, rfl⟩
  · refine ⟨fun d at_a' _ => ?_, fun illegal => absurd ((csrLegal_iff s.mode a).mpr ⟨c, at_a, met⟩) illegal⟩
    obtain rfl : c = d := Option.some.inj (at_a.symm.trans at_a')
    exact .of_exec encodes run (keepsPc c ▸ (next c).retire_writesX rd (s.readCsr c))
  · refine ⟨fun _ _ legal => ?_, fun _ => .of_exception (v := some w) encodes run⟩
    obtain ⟨c, at_a, met⟩ := (csrLegal_iff s.mode a).mp legal
    exact absurd met (by simp [refused c at_a])

/-- R281, R284: the swap forms write `v`. -/
theorem AccessesCsr.of_csrSwap {v : Word} (encodes : IsEncodingOf w i)
    (run : exec i s = complete s (csrSwap loadedCsr w rd a v s)) : AccessesCsr w i s rd a (s.writeCsr · v) :=
  .of_cases encodes run (fun _ => rfl) (csrSwap_cases w rd a v s)

/-- R282, R283, R285, R286: the set and clear forms write the updated value, unless their source field `src` is 0. -/
theorem AccessesCsr.of_csrUpdate {src : BitVec 5} {update : Word → Word} (encodes : IsEncodingOf w i)
    (run : exec i s = complete s (csrUpdate loadedCsr w rd a (decide (src ≠ 0#5)) update s)) :
    AccessesCsr w i s rd a (fun c => if src = 0 then s else s.writeCsr c (update (s.readCsr c))) := by
  refine .of_cases encodes run (fun c => ?_) ?_
  · split <;> rfl
  · simpa using csrUpdate_cases w rd a (decide (src ≠ 0#5)) update s

end

end Sys2Proof.Machine

namespace Sys2Proof.Proofs

open Sys2Proof Sys2Proof.Machine

/-- Settles O48: both swap, one with `x[rs1]`, one with the immediate. -/
theorem csrSwapResults : Obligations.CsrSwapResults := by
  intro rd a rs1 uimm s
  have csrrw := AccessesCsr.of_csrSwap (i := .csrrw rd a rs1) (s := s) ⟨rfl, rfl⟩ rfl
  have csrrwi := AccessesCsr.of_csrSwap (i := .csrrwi rd a uimm) (s := s) ⟨rfl, rfl⟩ rfl
  exact ⟨fun c at_a legal => ⟨csrrw.runs c at_a legal, csrrwi.runs c at_a legal⟩,
    fun illegal => ⟨csrrw.traps illegal, csrrwi.traps illegal⟩⟩

/-- Settles O49: all four update, each with its own mask and its own source field. -/
theorem csrSetAndClearResults : Obligations.CsrSetAndClearResults := by
  intro rd a rs1 uimm s
  have csrrs := AccessesCsr.of_csrUpdate (i := .csrrs rd a rs1) (s := s) ⟨rfl, rfl⟩ rfl
  have csrrc := AccessesCsr.of_csrUpdate (i := .csrrc rd a rs1) (s := s) ⟨rfl, rfl⟩ rfl
  have csrrsi := AccessesCsr.of_csrUpdate (i := .csrrsi rd a uimm) (s := s) ⟨rfl, rfl⟩ rfl
  have csrrci := AccessesCsr.of_csrUpdate (i := .csrrci rd a uimm) (s := s) ⟨rfl, rfl⟩ rfl
  exact ⟨fun c at_a legal =>
      ⟨csrrs.runs c at_a legal, csrrc.runs c at_a legal, csrrsi.runs c at_a legal, csrrci.runs c at_a legal⟩,
    fun illegal => ⟨csrrs.traps illegal, csrrc.traps illegal, csrrsi.traps illegal, csrrci.traps illegal⟩⟩

end Sys2Proof.Proofs
end

section
/-!
PROOFS. Traps, interrupts and the privilege mode (60_exceptions.md). Every trap, interrupt or exception, is the one entry
`takeTrap`; which interrupt a step takes is read off three bits of the pending word; and the mode is written by that entry and by
`MRET` alone.
-/

namespace Sys2Proof.Machine

/-! ## Taking an interrupt (R310, R312) -/

/-- Taking an interrupt leaves what R310 says, at the vector of R312. -/
theorem takeTrap_entersInterrupt (k : InterruptCause) (v : Option Word) (s : State) :
    EntersTrap s (takeTrap (.interrupt k v) s) (1#1 ++ k) (v.getD 0) (interruptVector s (k.zeroExtend 32)) := by
  simp [EntersTrap, interruptVector, takeTrap, trapVector, Trap.isInterrupt, Trap.code, Trap.causeWord, Trap.valueWord,
    Mstatus.enterTrap]

/-! ## Which interrupt is pending (R332) -/

/-- R332: an interrupt is taken below M, or in M when `MIE` is set. -/
def InterruptGate (s : State) : Prop := s.mode ≠ .machine ∨ s.csr.mstatus.mie = true

/-- R332: the test for an empty pending word is already in the selection, which takes nothing from it. -/
theorem pendingInterrupt_of_gate {s : State} (gate : InterruptGate s) :
    pendingInterrupt s = selectInterrupt (s.irq.mip &&& s.csr.mie) := by
  have closed : ¬ (s.mode = .machine ∧ s.csr.mstatus.mie = false) := by
    rintro ⟨machine, masked⟩
    simp [InterruptGate, machine, masked] at gate
  unfold pendingInterrupt
  by_cases empty : s.irq.mip &&& s.csr.mie = 0#32
  · simp [empty, selectInterrupt]
  · simp [empty, closed]

theorem pendingInterrupt_of_not_gate {s : State} (closed : ¬ InterruptGate s) : pendingInterrupt s = none := by
  have masked : s.mode = .machine ∧ s.csr.mstatus.mie = false := by simpa [InterruptGate] using closed
  simp [pendingInterrupt, masked]

/-- R332 over the inputs: the selection is by priority among the inputs that are asserted and enabled. -/
theorem selectInterrupt_mip_and (q : IrqInputs) (enabled : Word) :
    selectInterrupt (q.mip &&& enabled) =
      if q.meip = true ∧ enabled.getLsbD 11 = true then some (.interrupt .machineExternal none)
      else if q.msip = true ∧ enabled.getLsbD 3 = true then some (.interrupt .machineSoftware none)
      else if q.mtip = true ∧ enabled.getLsbD 7 = true then some (.interrupt .machineTimer none)
      else none := by
  simp only [selectInterrupt, BitVec.getLsbD_and, Bool.and_eq_true, q.getLsbD_mip (k := 11) (by decide),
    q.getLsbD_mip (k := 3) (by decide), q.getLsbD_mip (k := 7) (by decide)]

/-- R332: a running core with an interrupt pending takes it, and executes no instruction. -/
theorem step_of_pending {s : State} {tr : Trap} (running : s.runState = .running) (pending : pendingInterrupt s = some tr) :
    step s = .next (takeTrap tr s) := by
  simp [step, sequencerStep, running, pending]

theorem step_takes_interrupt {s : State} {k : InterruptCause} (running : s.runState = .running)
    (pending : pendingInterrupt s = some (.interrupt k none)) :
    ∃ t, step s = .next t ∧ EntersTrap s t (1#1 ++ k) 0 (interruptVector s (k.zeroExtend 32)) :=
  ⟨_, step_of_pending running pending, takeTrap_entersInterrupt k none s⟩

/-! ## The privilege mode (R34, R322) -/

/-- R322: an instruction keeps the mode unless it raises or is an `MRET` made in M. -/
theorem ExecEffect.mode_cases {i : Instr} {s t : State} (e : ExecEffect i s t) :
    t.mode = s.mode ∨ TakesListedTrap s t ∨ (i = .mret ∧ s.mode = .machine ∧ t.mode = s.csr.mstatus.mpp) := by
  cases e with
  | trap tr listed after => exact .inr (.inl ⟨tr, listed, after⟩)
  | trapReturn is legal after => exact .inr (.inr ⟨is, legal, by simp [after]⟩)
  | retire _ _ after | jump _ _ _ _ after | branch _ _ after | advance after
  | storeByte _ _ _ _ _ _ after | storeHalf _ _ _ _ _ _ after | storeWord _ _ _ _ _ _ after
  | csrWrite _ _ _ _ _ _ after => exact .inl (by simp [after])

end Sys2Proof.Machine

namespace Sys2Proof.Proofs

open Sys2Proof Sys2Proof.Machine

/-- Settles O53: the fetched word is the encoding of what it decodes to, so an executed `MRET` was fetched as its one word. -/
theorem modeChangesOnlyByTrapAndMret : Obligations.ModeChangesOnlyByTrapAndMret := by
  intro s t run
  rcases step_effect run with trap | ⟨w, i, fetched, decoded, effect⟩
  · exact .inr (.inl trap)
  · rcases effect.mode_cases with kept | trap | ⟨rfl, machine, returned⟩
    · exact .inl kept
    · exact .inr (.inl trap)
    · obtain ⟨rfl, -⟩ := isEncodingOf_of_decode decoded
      exact .inr (.inr ⟨machine, fetched, returned⟩)

/-- Settles O16: each clause fixes which branch of the selection is taken. -/
theorem pendingInterruptIsTakenByPriority : Obligations.PendingInterruptIsTakenByPriority := by
  intro s running
  have selected (gate : InterruptGate s) := (pendingInterrupt_of_gate gate).trans (selectInterrupt_mip_and s.irq s.csr.mie)
  refine ⟨fun gate ext => ?_, fun gate noExt sw => ?_, fun gate noExt noSw tim => ?_, fun idle => ?_⟩
  · exact step_takes_interrupt (k := .machineExternal) running (by rw [selected gate, if_pos ext])
  · exact step_takes_interrupt (k := .machineSoftware) running (by rw [selected gate, if_neg noExt, if_pos sw])
  · exact step_takes_interrupt (k := .machineTimer) running (by rw [selected gate, if_neg noExt, if_neg noSw, if_pos tim])
  · have quiet : pendingInterrupt s = none := by
      by_cases gate : InterruptGate s
      · obtain ⟨noExt, noSw, noTim⟩ := idle.resolve_left (not_not_intro gate)
        rw [selected gate, if_neg noExt, if_neg noSw, if_neg noTim]
      · exact pendingInterrupt_of_not_gate gate
    exact ⟨quiet, step_of_quiet running quiet⟩

/-- Settles O17: the two entries, the alignment of the vector, and the raw path over the loaded entries. -/
theorem takeTrapWritesExactlyItsFields : Obligations.TakeTrapWritesExactlyItsFields := by
  intro s c k v
  exact ⟨takeTrap_entersException c v s, takeTrap_entersInterrupt k v s, fun tr =>
    ⟨trapVector_aligned _ _ _, fun _ loaded mepc => takeTrapRaw_of_loadedRaw loaded tr mepc⟩⟩

end Sys2Proof.Proofs
end

section
/-!
PROOFS. Reset (70_reset_and_hazards.md R361 to R363), and the core the default configuration constructs (R370). That core looks a
word up in the flat table and runs the behaviour found there on the raw word, where `step` decodes the word and executes the
instruction. The two meet at the word's encoding: the row of an instruction selects its encoding, and reads from it the operands
that were encoded.
-/

namespace Sys2Proof.Machine

/-! ## Reset -/

section
variable {b : Cpu} {vector : Word} {fill : ResetFill} {s t : State}

theorem hostReset_of_aligned (aligned : vector.extractLsb' 0 2 = 0#2) :
    hostReset b vector fill s = some (b.resetTo vector fill s) := if_pos aligned

theorem hostReset_of_misaligned (misaligned : vector.extractLsb' 0 2 ≠ 0#2) : hostReset b vector fill s = none :=
  if_neg misaligned

/-- R7, R372: where the host's reset answers, it is `Reset()`. -/
theorem hostReset_eq_some (answers : hostReset b vector fill s = some t) : t = b.resetTo vector fill s := by
  by_cases aligned : vector.extractLsb' 0 2 = 0#2
  · exact (Option.some.inj ((hostReset_of_aligned aligned).symm.trans answers)).symm
  · exact nomatch (hostReset_of_misaligned aligned).symm.trans answers

end

/-- R41 to R50: in a bank cut to its masks no CSR but `mip` reads a bit outside its mask. The mask of `mip` is empty, and what it
reads are the inputs. -/
theorem State.readCsr_and_not_writeMask {s : State} (masked : s.csr.Masked) (c : Csr) :
    s.readCsr c &&& ~~~c.writeMask = if c = .mip then s.irq.mip else 0#32 := by
  have full (w : Word) : w &&& ~~~0xFFFFFFFF#32 = 0#32 := BitVec.and_zero
  cases c with
  | satp => exact masked.satp
  | mstatus => exact s.csr.mstatus.toWord_masked
  | mie => exact masked.mie
  | mtvec => exact masked.mtvec
  | mepc => exact masked.mepc
  | mscratch | mcause | mtval => exact full _
  | mip => exact BitVec.and_allOnes

/-- R88: a fetch in machine mode is not translated, whatever `satp` holds. -/
theorem translationOn_fetch_of_machine {s : State} (machine : s.mode = .machine) : translationOn s .fetch = false := by
  simp [translationOn, effMode, machine]

/-! ## The Instruction of the loaded modules that an instruction's row belongs to -/

/-- The Instruction of the loaded modules with the name of the instruction. -/
def loadedInstruction? (i : Instr) : Option Instruction :=
  defaultConfiguration.instructions.find? fun e => e.row.name == i.mnemonic

theorem descriptor?_eq_map_row (i : Instr) : i.descriptor? = (loadedInstruction? i).map Instruction.row :=
  List.find?_map ..

theorem mem_of_loadedInstruction? {i : Instr} {e : Instruction} (found : loadedInstruction? i = some e) :
    e ∈ defaultConfiguration.instructions := List.mem_of_find?_eq_some found

/-- R139, R140: the Instruction's row selects the encoding. -/
theorem selects_encode_of_loadedInstruction? {i : Instr} {e : Instruction} (found : loadedInstruction? i = some e) :
    e.row.selects (encode i) = true := by
  obtain ⟨d, row, -, selects⟩ := Laws.TableRow.of_instr i
  rw [descriptor?_eq_map_row, found] at row
  exact Option.some.inj row ▸ selects

/-- What the behaviours of the loaded configuration reach (R182). -/
def loadedPaths : Paths := { palen := 34, translate := mmuTranslate, csr := loadedCsr }

/-- R182: the Instruction's behaviour on the encoding of `i` is the meaning of `i`: from each format it reads the fields that were
encoded. -/
theorem exec_eq_complete_behaviour (i : Instr) (formed : i.wellFormed = true) :
    ∃ e, loadedInstruction? i = some e ∧ ∀ s, exec i s = complete s (e.behaviour loadedPaths (encode i) s) := by
  cases i with
  | lui | auipc =>
    exact ⟨_, rfl, fun s => by simp only [encode, rdOf_encodeU, immUOf_encodeU]; rfl⟩
  | addi | slti | sltiu | xori | ori | andi | jalr | lb | lh | lw | lbu | lhu =>
    exact ⟨_, rfl, fun s => by simp only [encode, rdOf_encodeI, rs1Of_encodeI, immIOf_encodeI]; rfl⟩
  | slli | srli | srai =>
    exact ⟨_, rfl, fun s => by simp only [encode, rdOf_encodeR, rs1Of_encodeR, shamtOf_encodeR]; rfl⟩
  | add | sub | sll | slt | sltu | xor | srl | sra | or | and =>
    exact ⟨_, rfl, fun s => by simp only [encode, rdOf_encodeR, rs1Of_encodeR, rs2Of_encodeR]; rfl⟩
  | jal rd off =>
    exact ⟨_, rfl, fun s => by simp only [encode, rdOf_encodeJ, immJOf_encodeJ off rd _ formed]; rfl⟩
  | beq rs1 rs2 off | bne rs1 rs2 off | blt rs1 rs2 off | bge rs1 rs2 off | bltu rs1 rs2 off | bgeu rs1 rs2 off =>
    exact ⟨_, rfl, fun s => by simp only [encode, rs1Of_encodeB, rs2Of_encodeB, immBOf_encodeB off rs2 rs1 _ _ formed]; rfl⟩
  | sb | sh | sw =>
    exact ⟨_, rfl, fun s => by simp only [encode, rs1Of_encodeS, rs2Of_encodeS, immSOf_encodeS]; rfl⟩
  | fence =>
    exact ⟨_, rfl, fun s => by
      simp only [encode, fmOf_encodeI, predOf_encodeI, succOf_encodeI, rs1Of_encodeI, rdOf_encodeI]; rfl⟩
  | ecall | ebreak | mret => exact ⟨_, rfl, fun _ => rfl⟩
  | csrrw | csrrs | csrrc =>
    exact ⟨_, rfl, fun s => by simp only [encode, rdOf_encodeI, csrOf_encodeI, rs1Of_encodeI]; rfl⟩
  | csrrwi | csrrsi | csrrci =>
    exact ⟨_, rfl, fun s => by simp only [encode, rdOf_encodeI, csrOf_encodeI, uimmOf_encodeI]; rfl⟩

/-! ## The core of the default configuration -/

theorem defaultConfiguration_wellFormed : defaultConfiguration.wellFormed = true := by decide

/-- R370: the default configuration constructs the core of its modules. -/
theorem construct_defaultConfiguration (bus : Memory) (fill : ResetFill) :
    ∃ s₀, construct defaultConfiguration bus fill = some (defaultConfiguration.build, s₀) :=
  ⟨_, if_pos defaultConfiguration_wellFormed⟩

theorem loadedRaw_defaultConfiguration : LoadedRaw defaultConfiguration.build.csr :=
  defaultConfiguration_csr ▸ loadedRaw_loadedCsr

theorem defaultConfiguration_paths : defaultConfiguration.build.paths = loadedPaths := by
  change Paths.mk 34 (mmuVia defaultConfiguration.build.csr) defaultConfiguration.build.csr = loadedPaths
  rw [defaultConfiguration_csr, mmuVia_of_loadedRaw loadedRaw_loadedCsr]
  rfl

/-- R137, R175: the core executes a word as the loaded machine does. -/
theorem complete_execute_defaultConfiguration (w : Word) (s : State) :
    complete s (defaultConfiguration.build.execute w s) = execWord w s := by
  cases decoded : decode w with
  | ok i =>
    obtain ⟨rfl, formed⟩ := isEncodingOf_of_decode decoded
    obtain ⟨e, found, means⟩ := exec_eq_complete_behaviour i formed
    rw [Cpu.execute_of_selects defaultConfiguration_wellFormed (mem_of_loadedInstruction? found)
      (selects_encode_of_loadedInstruction? found), defaultConfiguration_paths, ← means, execWord, decoded]
  | error r =>
    have unselected := (Proofs.decoderAgreesWithTheFlatTable w).2.mp ⟨r, decoded⟩
    rw [execWord_of_unselected unselected,
      Cpu.execute_of_unselected fun e mem => unselected e.row (List.mem_map_of_mem mem), complete_trap]

section
variable {s : State} (mepc : s.csr.mepc.extractLsb' 0 2 = 0#2)
include mepc

/-- R170: what a phase of the step raises, the core recovers from as the loaded machine does. -/
theorem Cpu.recover_defaultConfiguration (r : Raised) :
    recover defaultConfiguration.build.takeTrap s r = recover Machine.takeTrap s r := by
  cases r with
  | trap t => exact Cpu.takeTrap_of_loadedRaw loadedRaw_defaultConfiguration t mepc
  | fatal reason => rfl

theorem Cpu.completeWith_defaultConfiguration (r : Result State) :
    completeWith defaultConfiguration.build.takeTrap s r = complete s r := by
  cases r with
  | ok t => rfl
  | error e => exact congrArg Host.Outcome.next (Cpu.recover_defaultConfiguration mepc e)

/-- R170 from its `try` on. -/
theorem Cpu.runOne_defaultConfiguration : defaultConfiguration.build.runOne s = Machine.runOne s := by
  have sameFetch : fetchVia defaultConfiguration.build.paths.translate s = fetch s := by
    rw [defaultConfiguration_paths]
    rfl
  rw [Cpu.runOne, Machine.runOne, sameFetch]
  cases fetch s with
  | ok w => exact (Cpu.completeWith_defaultConfiguration mepc _).trans (complete_execute_defaultConfiguration w s)
  | error r => exact congrArg Host.Outcome.next (Cpu.recover_defaultConfiguration mepc r)

/-- R170: a step of the core, from the interrupt test on. -/
theorem Cpu.step_defaultConfiguration : defaultConfiguration.build.step s = Machine.step s := by
  rw [Cpu.step, Machine.step, sequencerStep, pendingInterruptRaw_of_loadedRaw loadedRaw_defaultConfiguration]
  cases s.runState with
  | halted => rfl
  | running =>
    cases pendingInterrupt s with
    | some t => exact congrArg Host.Outcome.next (Cpu.takeTrap_of_loadedRaw loadedRaw_defaultConfiguration t mepc)
    | none => exact Cpu.runOne_defaultConfiguration mepc

end

end Sys2Proof.Machine

namespace Sys2Proof.Proofs

open Sys2Proof Sys2Proof.Machine

/-- Settles O60: the raw path over the registered entries is the one over the stored CSRs, and the Instruction found in the flat
table means what the decoded instruction means. -/
theorem defaultCoreStepsAsTheMachine : Obligations.DefaultCoreStepsAsTheMachine := by
  intro bus fill
  obtain ⟨s₀, built⟩ := construct_defaultConfiguration bus fill
  exact ⟨defaultConfiguration.build, s₀, built, fun _ mepc => Cpu.step_defaultConfiguration mepc⟩

/-- Settles O8: reset leaves machine mode with `MIE` = 0, where no interrupt is taken and no fetch is translated. -/
theorem firstFetchAfterResetIsUntranslated : Obligations.FirstFetchAfterResetIsUntranslated := by
  intro b vector fill s t answers
  obtain rfl := hostReset_eq_some answers
  refine ⟨pendingInterrupt_of_not_gate (by simp [InterruptGate, Cpu.resetTo, ResetFill.bank]), ?_⟩
  have bare := mmuTranslate_bare (translationOn_fetch_of_machine (s := b.resetTo vector fill s) rfl) (va := vector) 4
  split_ifs at bare ⊢ with present
  · exact fetch_of_translates bare
  · exact fetch_of_raises bare

/-- Settles O7: each field as `Reset()` writes it or leaves it, and the fill of every CSR cut to its mask. -/
theorem resetLeavesTheSpecifiedState : Obligations.ResetLeavesTheSpecifiedState := by
  intro b vector fill s
  refine ⟨fun aligned => ⟨_, hostReset_of_aligned aligned, ?_⟩, hostReset_of_misaligned⟩
  exact ⟨rfl, rfl, rfl, rfl, rfl, rfl, rfl, State.readX_zero _, State.readCsr_and_not_writeMask fill.bank_masked,
    rfl, rfl, rfl⟩

end Sys2Proof.Proofs
end
